-- ==== Sys2Proof/Word.lean ====
section
/-! DEFINITION. The word, byte and address types of simtotp CORE (00_scope.md rules R6, R9, R10; 20_memory.md rule R60).
`+32` of R9 is `+` on `Word`; `zext_N` and `sext_N` of R9 are the library's `BitVec.setWidth` and `BitVec.signExtend`. -/

namespace Sys2Proof

/-- A hash word and every datapath register: 32 bits (R6, WORD). -/
abbrev Word := BitVec 32

/-- A byte, a value in `[0, 255]` (R10). -/
abbrev Byte := BitVec 8

/-- A 64-bit quantity: the counter, the step length, the clock's seconds (R6). -/
abbrev Quad := BitVec 64

/-- The host port's word index `h_addr`, 9 bits (R60, R62). -/
abbrev WordIndex := BitVec 9

end Sys2Proof
end

