-- ==== Sys2Proof/Syntax.lean ====
section
/-! DEFINITION. The commands of simtotp CORE, one constructor per row of spec/opcode_table.json (30_encoding.md rule R91). -/

namespace Sys2Proof

/-- A command. `digits` is the DIG field as the word holds it (R92): the four bits are not restricted here, since a word
whose DIG is 0 or 10 to 15 still selects HOTP or TOTP and fails its operand check afterwards (R91, R93). -/
inductive Instr where
  /-- HASH, word 0x00000001 (41_sha1.md rule R141). -/
  | hash
  /-- HMAC, word 0x00000002 (42_hmac.md rule R165). -/
  | hmac
  /-- HOTP d, word 0x00000003 + 16 d (43_otp.md rule R185). -/
  | hotp (digits : BitVec 4)
  /-- TOTP d, word 0x00000004 + 16 d (43_otp.md rule R186). -/
  | totp (digits : BitVec 4)
  deriving DecidableEq, Repr

end Sys2Proof
end

