-- ==== Sys2Proof/WellFormed.lean ====
section
/-! DEFINITION. Which commands are legal as words: the twenty legal command words of 30_encoding.md rule R91. -/

namespace Sys2Proof

/-- The legal range of a digit count, `digits: UInt(1..=9)` (R92, R189). -/
def digitsLegal (digits : BitVec 4) : Bool :=
  decide (1 ≤ digits.toNat ∧ digits.toNat ≤ 9)

/-- A command is well formed when its word is one of the twenty legal words of R91. The block decodes and runs the others
too, and they end with error DIGITS (60_exceptions.md rule R207). -/
def Instr.wellFormed : Instr → Bool
  | .hash => true
  | .hmac => true
  | .hotp digits => digitsLegal digits
  | .totp digits => digitsLegal digits

end Sys2Proof
end

