-- ==== Sys2Proof/Decode.lean ====
section
/-! DEFINITION. The command word: its fields, the decoder of 30_encoding.md rule R93, the encoder of rules R91 and R98, and
the opcode table of rule R91 as rows of match and mask. -/

namespace Sys2Proof

/-- OP, bits 3:0 (R90). -/
def opField (w : Word) : BitVec 4 := w.extractLsb' 0 4

/-- DIG, bits 7:4 (R90, R92): used as is, not scaled, not biased. -/
def digField (w : Word) : BitVec 4 := w.extractLsb' 4 4

/-- ZERO, bits 31:8, reserved (R90). -/
def zeroField (w : Word) : BitVec 24 := w.extractLsb' 8 24

/-- Why a word is illegal: the test of R93 it fails first. The block reports all three as ILLEGAL_CMD (R94, R210). -/
inductive IllegalWord where
  /-- Bits 31:8 are not zero (R93 step 2). -/
  | reservedBits
  /-- OP is HASH or HMAC and DIG is not zero (R93 step 3). -/
  | digitsNotZero
  /-- OP is 0 or 5 to 15 (R93 step 3). -/
  | noSuchOperation
  deriving DecidableEq, Repr

/-- The outcome of decoding: one of the four commands, or illegal (R93). -/
inductive Decoded where
  | legal (i : Instr)
  | illegal (why : IllegalWord)
  deriving DecidableEq, Repr

/-- Decoding as the accept step does it, total on all 2^32 words (R93, R94). -/
def decode (w : Word) : Decoded :=
  if zeroField w ≠ 0 then .illegal .reservedBits
  else if opField w = 1 then (if digField w ≠ 0 then .illegal .digitsNotZero else .legal .hash)
  else if opField w = 2 then (if digField w ≠ 0 then .illegal .digitsNotZero else .legal .hmac)
  else if opField w = 3 then .legal (.hotp (digField w))
  else if opField w = 4 then .legal (.totp (digField w))
  else .illegal .noSuchOperation

/-- The word that issues a command (R98). -/
def encode : Instr → Word
  | .hash => 0x00000001
  | .hmac => 0x00000002
  | .hotp digits => 0x00000003 + 16 * digits.setWidth 32
  | .totp digits => 0x00000004 + 16 * digits.setWidth 32

/-- One row of the opcode table (R91): the word w selects the command when `(w & mask) = matchBits`. -/
structure OpcodeRow where
  mnemonic  : String
  matchBits : Word
  mask      : Word
  deriving DecidableEq, Repr

/-- The opcode table of R91. -/
def opcodeTable : List OpcodeRow :=
  [ ⟨"HASH", 0x00000001, 0xFFFFFFFF⟩,
    ⟨"HMAC", 0x00000002, 0xFFFFFFFF⟩,
    ⟨"HOTP", 0x00000003, 0xFFFFFF0F⟩,
    ⟨"TOTP", 0x00000004, 0xFFFFFF0F⟩ ]

/-- The word selects the row's command (R91). -/
def OpcodeRow.selects (r : OpcodeRow) (w : Word) : Bool := w &&& r.mask == r.matchBits

/-- A command's mnemonic in the opcode table (R91). -/
def Instr.mnemonic : Instr → String
  | .hash => "HASH"
  | .hmac => "HMAC"
  | .hotp _ => "HOTP"
  | .totp _ => "TOTP"

/-- The table's number for an instruction's bits, as the one 32-bit command word the host port carries (R90: there is one
command length, 32 bits; a number with a bit above bit 31 is no command word). -/
def tableWord (nbits w : Nat) : Option Word :=
  let bits := w % 2 ^ nbits
  if bits < 2 ^ 32 then some (BitVec.ofNat 32 bits) else none

/-- The instruction the decoder reads from a word numbered as spec/opcode_table.json numbers it. -/
def decodeTableWord (nbits w : Nat) : Option Instr :=
  match tableWord nbits w with
  | none => none
  | some word =>
    match decode word with
    | .legal i => some i
    | .illegal _ => none

end Sys2Proof
end

