-- ==== Sys2Proof/Machine/Bytes.lean ====
section
/-! DEFINITION. Rotation, byte order and byte sequences (00_scope.md rules R9 and R10; 20_memory.md rules R65 and R67: most
significant byte first everywhere). -/

namespace Sys2Proof.Machine

/-- `rotl(x, n)` for 0 < n < 32: bits leaving at the top re-enter at the bottom (R9). -/
def rotl (x : Word) (n : Nat) : Word := x <<< n ||| x >>> (32 - n)

/-- `be32` of four bytes, the first most significant (R10). -/
def be32 (b0 b1 b2 b3 : Byte) : Word := b0 ++ b1 ++ b2 ++ b3

/-- `be32` of the four bytes of a sequence from position k on (R10); positions past the end read as 0x00 (no rule reads
one). -/
def be32At (s : List Byte) (k : Nat) : Word :=
  be32 (s.getD k 0) (s.getD (k + 1) 0) (s.getD (k + 2) 0) (s.getD (k + 3) 0)

/-- Byte i (0 to 3) of `bytes_be(v, 4)`: bits `31 - 8 i` down to `24 - 8 i` of the word (R10, R65). -/
def wordByte (v : Word) (i : Nat) : Byte := v.extractLsb' (24 - 8 * i) 8

/-- `bytes_be(v, n)`: byte i is `floor(v / 2^(8 (n-1-i))) mod 256` (R10). -/
def bytesBE (v n : Nat) : List Byte :=
  (List.range n).map fun i => BitVec.ofNat 8 (v / 2 ^ (8 * (n - 1 - i)))

/-- `zeros(n)`: n bytes of 0x00 (R10). -/
def zeros (n : Nat) : List Byte := List.replicate n 0

/-- `X xor repeat(b, len X)`: a byte sequence XORed byte-wise with one byte (R10, R157). -/
def xorEach (s : List Byte) (b : Byte) : List Byte := s.map (· ^^^ b)

/-- A byte sequence of at most 64 bytes, zero-filled on the right to exactly 64 (R156, R161, R162). -/
def fill64 (s : List Byte) : Vector Byte 64 := Vector.ofFn fun j : Fin 64 => s.getD j.val 0

/-- `D20(H) = bytes_be(H[0], 4) ‖ … ‖ bytes_be(H[4], 4)` (41_sha1.md rules R134, R140). -/
def d20 (h : Vector Word 5) : Vector Byte 20 :=
  Vector.ofFn fun i : Fin 20 => wordByte (h[i.val / 4]'(by omega)) (i.val % 4)

/-- A 20-byte digest as five words, `DIGESTi = be32(TAG[4i..4i+4))` (10_state.md rule R27, R65). -/
def digestWords (tag : Vector Byte 20) : Vector Word 5 :=
  Vector.ofFn fun i : Fin 5 => be32At tag.toList (4 * i.val)

/-- The 12-byte string field as three words, `OTP_STRj = be32(TSTR[4j..4j+4))` (10_state.md rule R30, R65). -/
def stringWords (tstr : Vector Byte 12) : Vector Word 3 :=
  Vector.ofFn fun j : Fin 3 => be32At tstr.toList (4 * j.val)

end Sys2Proof.Machine
end

