-- ==== Sys2Proof/Config.lean ====
section
/-! DEFINITION. The parameters rule R6 of 00_scope.md lets a model name, and the one free value. -/

namespace Sys2Proof.Config

/-- KEY_CAP, the capacity of the KEY buffer in bytes (R6, decision D3). -/
def keyCap : Nat := 256

/-- MSG_CAP, the capacity of the MSG buffer in bytes (R6, decision D3). -/
def msgCap : Nat := 1024

/-- The 64-bit length field of the padding of a stream of 2^61 bytes or more, by its length: the spec defines SHA1 below
2^61 bytes only and says to assume neither a truncation nor an error (R7, 91_not_in_source.md N9), so nothing constrains
it. No stream the hardware forms (at most 1088 bytes, R142) reaches it. Log 7. -/
opaque overlongLengthField : Nat → Quad

end Sys2Proof.Config
end

