-- ==== Sys2Proof/Machine/State.lean ====
section
/-! DEFINITION. The state of simtotp CORE as plain data (10_state.md rule R20), the events of its environment (00_scope.md
rule R12), the address map's names (20_memory.md rule R61), the outcomes, and the state after reset (70_reset_and_hazards.md
rule R236). -/

namespace Sys2Proof.Machine

/-- Why a step could stop with a fault: never. "No case is treated as stuck: every state of the block has a defined next
step for every input" (93_implementation_defined.md section 1); a command that fails ends with an error code in STATUS and
a next state (60_exceptions.md rules R205, R212). Nothing raises it. -/
inductive Fault where
  deriving DecidableEq, Repr

/-- Why a command could be refused. -/
inductive Refusal where
  /-- Raised by an arm of `exec` whose instruction has no meaning yet (safe: the run stops). No arm of this model does. -/
  | notModelled (mnemonic : String)
  deriving DecidableEq, Repr

/-- The phases of the sequencer (10_state.md rule R40). -/
inductive Phase where
  | idle | keysel | init | load | round | add | passend | trunc | reduce | render | finish
  deriving DecidableEq, Repr

/-- The passes: one invocation of the hash engine inside a command (R40). -/
inductive Pass where
  | plain | keyhash | inner | outer
  deriving DecidableEq, Repr

/-- SEQ, what decides the next core step (R40). `blk`'s range 0..17 depends on the length registers and is an invariant
(log 13); `t`'s range is in its type. -/
structure Seq where
  phase : Phase
  pass  : Pass
  blk   : Nat
  t     : Fin 80
  deriving DecidableEq, Repr

/-- STATUS by its named fields (R22); the 32-bit word the host reads is `Status.word`. Reserved bits are never set and have
no field (log 16). -/
structure Status where
  busy    : Bool
  done    : Bool
  err     : Bool
  dv      : Bool
  cv      : Bool
  errCode : BitVec 4
  deriving DecidableEq, Repr

/-- The working registers A to E (R35). -/
structure Work where
  a : Word
  b : Word
  c : Word
  d : Word
  e : Word
  deriving DecidableEq, Repr

/-- The five errors a command can end with (60_exceptions.md rule R205). -/
inductive Err where
  /-- CLOCK: TOTP, the clock is unavailable or before the epoch (R206). -/
  | clock
  /-- DIGITS: HOTP or TOTP, DIG is 0 or 10 to 15 (R207). -/
  | digits
  /-- STEP_ZERO: TOTP, the step length is zero (R208). -/
  | stepZero
  /-- LENGTH: a length register the command uses exceeds its buffer's capacity (R209). -/
  | length
  /-- ILLEGAL_CMD: the word matches no command (R210). -/
  | illegalCmd
  deriving DecidableEq, Repr

/-- The host-visible registers of the address map (20_memory.md rule R61). -/
inductive HostReg where
  | cmd | status | keyLen | msgLen | ctrHi | ctrLo | stepHi | stepLo
  | digest (i : Fin 5)
  | trunc | code
  | otpStr (i : Fin 3)
  deriving DecidableEq, Repr

/-- What a word index of the address map names (R61): a register, a word of the KEY or MSG buffer (by its byte offset), or a
reserved word (R70). -/
inductive Target where
  | reg (r : HostReg)
  | buffer (offset : Nat)
  | reserved
  deriving DecidableEq, Repr

/-- What happens next at the block's inputs, one event a step (00_scope.md rule R12; log 1). -/
inductive Event where
  /-- `WR a, v`: h_sel = 1, h_we = 1 (R64). -/
  | write (a : WordIndex) (v : Word)
  /-- `RD a`: h_sel = 1, h_we = 0 (R63). -/
  | read (a : WordIndex)
  /-- No host access in this step: the core takes its step if it has one (R113). -/
  | quiet
  /-- `CLOCK ok, sec`: what t_ok and t_sec present from here on; not a host step (R99, R221). -/
  | clock (ok : Bool) (sec : Quad)
  /-- `WAIT`: read STATUS until BUSY = 0 (R99; D26, log 10). -/
  | wait
  /-- rst is asserted (R235). -/
  | reset
  deriving DecidableEq, Repr

/-- The state of the block (R20, groups (a) to (e)), and after it the model's own record of the block's inputs and output. -/
structure State where
  /-- CMD (R21). -/
  cmd    : Word
  /-- STATUS (R22). -/
  status : Status
  /-- KEY_LEN (R23). -/
  keyLen : Word
  /-- MSG_LEN (R24). -/
  msgLen : Word
  /-- CTR_HI (R25). -/
  ctrHi  : Word
  /-- CTR_LO (R25). -/
  ctrLo  : Word
  /-- STEP_HI (R26). -/
  stepHi : Word
  /-- STEP_LO (R26). -/
  stepLo : Word
  /-- DIGEST0 to DIGEST4 (R27). -/
  digest : Vector Word 5
  /-- TRUNC (R28). -/
  trunc  : Word
  /-- CODE (R29). -/
  code   : Word
  /-- OTP_STR0 to OTP_STR2 (R30). -/
  otpStr : Vector Word 3
  /-- The KEY buffer at byte offsets 0x100 to 0x1FF (R31) and the MSG buffer at 0x400 to 0x7FF (R32): the bytes that are not
  0x00, by rising byte offset (log 6). -/
  mem    : List Host.Cell
  /-- H0 to H4, the chaining state (R34). -/
  h      : Vector Word 5
  /-- A to E, the working registers (R35). -/
  work   : Work
  /-- W0 to W79, the message schedule (R36). -/
  w      : Vector Word 80
  /-- K0, the block-sized key (R37). -/
  k0     : Vector Byte 64
  /-- IDIG, the inner digest (R38). -/
  idig   : Vector Byte 20
  /-- TAG (R39). -/
  tag    : Vector Byte 20
  /-- TOFF (R39). -/
  toff   : BitVec 4
  /-- TVAL (R39). -/
  tval   : Word
  /-- TCODE (R39). -/
  tcode  : Word
  /-- TSTR (R39). -/
  tstr   : Vector Byte 12
  /-- SEQ = (PHASE, PASS, BLK, T) (R40). -/
  seq    : Seq
  /-- The model's own: the input t_ok as presented now (R42, R221; log 2). -/
  tOk    : Bool
  /-- The model's own: the input t_sec as presented now, two's complement (R42, R221; log 2). -/
  tSec   : Quad
  /-- The model's own: what the last host read drove on h_rdata (R62, R63; log 3). No rule reads it. -/
  rdata  : Option Word
  /-- The model's own: the events to come, the next one first (R12; log 1). -/
  pending : List Event
  deriving DecidableEq, Repr

/-- STATUS with every field 0 (R22, R110). -/
def Status.clear : Status := ⟨false, false, false, false, false, 0⟩

/-- SEQ at rest: (IDLE, PLAIN, 0, 0) (R40, R114). -/
def Seq.rest : Seq := ⟨.idle, .plain, 0, 0⟩

/-- The state right after reset (R236): everything the spec gives the block is 0 and the block is idle. The last four fields
are the model's own and no rule gives them a value (DESIGN CHOICE, log 1, log 2, log 3). -/
def State.reset : State where
  cmd := 0
  status := Status.clear
  keyLen := 0
  msgLen := 0
  ctrHi := 0
  ctrLo := 0
  stepHi := 0
  stepLo := 0
  digest := Vector.replicate 5 0
  trunc := 0
  code := 0
  otpStr := Vector.replicate 3 0
  mem := []
  h := Vector.replicate 5 0
  work := ⟨0, 0, 0, 0, 0⟩
  w := Vector.replicate 80 0
  k0 := Vector.replicate 64 0
  idig := Vector.replicate 20 0
  tag := Vector.replicate 20 0
  toff := 0
  tval := 0
  tcode := 0
  tstr := Vector.replicate 12 0
  seq := Seq.rest
  tOk := false
  tSec := 0
  rdata := none
  pending := []

end Sys2Proof.Machine
end

