-- ==== Sys2Proof/Machine/Flags.lean ====
section
/-! DEFINITION. STATUS: its word as the host reads it, the error codes, and the four ways its flags change (10_state.md rules
R22 and R33; 60_exceptions.md rules R205 and R212; 40_lifecycle.md rules R110 and R114). -/

namespace Sys2Proof.Machine

/-- STATUS as a 32-bit word: BUSY bit 0, DONE 1, ERR 2, DV 3, CV 4, bits 7:5 zero, ERRCODE bits 11:8, bits 31:12 zero
(R22). -/
def Status.word (f : Status) : Word :=
  0#20 ++ f.errCode ++ 0#3 ++ BitVec.ofBool f.cv ++ BitVec.ofBool f.dv ++ BitVec.ofBool f.err ++ BitVec.ofBool f.done
    ++ BitVec.ofBool f.busy

/-- The error codes (R205). -/
def Err.code : Err → BitVec 4
  | .clock => 1
  | .digits => 2
  | .stepZero => 3
  | .length => 4
  | .illegalCmd => 5

/-- `STATUS.ERRCODE <- code; STATUS.ERR <- 1; STATUS.DONE <- 1` (R212). -/
def Status.raised (f : Status) (e : Err) : Status := { f with errCode := e.code, err := true, done := true }

/-- `STATUS.BUSY <- 1` (R110). -/
def Status.started (f : Status) : Status := { f with busy := true }

/-- The FINISH step's flags: CV only for HOTP and TOTP; DV and DONE set; BUSY cleared (R114). -/
def Status.finished (f : Status) (otp : Bool) : Status :=
  { f with cv := f.cv || otp, dv := true, done := true, busy := false }

end Sys2Proof.Machine
end

