-- ==== Sys2Proof/Machine/Ops.lean ====
section
/-! DEFINITION. The named operations over the buffers and the registers, and the accept step with the raising of an error
(20_memory.md; 40_lifecycle.md rule R110; 60_exceptions.md rules R212 and R213). -/

namespace Sys2Proof.Machine

/-! ### The buffers -/

/-- Byte offset of the KEY buffer (R31, R61). -/
def keyBase : Nat := 0x100

/-- Byte offset of the MSG buffer (R32, R61). -/
def msgBase : Nat := 0x400

/-- The byte offsets at which a buffer byte exists: 0x100 to 0x1FF and 0x400 to 0x7FF (R31, R32, R61). -/
abbrev inBuffer (a : Nat) : Prop :=
  (keyBase ≤ a ∧ a < keyBase + Config.keyCap) ∨ (msgBase ≤ a ∧ a < msgBase + Config.msgCap)

/-- What a buffer byte nothing has written reads as: the spec's reset value, 0x00 (R31, R32, R236). -/
def unwritten : Byte := 0x00

/-- The byte at a byte offset. -/
def memGet : List Host.Cell → Nat → Byte
  | [], _ => unwritten
  | (k, b) :: rest, a => if k = a then b else memGet rest a

/-- Put a cell at its place in a rising list, in the place of an older cell of the same offset; a byte equal to what an
unlisted offset reads as is not listed. -/
def memSet : List Host.Cell → Nat → Byte → List Host.Cell
  | [], a, b => if b = unwritten then [] else [(a, b)]
  | (k, c) :: rest, a, b =>
    if k < a then (k, c) :: memSet rest a b
    else if k = a then (if b = unwritten then rest else (a, b) :: rest)
    else (if b = unwritten then (k, c) :: rest else (a, b) :: (k, c) :: rest)

/-- The canonical form: offsets strictly rising, no byte listed that an unlisted offset reads as, and only offsets at which a
buffer byte exists. -/
abbrev memWf (m : List Host.Cell) : Prop :=
  m.Pairwise (fun x y => x.1 < y.1) ∧ ∀ c ∈ m, c.2 ≠ unwritten ∧ inBuffer c.1

/-- `MemRead(addr, n)`: the n bytes at addr to addr + n - 1 in increasing offset (R66). -/
def memRead (m : List Host.Cell) (addr n : Nat) : List Byte :=
  (List.range n).map fun k => memGet m (addr + k)

/-- The word at a byte offset of a buffer: `be32` of its four bytes (R63, R65). -/
def memWord (m : List Host.Cell) (a : Nat) : Word :=
  be32 (memGet m a) (memGet m (a + 1)) (memGet m (a + 2)) (memGet m (a + 3))

/-- `MemWrite(a, 4, v)`: the four bytes at a to a + 3 take `bytes_be(v, 4)` (R64 case 4). -/
def memWriteWord (m : List Host.Cell) (a : Nat) (v : Word) : List Host.Cell :=
  memSet (memSet (memSet (memSet m a (wordByte v 0)) (a + 1) (wordByte v 1)) (a + 2) (wordByte v 2)) (a + 3) (wordByte v 3)

/-! ### The host-visible registers -/

/-- The address map (R61): what word index `a` (byte offset `4 a`) names. -/
def target (a : WordIndex) : Target :=
  match a.toNat with
  | 0 => .reg .cmd
  | 1 => .reg .status
  | 2 => .reg .keyLen
  | 3 => .reg .msgLen
  | 4 => .reg .ctrHi
  | 5 => .reg .ctrLo
  | 6 => .reg .stepHi
  | 7 => .reg .stepLo
  | 8 => .reg (.digest 0)
  | 9 => .reg (.digest 1)
  | 10 => .reg (.digest 2)
  | 11 => .reg (.digest 3)
  | 12 => .reg (.digest 4)
  | 13 => .reg .trunc
  | 14 => .reg .code
  | 16 => .reg (.otpStr 0)
  | 17 => .reg (.otpStr 1)
  | 18 => .reg (.otpStr 2)
  | n => if inBuffer (4 * n) then .buffer (4 * n) else .reserved

/-- The 32 bits a host-visible register reads as (R21 to R30). -/
def readReg (s : State) : HostReg → Word
  | .cmd => s.cmd
  | .status => s.status.word
  | .keyLen => s.keyLen
  | .msgLen => s.msgLen
  | .ctrHi => s.ctrHi
  | .ctrLo => s.ctrLo
  | .stepHi => s.stepHi
  | .stepLo => s.stepLo
  | .digest i => s.digest[i]
  | .trunc => s.trunc
  | .code => s.code
  | .otpStr j => s.otpStr[j]

/-- A write to an operand register stores all 32 bits; a write to a read-only register is ignored (R64 cases 3 and 5, R72).
CMD is not an operand: a write to it is the accept step (R64 case 2) and never comes here. -/
def writeReg (r : HostReg) (v : Word) (s : State) : State :=
  match r with
  | .keyLen => { s with keyLen := v }
  | .msgLen => { s with msgLen := v }
  | .ctrHi => { s with ctrHi := v }
  | .ctrLo => { s with ctrLo := v }
  | .stepHi => { s with stepHi := v }
  | .stepLo => { s with stepLo := v }
  | .cmd | .status | .digest _ | .trunc | .code | .otpStr _ => s

/-! ### The accept step -/

/-- The start of the accept step: CMD takes the word, STATUS and the result registers take 0 (R110, R111). It is also what
ends the record of an earlier error: there is no return from an error (R215). -/
def clearForAccept (word : Word) (s : State) : State :=
  { s with
    cmd := word, status := Status.clear, digest := Vector.replicate 5 0, trunc := 0, code := 0,
    otpStr := Vector.replicate 3 0 }

/-- `raise Err(code)`: the one way a command ends in an error; nothing is saved and control goes nowhere (R212). -/
def raise (e : Err) (s : State) : State := { s with status := s.status.raised e }

/-- `STATUS.BUSY <- 1; SEQ <- (phase, PLAIN, 0, 0)`: a command that passed its checks starts (R110). -/
def begin (phase : Phase) (s : State) : State :=
  { s with status := s.status.started, seq := ⟨phase, .plain, 0, 0⟩ }

/-- The first error of a list of tests in order, or none (R213: "the first that fails raises its error and the rest are not
made"). -/
def firstError : List (Bool × Err) → Option Err
  | [] => none
  | (fails, e) :: rest => if fails then some e else firstError rest

/-- The write of a command word: ignored while BUSY (R71); otherwise the accept step (R110): clear, check, and raise the
error or start. `check` and `start` see the cleared state. -/
def accept (word : Word) (check : State → Option Err) (start : State → State) (s : State) : State :=
  if s.status.busy then s
  else
    match check (clearForAccept word s) with
    | some e => raise e (clearForAccept word s)
    | none => start (clearForAccept word s)

/-- The write of a word that is no command: the accept step ends with ILLEGAL_CMD (R94, R210, R213 step 1). -/
def acceptIllegal (word : Word) (s : State) : State := accept word (fun _ => some .illegalCmd) id s

/-! ### Reset -/

/-- The reset event: everything the spec gives the block takes its reset value, from any state (R235 to R237). What the
environment presents is not the block's and stays. -/
def resetBlock (s : State) : State :=
  { State.reset with tOk := s.tOk, tSec := s.tSec, rdata := s.rdata, pending := s.pending }

end Sys2Proof.Machine
end

