-- ==== Sys2Proof/Machine/Operands.lean ====
section
/-! DEFINITION. The operands of the commands (30_encoding.md rule R96), the checks the accept step makes on them
(60_exceptions.md rules R206 to R209), and the stream a pass hashes: the block loader's one addressing mode (41_sha1.md rule
R135, 42_hmac.md rule R160). -/

namespace Sys2Proof.Machine

/-- The pad byte of the inner key pad (R6, R157). -/
def ipadByte : Byte := 0x36

/-- The pad byte of the outer key pad (R6, R157). -/
def opadByte : Byte := 0x5c

/-- OP of the running command, `CMD[3:0]` (R21). -/
def State.op (s : State) : BitVec 4 := opField s.cmd

/-- DIG of the running command, `CMD[7:4]` (R21, R92). -/
def State.dig (s : State) : Nat := (digField s.cmd).toNat

/-- The running command is HOTP or TOTP (R113, R114: OP is 3 or 4). -/
def State.isOtp (s : State) : Bool := s.op == 3 || s.op == 4

/-- `CTR = CTR_HI * 2^32 + CTR_LO` (R25). -/
def State.ctr (s : State) : Quad := s.ctrHi ++ s.ctrLo

/-- `STEP = STEP_HI * 2^32 + STEP_LO` (R26). -/
def State.step64 (s : State) : Quad := s.stepHi ++ s.stepLo

/-- The key or secret: `MemRead(0x100, KEY_LEN)` (R31, R66). -/
def State.key (s : State) : List Byte := memRead s.mem keyBase s.keyLen.toNat

/-- The message: `MemRead(0x400, MSG_LEN)` (R32, R66). -/
def State.msg (s : State) : List Byte := memRead s.mem msgBase s.msgLen.toNat

/-- `CTRBYTES(c) = bytes_be(c, 8)`, the serialised counter (43_otp.md rule R175). -/
def ctrBytes (c : Quad) : List Byte := bytesBE c.toNat 8

/-- MSEL, the message of the INNER pass: the message buffer for HMAC, the serialised counter for HOTP and TOTP (R160). Of an
OP that runs no INNER pass the rule says nothing and no run has one (log 11). -/
def State.msel (s : State) : List Byte := if s.op = 2 then s.msg else ctrBytes s.ctr

/-- STREAM, what the current pass hashes (R135, R160). -/
def State.stream (s : State) : List Byte :=
  match s.seq.pass with
  | .plain => s.msg
  | .keyhash => s.key
  | .inner => xorEach s.k0.toList ipadByte ++ s.msel
  | .outer => xorEach s.k0.toList opadByte ++ s.idig.toList

/-! ### The conditions of the checks -/

/-- `d < 1 or d > 9` (R207, R213). -/
def digitsBad (digits : BitVec 4) : Bool := decide (digits.toNat < 1 ∨ 9 < digits.toNat)

/-- `KEY_LEN > 256` (R209). -/
def State.keyTooLong (s : State) : Bool := decide (Config.keyCap < s.keyLen.toNat)

/-- `MSG_LEN > 1024` (R209). -/
def State.msgTooLong (s : State) : Bool := decide (Config.msgCap < s.msgLen.toNat)

/-- `STEP_HI = 0 and STEP_LO = 0` (R208). -/
def State.stepIsZero (s : State) : Bool := s.stepHi == 0 && s.stepLo == 0

/-- `t_ok = 0 or t_sec[63] = 1` (R206). -/
def State.clockBad (s : State) : Bool := !s.tOk || s.tSec.msb

end Sys2Proof.Machine
end

