-- ==== Sys2Proof/Machine/Sha1.lean ====
section
/-! DEFINITION. The SHA-1 hash engine: the function SHA1 (41_sha1.md rules R125 to R134), the core steps of a pass (R136 to
R140) and the command HASH (R141). -/

namespace Sys2Proof.Machine

/-! ### The function SHA1 -/

/-- IV, where the chaining state starts each hash (R126). -/
def iv : Vector Word 5 := #v[0x67452301, 0xEFCDAB89, 0x98BADCFE, 0x10325476, 0xC3D2E1F0]

/-- `NB(L) = floor((L + 8) / 64) + 1`, the number of blocks of a stream of L bytes (R127). -/
def numBlocks (len : Nat) : Nat := (len + 8) / 64 + 1

/-- The length field of the padding: `bytes_be(8 L, 8)` (R127), for the streams SHA1 is defined on (R7; log 7). -/
def lengthField (len : Nat) : List Byte :=
  if len < 2 ^ 61 then bytesBE (8 * len) 8 else bytesBE (Config.overlongLengthField len).toNat 8

/-- `PAD(S)`: the stream, 0x80, the fewest zero bytes, the length field; 64 NB(L) bytes in all (R127). -/
def pad (s : List Byte) : List Byte :=
  s ++ 0x80 :: zeros (64 * numBlocks s.length - 9 - s.length) ++ lengthField s.length

/-- The sixteen words of block b of a padded stream, `M[b][i] = be32(P[64 b + 4 i ..))` (R128). -/
def blockWords (p : List Byte) (b : Nat) : Vector Word 16 :=
  Vector.ofFn fun i : Fin 16 => be32At p (64 * b + 4 * i.val)

/-- The first 16 + n schedule words, each new one from those before it:
`W[t] = rotl(W[t-3] ^ W[t-8] ^ W[t-14] ^ W[t-16], 1)` (R129). -/
def expand (m : List Word) : Nat → List Word
  | 0 => m
  | n + 1 =>
    let w := expand m n
    let t := 16 + n
    w ++ [rotl (w.getD (t - 3) 0 ^^^ w.getD (t - 8) 0 ^^^ w.getD (t - 14) 0 ^^^ w.getD (t - 16) 0) 1]

theorem length_expand (m : List Word) (n : Nat) : (expand m n).length = m.length + n := by
  induction n with
  | zero => rfl
  | succ n ih => simp [expand, ih]; omega

/-- The message schedule, eighty words (R129). -/
def schedule (m : Vector Word 16) : Vector Word 80 :=
  ⟨(expand m.toList 64).toArray, by simp [length_expand]⟩

/-- The boolean function of round t: choose, parity, majority, parity by stage `floor(t / 20)` (R130). -/
def roundFn (t : Nat) (b c d : Word) : Word :=
  match t / 20 with
  | 0 => (b &&& c) ||| (~~~b &&& d)
  | 1 => b ^^^ c ^^^ d
  | 2 => (b &&& c) ||| (b &&& d) ||| (c &&& d)
  | _ => b ^^^ c ^^^ d

/-- `K(t)`, the additive constant of round t by stage (R131). -/
def roundConst (t : Nat) : Word :=
  match t / 20 with
  | 0 => 0x5A827999
  | 1 => 0x6ED9EBA1
  | 2 => 0x8F1BBCDC
  | _ => 0xCA62C1D6

/-- One round: TEMP and the shift of the working registers (R132). -/
def oneRound (t : Nat) (wt : Word) (r : Work) : Work where
  a := rotl r.a 5 + roundFn t r.b r.c r.d + r.e + wt + roundConst t
  b := r.a
  c := rotl r.b 30
  d := r.c
  e := r.d

/-- Rounds 0 to n - 1 in order (R133). -/
def rounds (w : Vector Word 80) : Nat → Work → Work
  | 0, r => r
  | n + 1, r => oneRound n (w.getD n 0) (rounds w n r)

/-- The working registers as a copy of the chaining state: `(A, B, C, D, E) = H` (R133, R137). -/
def workOf (h : Vector Word 5) : Work := ⟨h[0], h[1], h[2], h[3], h[4]⟩

/-- The word-wise addition of the working registers into the chaining state (R133, R139). -/
def addWork (h : Vector Word 5) (r : Work) : Vector Word 5 :=
  #v[h[0] + r.a, h[1] + r.b, h[2] + r.c, h[3] + r.d, h[4] + r.e]

/-- `COMPRESS(H, M)`, one compression (R133). -/
def compress (h : Vector Word 5) (m : Vector Word 16) : Vector Word 5 :=
  addWork h (rounds (schedule m) 80 (workOf h))

/-- `H_b`: the chaining state after b blocks of a padded stream (R134). -/
def chain (p : List Byte) : Nat → Vector Word 5
  | 0 => iv
  | b + 1 => compress (chain p b) (blockWords p b)

/-- `SHA1(S)`, 20 bytes (R125, R134). -/
def sha1 (s : List Byte) : Vector Byte 20 := d20 (chain (pad s) (numBlocks s.length))

/-! ### The core steps of a pass -/

/-- P, the padded stream of the current pass (R135). -/
def State.padded (s : State) : List Byte := pad s.stream

/-- NB, the number of blocks of the current pass's padded stream (R113, R135). -/
def State.nb (s : State) : Nat := numBlocks s.stream.length

/-- INIT (R136). -/
def stepInit (s : State) : State := { s with h := iv, seq := { s.seq with blk := 0, phase := .load } }

/-- LOAD: the block loader and the message scheduler (R137). -/
def stepLoad (s : State) : State :=
  { s with
    w := schedule (blockWords s.padded s.seq.blk), work := workOf s.h,
    seq := { s.seq with t := 0, phase := .round } }

/-- SEQ after a round: the next round, or ADD after round 79 (R113, R138). -/
def Seq.afterRound (q : Seq) : Seq :=
  if h : q.t.val < 79 then { q with t := ⟨q.t.val + 1, by omega⟩ } else { q with t := 0, phase := .add }

/-- ROUND (R138). -/
def stepRound (s : State) : State :=
  { s with work := oneRound s.seq.t.val s.w[s.seq.t] s.work, seq := s.seq.afterRound }

/-- SEQ after ADD: the next block, or the end of the pass (R113, R139). -/
def Seq.afterAdd (q : Seq) (nb : Nat) : Seq :=
  if q.blk + 1 < nb then { q with blk := q.blk + 1, phase := .load } else { q with phase := .passend }

/-- ADD (R139). -/
def stepAdd (s : State) : State := { s with h := addWork s.h s.work, seq := s.seq.afterAdd s.nb }

/-- PASSEND of the PLAIN pass (R140). -/
def stepPassendPlain (s : State) : State := { s with tag := d20 s.h, seq := { s.seq with phase := .finish } }

/-! ### The command HASH -/

/-- The check of HASH: LENGTH if `MSG_LEN > 1024` (R141, R213). -/
def hashCheck (s : State) : Option Err := firstError [(s.msgTooLong, .length)]

/-- HASH (R141): the write of its command word. The accept step checks MSG_LEN and starts the PLAIN pass; the core steps that
follow publish the digest. -/
def execHash (s : State) : Host.Outcome State Fault Refusal :=
  .next (accept (encode .hash) hashCheck (begin .init) s)

end Sys2Proof.Machine
end

