-- ==== Sys2Proof/Machine/Hmac.lean ====
section
/-! DEFINITION. The HMAC construction: the functions of 42_hmac.md rules R155 to R158, the core steps it adds to the hash
engine's (R161 to R164) and the command HMAC (R165). -/

namespace Sys2Proof.Machine

/-! ### The functions, generic in the block size (R155, R168) -/

/-- `NORMKEY(K, B)` (R156). For a longer key and B < 20 the source's definition cannot be carried out (R155, N10): no
value (log 8). -/
def normKey (blockSize : Nat) (key : List Byte) : Option (List Byte) :=
  if key.length ≤ blockSize then some (key ++ zeros (blockSize - key.length))
  else if 20 ≤ blockSize then some ((sha1 key).toList ++ zeros (blockSize - 20))
  else none

/-- `SHA1(outerKeyPad ‖ SHA1(innerKeyPad ‖ M))` from the normalised key (R157, R158). -/
def hmacOfNormKey (nk msg : List Byte) : Vector Byte 20 :=
  sha1 (xorEach nk opadByte ++ (sha1 (xorEach nk ipadByte ++ msg)).toList)

/-- `HMAC(K, M, B)` (R155, R158). -/
def hmac (blockSize : Nat) (key msg : List Byte) : Option (Vector Byte 20) :=
  (normKey blockSize key).map fun nk => hmacOfNormKey nk msg

/-! ### At the hardware's block size, 64 (R159) -/

/-- `NORMKEY(K, 64)` as the 64-byte register K0 holds it (R37, R156). -/
def normKey64 (key : List Byte) : Vector Byte 64 := fill64 (if 64 < key.length then (sha1 key).toList else key)

/-- `HMAC(K, M, 64)`, what the hardware computes (R159). -/
def hmac64 (key msg : List Byte) : Vector Byte 20 := hmacOfNormKey (normKey64 key).toList msg

/-! ### The core steps -/

/-- KEYSEL for a key longer than 64 bytes: it is hashed first (R161). -/
def stepKeyselLong (s : State) : State := { s with seq := { s.seq with pass := .keyhash, phase := .init } }

/-- KEYSEL for a key of at most 64 bytes: K0 takes its bytes and zeros (R161). -/
def stepKeyselShort (s : State) : State :=
  { s with k0 := fill64 s.key, seq := { s.seq with pass := .inner, phase := .init } }

/-- KEYSEL: the key-length comparison and the key-padding multiplexer (R161). -/
def stepKeysel (s : State) : State := if 64 < s.keyLen.toNat then stepKeyselLong s else stepKeyselShort s

/-- PASSEND of the KEYHASH pass: K0 takes the hash of the key and zeros (R162). -/
def stepPassendKeyhash (s : State) : State :=
  { s with k0 := fill64 (d20 s.h).toList, seq := { s.seq with pass := .inner, phase := .init } }

/-- PASSEND of the INNER pass: IDIG takes the inner digest (R163). -/
def stepPassendInner (s : State) : State :=
  { s with idig := d20 s.h, seq := { s.seq with pass := .outer, phase := .init } }

/-- PASSEND of the OUTER pass: TAG takes the HMAC tag; HOTP and TOTP go on to TRUNC, HMAC to FINISH (R164). -/
def stepPassendOuter (s : State) : State :=
  { s with tag := d20 s.h, seq := { s.seq with phase := if s.isOtp then .trunc else .finish } }

/-- PASSEND, by the pass that ends (R113). -/
def stepPassend (s : State) : State :=
  match s.seq.pass with
  | .plain => stepPassendPlain s
  | .keyhash => stepPassendKeyhash s
  | .inner => stepPassendInner s
  | .outer => stepPassendOuter s

/-! ### The command HMAC -/

/-- The check of HMAC: LENGTH if `KEY_LEN > 256` or `MSG_LEN > 1024` (R165, R213). -/
def hmacCheck (s : State) : Option Err := firstError [(s.keyTooLong, .length), (s.msgTooLong, .length)]

/-- HMAC (R165): the write of its command word. The accept step checks the lengths and starts at KEYSEL. -/
def execHmac (s : State) : Host.Outcome State Fault Refusal :=
  .next (accept (encode .hmac) hmacCheck (begin .keysel) s)

end Sys2Proof.Machine
end

