-- ==== Sys2Proof/Machine/Otp.lean ====
section
/-! DEFINITION. The OTP derivation: time counter, dynamic truncation, reduction and rendering (43_otp.md rules R175 to R181),
their core steps (R182 to R184), the FINISH step (40_lifecycle.md rule R114) and the commands HOTP and TOTP (R185, R186). -/

namespace Sys2Proof.Machine

/-! ### The functions -/

/-- `TOTPCTR(t, s) = floor(t / s)` (R176). -/
def totpCtr (t s : Nat) : Nat := t / s

/-- The offset of DT: the low nibble of byte 19 of the tag (R177). -/
def dtOffset (tag : Vector Byte 20) : BitVec 4 := tag[19].setWidth 4

/-- The value of DT: the four bytes at the offset, most significant first, the first one's top bit masked (R178). The window
lies in the tag by the offset's width (R188). -/
def dtValue (tag : Vector Byte 20) : Word :=
  let o := dtOffset tag
  BitVec.ofNat 32
    ((tag[o.toNat]'(by omega) &&& 0x7F).toNat * 2 ^ 24 + (tag[o.toNat + 1]'(by omega)).toNat * 2 ^ 16
      + (tag[o.toNat + 2]'(by omega)).toNat * 2 ^ 8 + (tag[o.toNat + 3]'(by omega)).toNat)

/-- `code = value mod 10^digits` (R179). -/
def reduceCode (value : Word) (digits : Nat) : Word := BitVec.ofNat 32 (value.toNat % 10 ^ digits)

/-- `RENDER(code, digits)`: byte i is `0x30 + (floor(code / 10^(digits-1-i)) mod 10)` (R180). -/
def render (code digits : Nat) : List Byte :=
  (List.range digits).map fun i => BitVec.ofNat 8 (0x30 + code / 10 ^ (digits - 1 - i) % 10)

/-- The 12-byte field of a string: `RENDER(code, digits) ‖ zeros(12 - digits)` (R30, R115, R184). -/
def renderField (code digits : Nat) : Vector Byte 12 := Vector.ofFn fun i : Fin 12 => (render code digits).getD i.val 0

/-- The tag of HOTPCODE: `HMAC(secret, CTRBYTES(c), 64)` (R181). -/
def hotpTag (secret : List Byte) (c : Quad) : Vector Byte 20 := hmac64 secret (ctrBytes c)

/-- The code of HOTPCODE (R181). -/
def hotpCode (secret : List Byte) (c : Quad) (digits : Nat) : Word := reduceCode (dtValue (hotpTag secret c)) digits

/-! ### The core steps after the OUTER pass -/

/-- TRUNC (R182). -/
def stepTrunc (s : State) : State :=
  { s with toff := dtOffset s.tag, tval := dtValue s.tag, seq := { s.seq with phase := .reduce } }

/-- REDUCE (R183). -/
def stepReduce (s : State) : State :=
  { s with tcode := reduceCode s.tval s.dig, seq := { s.seq with phase := .render } }

/-- RENDER (R184). -/
def stepRender (s : State) : State :=
  { s with tstr := renderField s.tcode.toNat s.dig, seq := { s.seq with phase := .finish } }

/-- FINISH: the one step that publishes results (R114). The hidden registers keep their values (R246, log 9). -/
def stepFinish (s : State) : State :=
  { s with
    digest := digestWords s.tag
    trunc := if s.isOtp then s.tval else s.trunc
    code := if s.isOtp then s.tcode else s.code
    otpStr := if s.isOtp then stringWords s.tstr else s.otpStr
    status := s.status.finished s.isOtp
    seq := Seq.rest }

/-! ### The commands -/

/-- The check of HOTP: DIGITS, then LENGTH (R185, R213). -/
def hotpCheck (digits : BitVec 4) (s : State) : Option Err :=
  firstError [(digitsBad digits, .digits), (s.keyTooLong, .length)]

/-- HOTP (R185): the write of its command word. The accept step checks DIG and KEY_LEN and starts at KEYSEL. -/
def execHotp (digits : BitVec 4) (s : State) : Host.Outcome State Fault Refusal :=
  .next (accept (encode (.hotp digits)) (hotpCheck digits) (begin .keysel) s)

/-- The check of TOTP: DIGITS, LENGTH, STEP_ZERO, CLOCK (R186, R213). -/
def totpCheck (digits : BitVec 4) (s : State) : Option Err :=
  firstError
    [(digitsBad digits, .digits), (s.keyTooLong, .length), (s.stepIsZero, .stepZero), (s.clockBad, .clock)]

/-- `CTR_HI, CTR_LO <- floor(t_sec / STEP)` (R110, R176): the one reading of the clock. -/
def latchCounter (s : State) : State :=
  let c : Quad := BitVec.ofNat 64 (totpCtr s.tSec.toNat s.step64.toNat)
  { s with ctrHi := c.extractLsb' 32 32, ctrLo := c.extractLsb' 0 32 }

/-- TOTP (R186): the write of its command word. The accept step checks DIG, KEY_LEN, STEP and the clock, latches the counter
and starts at KEYSEL. -/
def execTotp (digits : BitVec 4) (s : State) : Host.Outcome State Fault Refusal :=
  .next (accept (encode (.totp digits)) (totpCheck digits) (fun u => begin .keysel (latchCounter u)) s)

end Sys2Proof.Machine
end

