-- ==== Sys2Proof/Machine/Dispatch.lean ====
section
/-! DEFINITION. exec: one arm per command (30_encoding.md rule R91), each the write of its command word (40_lifecycle.md rule
R110). -/

namespace Sys2Proof.Machine

def exec (i : Instr) (s : State) : Host.Outcome State Fault Refusal :=
  match i with
  | .hash => Sys2Proof.Machine.execHash s
  | .hmac => Sys2Proof.Machine.execHmac s
  | .hotp digits => Sys2Proof.Machine.execHotp digits s
  | .totp digits => Sys2Proof.Machine.execTotp digits s

end Sys2Proof.Machine
end

