-- ==== Sys2Proof/Machine/Sequencer.lean ====
section
/-! DEFINITION. The core step: the sequencer's table of transitions (40_lifecycle.md rule R113). -/

namespace Sys2Proof.Machine

/-- The core step named by PHASE (R113). With PHASE = IDLE no core step is enabled: the block stays as it is (R219). -/
def coreStep (s : State) : State :=
  match s.seq.phase with
  | .idle => s
  | .keysel => stepKeysel s
  | .init => stepInit s
  | .load => stepLoad s
  | .round => stepRound s
  | .add => stepAdd s
  | .passend => stepPassend s
  | .trunc => stepTrunc s
  | .reduce => stepReduce s
  | .render => stepRender s
  | .finish => stepFinish s

end Sys2Proof.Machine
end

