-- ==== Sys2Proof/Machine/HostPort.lean ====
section
/-! DEFINITION. The host port's two steps (20_memory.md rules R63 and R64) and what each event does. -/

namespace Sys2Proof.Machine

/-- The word a host read of word index a returns (R63): a register, a buffer word, or 0 for a reserved word (R70). -/
def readWord (a : WordIndex) (s : State) : Word :=
  match target a with
  | .reg r => readReg s r
  | .buffer offset => memWord s.mem offset
  | .reserved => 0

/-- Host read: it drives h_rdata and changes nothing else (R63, R248). -/
def hostRead (a : WordIndex) (s : State) : State := { s with rdata := some (readWord a s) }

/-- A write of CMD: decode the word (R93) and run the command, or end with ILLEGAL_CMD (R94, R110). -/
def writeCmd (v : Word) (s : State) : Host.Outcome State Fault Refusal :=
  match decode v with
  | .legal i => exec i s
  | .illegal _ => .next (acceptIllegal v s)

/-- Host write, by R64's cases: ignored while BUSY (R71); CMD is the accept step; an operand register takes the word; a buffer
word takes its four bytes; a read-only register or a reserved word ignores it (R70, R72). -/
def hostWrite (a : WordIndex) (v : Word) (s : State) : Host.Outcome State Fault Refusal :=
  if s.status.busy then .next s
  else
    match target a with
    | .reg .cmd => writeCmd v s
    | .reg r => .next (writeReg r v s)
    | .buffer offset => .next { s with mem := memWriteWord s.mem offset v }
    | .reserved => .next s

/-- What `WAIT` reads: STATUS, word index 1 (R99). -/
def statusIndex : WordIndex := 1

/-- CMD's word index (R21, R61). -/
def cmdIndex : WordIndex := 0

/-- One event (R12, R113, R235; log 1). `WAIT` gives the core its step while BUSY, staying the next event, and then is one
read of STATUS (R99, D26; log 10). -/
def runEvent (e : Event) (s : State) : Host.Outcome State Fault Refusal :=
  match e with
  | .write a v => hostWrite a v s
  | .read a => .next (hostRead a s)
  | .quiet => .next (coreStep s)
  | .clock ok sec => .next { s with tOk := ok, tSec := sec }
  | .wait =>
    if s.status.busy then .next { coreStep s with pending := .wait :: s.pending } else .next (hostRead statusIndex s)
  | .reset => .next (resetBlock s)

/-- The write of a command word as the next event, before those already pending. -/
def commandEvent (word : Word) : Event := .write cmdIndex word

end Sys2Proof.Machine
end

