-- ==== Sys2Proof/Machine/Step.lean ====
section
/-! DEFINITION. One step of the machine (00_scope.md rule R12), and the placing of a command word where the next step finds
it. -/

namespace Sys2Proof.Machine

/-- One step: the next pending event, or with none the core's own step (R12, R113, R250; log 1, log 14). -/
def step (s : State) : Host.Outcome State Fault Refusal :=
  match s.pending with
  | [] => .next (coreStep s)
  | e :: rest => runEvent e { s with pending := rest }

/-- The block fetches no instruction; its one "fetch" is the latching of the word a host writes to CMD (R76). So the word is
placed as the host's next access (log 5). -/
def State.withFetchWord (s : State) (nbits w : Nat) : State :=
  { s with pending := commandEvent (BitVec.ofNat 32 (w % 2 ^ nbits)) :: s.pending }

end Sys2Proof.Machine
end

