-- ==== Sys2Proof/Machine/HostProgram.lean ====
section
/-! DEFINITION. The host-program notation (30_encoding.md rules R97 to R100): each line as the events it stands for, the source's
entry points as programs, and how a host carries a program out and what it answers. -/

namespace Sys2Proof.Machine

/-- `RD a` at a byte offset: the access h_addr = a / 4 (R97). -/
def rdLine (offset : Nat) : List Event := [.read (BitVec.ofNat 9 (offset / 4))]

/-- `WR a, v` at a byte offset (R97). -/
def wrLine (offset : Nat) (v : Word) : List Event := [.write (BitVec.ofNat 9 (offset / 4)) v]

/-- A command mnemonic: the write of its word to CMD (R98). -/
def commandLine (i : Instr) : List Event := wrLine 0x000 (encode i)

/-- The word writes of a byte sequence from a byte offset on, the last word filled with zero bytes (R99). -/
def loadWords (base : Nat) (s : List Byte) : List Event :=
  (List.range ((s.length + 3) / 4)).flatMap fun j => wrLine (base + 4 * j) (be32At s (4 * j))

/-- `LOADKEY S`, for at most 256 bytes (R99). -/
def loadKeyLine (s : List Byte) : List Event := loadWords keyBase s ++ wrLine 0x008 (BitVec.ofNat 32 s.length)

/-- `LOADMSG S`, for at most 1024 bytes (R99). -/
def loadMsgLine (s : List Byte) : List Event := loadWords msgBase s ++ wrLine 0x00C (BitVec.ofNat 32 s.length)

/-- `SETCTR c` (R99). -/
def setCtrLine (c : Quad) : List Event := wrLine 0x010 (c.extractLsb' 32 32) ++ wrLine 0x014 (c.extractLsb' 0 32)

/-- `SETSTEP s` (R99). -/
def setStepLine (s : Quad) : List Event := wrLine 0x018 (s.extractLsb' 32 32) ++ wrLine 0x01C (s.extractLsb' 0 32)

/-- `WAIT` (R99). -/
def waitLine : List Event := [.wait]

/-- `CLOCK ok, sec` (R99). -/
def clockLine (ok : Bool) (sec : Quad) : List Event := [.clock ok sec]

/-- The reads of DIGEST0 to DIGEST4 (R27, R100). -/
def readDigestLines : List Event := (List.range 5).flatMap fun i => rdLine (0x020 + 4 * i)

/-- The read of CODE (R29, R100). -/
def readCodeLine : List Event := rdLine 0x038

/-- The reads of OTP_STR0 to OTP_STR2 (R30, R100). -/
def readOtpStrLines : List Event := (List.range 3).flatMap fun j => rdLine (0x040 + 4 * j)

/-! ### The source's entry points (R100) -/

/-- `hash(S)`. -/
def hashProgram (s : List Byte) : List Event := loadMsgLine s ++ commandLine .hash ++ waitLine ++ readDigestLines

/-- `hmac(K, M, 64)`. -/
def hmacProgram (key msg : List Byte) : List Event :=
  loadKeyLine key ++ loadMsgLine msg ++ commandLine .hmac ++ waitLine ++ readDigestLines

/-- The HOTP of the source's tests. -/
def hotpProgram (secret : List Byte) (c : Quad) (digits : BitVec 4) : List Event :=
  loadKeyLine secret ++ setCtrLine c ++ commandLine (.hotp digits) ++ waitLine ++ readCodeLine

/-- `generateTotp(secret, digits, stepSeconds)` up to and with WAIT; what follows depends on the STATUS value read. -/
def totpProgram (secret : List Byte) (digits : BitVec 4) (stepSeconds : Quad) : List Event :=
  loadKeyLine secret ++ setStepLine stepSeconds ++ commandLine (.totp digits) ++ waitLine

/-- What the host does after the WAIT of `generateTotp` (R100). -/
inductive AfterWait where
  /-- ERR = 0: it reads the result. -/
  | readResult
  /-- ERR = 1 and ERRCODE = 1: the result is `ClockError`. -/
  | clockError
  /-- Any other error: R100 names no result; its class is `ContractViolation` (60_exceptions.md rule R205). -/
  | contractViolation
  deriving DecidableEq, Repr

/-- The host's choice by the STATUS value read: ERR is bit 2, ERRCODE bits 11:8 (R22, R100). -/
def afterWait (status : Word) : AfterWait :=
  if status.getLsbD 2 = false then .readResult
  else if status.extractLsb' 8 4 = 1 then .clockError
  else .contractViolation

/-! ### Carrying a program out -/

/-- What a step from s to t returned to the host, written after `->` in the notation: the value of a read, or the last value of
WAIT (R97, R99). -/
def valueRead (s t : State) : Option Word :=
  match s.pending with
  | .read _ :: _ => t.rdata
  | .wait :: _ => if s.status.busy then none else t.rdata
  | _ => none

/-- The pending events carried out to the last, with the values read in their order; none if the fuel does not suffice. -/
def hostRun : Nat → State → Option (State × List Word)
  | 0, s => if s.pending = [] then some (s, []) else none
  | n + 1, s =>
    if s.pending = [] then some (s, [])
    else
      match step s with
      | .next t => (hostRun n t).map fun r => (r.1, (valueRead s t).toList ++ r.2)
      | .fault _ => none
      | .refused _ => none

/-- A host carries a program out from a state. -/
def runProgram (fuel : Nat) (program : List Event) (s : State) : Option (State × List Word) :=
  hostRun fuel { s with pending := program }

/-- A program with any number of core steps between its lines (R97). -/
def Interleaves (program events : List Event) : Prop := events.filter (fun e => !(e == .quiet)) = program

/-- What `generateTotp` answers (R100): the words read, or an error. -/
inductive TotpAnswer where
  | words (values : List Word)
  | clockError
  | contractViolation
  deriving DecidableEq, Repr

/-- `generateTotp`, its lines up to WAIT given as events and the reads of its result as `resultReads` (OTP_STR0 to OTP_STR2, or
CODE): by the STATUS value read last the host reads the result or answers the error (R100). -/
def totpOutcome (fuel : Nat) (events resultReads : List Event) (s : State) : Option (State × TotpAnswer) :=
  (runProgram fuel events s).bind fun r =>
    match r.2.getLast?.map afterWait with
    | some .readResult => (runProgram fuel resultReads r.1).map fun q => (q.1, .words q.2)
    | some .clockError => some (r.1, .clockError)
    | some .contractViolation => some (r.1, .contractViolation)
    | none => none

/-- `generateTotp(secret, digits, stepSeconds)` with the string as its result (R100). -/
def generateTotp (fuel : Nat) (secret : List Byte) (digits : BitVec 4) (stepSeconds : Quad) (s : State) :
    Option (State × TotpAnswer) :=
  totpOutcome fuel (totpProgram secret digits stepSeconds) readOtpStrLines s

/-- The `DecimalString` in the words of OTP_STR0 to OTP_STR2: the first `digits` characters, in order (R30, R65). -/
def decimalString (digits : Nat) (values : List Word) : List Byte :=
  (values.flatMap fun v => [wordByte v 0, wordByte v 1, wordByte v 2, wordByte v 3]).take digits

end Sys2Proof.Machine
end

