-- ==== Sys2Proof/Safety.lean ====
section
/-! DEFINITION. The words the statements use: the invariants of the machine (10_state.md rules R22, R33, R40; 43_otp.md rule
R188; 70_reset_and_hazards.md rule R245), the frame of a command (40_lifecycle.md rule R112) and the step counts of rule
R115. -/

namespace Sys2Proof.Machine

/-! ### Frames -/

/-- What no command and no core step writes (R112): the lengths, STEP and every byte of the two buffers. -/
structure InputsKept (s t : State) : Prop where
  keyLen : t.keyLen = s.keyLen
  msgLen : t.msgLen = s.msgLen
  stepHi : t.stepHi = s.stepHi
  stepLo : t.stepLo = s.stepLo
  bytes  : ∀ a, memGet t.mem a = memGet s.mem a

/-- CTR_HI and CTR_LO are as before. -/
def CtrKept (s t : State) : Prop := t.ctrHi = s.ctrHi ∧ t.ctrLo = s.ctrLo

/-- The two states agree on everything the spec gives the block (R20); they may differ in the model's own record of the
block's inputs and output. -/
def SameBlock (s t : State) : Prop :=
  t = { s with tOk := t.tOk, tSec := t.tSec, rdata := t.rdata, pending := t.pending }

/-- The OTP result registers hold nothing (R28, R29, R30). -/
def OtpCleared (t : State) : Prop := t.trunc = 0 ∧ t.code = 0 ∧ t.otpStr = Vector.replicate 3 0

/-- A state after an accept step that raised an error (R110, R212): CMD holds the word, STATUS has DONE, ERR and the code and
nothing else, the results are 0; everything else is as it was. -/
def errorState (word : Word) (code : BitVec 4) (s : State) : State :=
  { s with
    cmd := word
    status := { busy := false, done := true, err := true, dv := false, cv := false, errCode := code }
    digest := Vector.replicate 5 0
    trunc := 0
    code := 0
    otpStr := Vector.replicate 3 0 }

/-- A state after an accept step that started a command (R110): as `errorState`, but BUSY alone is set in STATUS and SEQ is at
the command's first phase. -/
def startedState (word : Word) (phase : Phase) (s : State) : State :=
  { s with
    cmd := word
    status := { busy := true, done := false, err := false, dv := false, cv := false, errCode := 0 }
    digest := Vector.replicate 5 0
    trunc := 0
    code := 0
    otpStr := Vector.replicate 3 0
    seq := { phase := phase, pass := .plain, blk := 0, t := 0 } }

/-! ### Invariants -/

/-- The only values STATUS ever takes (R22). -/
def statusValues : List Word := [0x000, 0x001, 0x00A, 0x01A, 0x106, 0x206, 0x306, 0x406, 0x506]

/-- STATUS agrees with the sequencer and with itself (R22, R33). -/
structure StatusInv (s : State) : Prop where
  busy_iff : s.status.busy = true ↔ s.seq.phase ≠ .idle
  err_iff  : s.status.err = true ↔ s.status.errCode ≠ 0
  values   : s.status.word ∈ statusValues

/-- The ranges of SEQ (R40): at rest it is (IDLE, PLAIN, 0, 0), T is 0 but in the rounds, BLK is at most 17. -/
structure SequencerInv (s : State) : Prop where
  rest  : s.seq.phase = .idle → s.seq = Seq.rest
  t     : s.seq.phase ≠ .round → s.seq.t = 0
  block : s.seq.blk ≤ 17

/-- The running command's operands passed the accept checks (R213, R214). -/
def OperandsLegal (s : State) : Prop :=
  (s.op = 1 ∧ s.msgLen.toNat ≤ 1024) ∨ (s.op = 2 ∧ s.keyLen.toNat ≤ 256 ∧ s.msgLen.toNat ≤ 1024) ∨
    ((s.op = 3 ∨ s.op = 4) ∧ s.keyLen.toNat ≤ 256 ∧ 1 ≤ s.dig ∧ s.dig ≤ 9)

/-- What the registers a pass reads hold while it runs (R143, R161 to R163, R245). -/
def PassReady (s : State) : Prop :=
  match s.seq.pass with
  | .plain => s.op = 1
  | .keyhash => s.op ≠ 1 ∧ 64 < s.keyLen.toNat
  | .inner => s.op ≠ 1 ∧ s.k0 = normKey64 s.key
  | .outer =>
    s.op ≠ 1 ∧ s.k0 = normKey64 s.key ∧ s.idig = sha1 (xorEach (normKey64 s.key).toList ipadByte ++ s.msel)

/-- The digest or tag the running command is to publish, from its operands alone (R115). -/
def State.commandTag (s : State) : Vector Byte 20 := if s.op = 1 then sha1 s.msg else hmac64 s.key s.msel

/-- What the engine's registers hold before the core step of each phase: the value the functions of the spec give of the
frozen operands (R115, R134, R139, R245). -/
def EngineAt (s : State) : Phase → Prop
  | .idle => True
  | .keysel => s.op ≠ 1
  | .init => PassReady s
  | .load => PassReady s ∧ s.seq.blk < s.nb ∧ s.h = chain s.padded s.seq.blk
  | .round =>
    PassReady s ∧ s.seq.blk < s.nb ∧ s.h = chain s.padded s.seq.blk ∧
      s.w = schedule (blockWords s.padded s.seq.blk) ∧ s.work = rounds s.w s.seq.t.val (workOf s.h)
  | .add =>
    PassReady s ∧ s.seq.blk < s.nb ∧ s.h = chain s.padded s.seq.blk ∧
      s.work = rounds (schedule (blockWords s.padded s.seq.blk)) 80 (workOf s.h)
  | .passend => PassReady s ∧ s.h = chain s.padded s.nb
  | .trunc => s.isOtp = true ∧ s.tag = s.commandTag
  | .reduce => s.isOtp = true ∧ s.tag = s.commandTag ∧ s.tval = dtValue s.tag
  | .render =>
    s.isOtp = true ∧ s.tag = s.commandTag ∧ s.tval = dtValue s.tag ∧ s.tcode = reduceCode s.tval s.dig
  | .finish =>
    s.tag = s.commandTag ∧
      (s.isOtp = true →
        s.tval = dtValue s.tag ∧ s.tcode = reduceCode s.tval s.dig ∧ s.tstr = renderField s.tcode.toNat s.dig)

/-- A running command's operands are legal and its registers hold what the functions give (R115, R214, R245). -/
structure EngineInv (s : State) : Prop where
  operands : s.seq.phase ≠ .idle → OperandsLegal s
  engine   : EngineAt s s.seq.phase

/-- The result registers are 0 unless their valid flag is set, and valid OTP results agree with each other (R27 to R30, R188,
R241). -/
structure ResultInv (s : State) : Prop where
  digest_cleared : s.status.dv = false → s.digest = Vector.replicate 5 0
  otp_cleared    : s.status.cv = false → OtpCleared s
  trunc_range    : s.trunc.toNat < 2 ^ 31
  otp_valid      : s.status.cv = true →
    (1 ≤ s.dig ∧ s.dig ≤ 9) ∧ s.code.toNat < 10 ^ s.dig ∧ s.code.toNat = s.trunc.toNat % 10 ^ s.dig ∧
      s.otpStr = stringWords (renderField s.code.toNat s.dig)

/-! ### The serialised counter -/

/-- The eight bytes of a 64-bit counter, most significant first (R175). -/
def CounterBytes (bytes : List Byte) (c : Nat) : Prop :=
  bytes.length = 8 ∧ ∀ i, i < 8 → (bytes.getD i 0).toNat = c / 2 ^ (8 * (7 - i)) % 256

/-! ### Step counts (R115): numbers of steps of the sequencer, not of clock cycles -/

/-- The core steps of one pass of nb blocks: INIT, then LOAD, 80 ROUND and ADD per block, then PASSEND. -/
def passSteps (nb : Nat) : Nat := 2 + 82 * nb

/-- From the accept step of HASH to idle. -/
def hashSteps (s : State) : Nat := passSteps (numBlocks s.msgLen.toNat) + 1

/-- The KEYHASH pass, run only for a key longer than 64 bytes. -/
def keyhashSteps (s : State) : Nat := if 64 < s.keyLen.toNat then passSteps (numBlocks s.keyLen.toNat) else 0

/-- From the accept step of HMAC to idle. -/
def hmacSteps (s : State) : Nat :=
  1 + keyhashSteps s + passSteps (numBlocks (64 + s.msgLen.toNat)) + passSteps 2 + 1

/-- From the accept step of HOTP or TOTP to idle. -/
def otpSteps (s : State) : Nat := 1 + keyhashSteps s + passSteps 2 + passSteps 2 + 3 + 1

/-! ### Runs -/

/-- n steps of the machine from s end in u. -/
def RunsTo (n : Nat) (s u : State) : Prop := Host.Core.run Sys2Proof.core n s = .next u

/-- A run that ends after n steps and no earlier: n steps from s end in u, which is not busy, and the block is busy before each
of them. -/
def EndsAfter (n : Nat) (s u : State) : Prop :=
  RunsTo n s u ∧ u.status.busy = false ∧ ∀ k < n, ∃ v, RunsTo k s v ∧ v.status.busy = true

/-- The next step is the core's own: nothing is pending, or no host access comes, or WAIT finds the block busy. -/
def CoreStepNext (s : State) : Prop :=
  s.pending.head? = none ∨ s.pending.head? = some .quiet ∨ (s.pending.head? = some .wait ∧ s.status.busy = true)

/-- The next event is not a reset. -/
def NoResetNext (s : State) : Prop := s.pending.head? ≠ some .reset

/-- The two states give the command the same operands, those of R96 and no others (R117): the lengths it uses, the bytes up
to them, and for HOTP CTR, for TOTP STEP and the clock. -/
def SameOperands : Instr → State → State → Prop
  | .hash, s, t => t.msgLen = s.msgLen ∧ t.msg = s.msg
  | .hmac, s, t => t.keyLen = s.keyLen ∧ t.key = s.key ∧ t.msgLen = s.msgLen ∧ t.msg = s.msg
  | .hotp _, s, t => t.keyLen = s.keyLen ∧ t.key = s.key ∧ t.ctr = s.ctr
  | .totp _, s, t => t.keyLen = s.keyLen ∧ t.key = s.key ∧ t.step64 = s.step64 ∧ t.tOk = s.tOk ∧ t.tSec = s.tSec

/-- The two states publish the same: STATUS and every result register. -/
structure SameResults (s t : State) : Prop where
  status : t.status = s.status
  digest : t.digest = s.digest
  trunc  : t.trunc = s.trunc
  code   : t.code = s.code
  otpStr : t.otpStr = s.otpStr

/-- Each result register is as it was or is cleared. -/
structure ResultsKeptOrCleared (s t : State) : Prop where
  digest : t.digest = s.digest ∨ t.digest = Vector.replicate 5 0
  trunc  : t.trunc = s.trunc ∨ t.trunc = 0
  code   : t.code = s.code ∨ t.code = 0
  otpStr : t.otpStr = s.otpStr ∨ t.otpStr = Vector.replicate 3 0

/-- The state shows the results of HOTPCODE of a secret, a counter and a digit count (R181), as R114 publishes them: the tag, its
truncated value, the code and the string, with STATUS 0x01A. -/
def OtpPublished (secret : List Byte) (c digits : Nat) (u : State) : Prop :=
  ∃ bytes tag, CounterBytes bytes c ∧ hmac 64 secret bytes = some tag ∧
    u.digest = digestWords tag ∧ u.trunc = dtValue tag ∧ u.code.toNat = (dtValue tag).toNat % 10 ^ digits ∧
    u.otpStr = stringWords (renderField u.code.toNat digits) ∧ u.status.word = 0x01A

/-- The state shows the tag of a key and a message, as R114 publishes it for HMAC, with STATUS 0x00A. -/
def TagPublished (key msg : List Byte) (u : State) : Prop :=
  ∃ tag, hmac 64 key msg = some tag ∧ u.digest = digestWords tag ∧ OtpCleared u ∧ u.status.word = 0x00A

/-- The state shows the digest of a message, as R114 publishes it for HASH, with STATUS 0x00A. -/
def DigestPublished (msg : List Byte) (u : State) : Prop :=
  u.digest = digestWords (sha1 msg) ∧ OtpCleared u ∧ u.status.word = 0x00A

/-- The two states show a host the same: every host-visible register and both buffers (R20 (a), (b)). -/
structure SameVisible (s t : State) : Prop where
  regs  : ∀ r, readReg t r = readReg s r
  bytes : ∀ a, memGet t.mem a = memGet s.mem a

end Sys2Proof.Machine
end

