-- ==== Sys2Proof/Certificates/Slice0/Obligations.lean ====
section
/-! DEFINITION. The statements for the provers. Each docstring names the rule it formalises; the words used are those of
Sys2Proof/Safety.lean. In every statement the model's own fields of State (the presented clock, h_rdata, the pending events)
are free. -/

open Sys2Proof Sys2Proof.Machine

/-! ### Reset -/

/-- R236: every register, buffer byte and hidden register is 0 after reset and SEQ is (IDLE, PLAIN, 0, 0). -/
def Obligations.ResetLeavesEverythingZero : Prop :=
  State.reset.cmd = 0 ∧ State.reset.status.word = 0 ∧
  State.reset.keyLen = 0 ∧ State.reset.msgLen = 0 ∧ State.reset.ctrHi = 0 ∧ State.reset.ctrLo = 0 ∧
  State.reset.stepHi = 0 ∧ State.reset.stepLo = 0 ∧
  State.reset.digest = Vector.replicate 5 0 ∧ OtpCleared State.reset ∧
  (∀ a, memGet State.reset.mem a = 0x00) ∧
  State.reset.h = Vector.replicate 5 0 ∧ State.reset.work = { a := 0, b := 0, c := 0, d := 0, e := 0 } ∧
  State.reset.w = Vector.replicate 80 0 ∧ State.reset.k0 = Vector.replicate 64 0 ∧
  State.reset.idig = Vector.replicate 20 0 ∧ State.reset.tag = Vector.replicate 20 0 ∧
  State.reset.toff = 0 ∧ State.reset.tval = 0 ∧ State.reset.tcode = 0 ∧ State.reset.tstr = Vector.replicate 12 0 ∧
  State.reset.seq = { phase := .idle, pass := .plain, blk := 0, t := 0 }

/-- R235, R237: a step in which rst is asserted puts the block into its reset state, from any state, a running command
included. That the presented clock, the last read value and the events to come are not the block's and stay is the model's
choice (log 2, log 18). -/
def Obligations.ResetEventGivesTheResetState : Prop :=
  ∀ (s : State) (rest : List Event),
    ∃ t, step { s with pending := .reset :: rest } = .next t ∧ SameBlock State.reset t ∧ t.pending = rest

/-- The invariants of the machine hold at reset (R236, R22, R40). The last clause, that the list of buffer bytes is in canonical
form, is about the model's own way to hold them, a DESIGN CHOICE (log 6). -/
def Obligations.ResetMeetsTheInvariants : Prop :=
  StatusInv State.reset ∧ SequencerInv State.reset ∧ EngineInv State.reset ∧ ResultInv State.reset ∧ memWf State.reset.mem

/-! ### The command word -/

/-- R91, R92 and the rows of 95_test_vectors.md section 2.6: words written out from the encoding decode to their commands, and
words outside it do not. -/
def Obligations.WrittenOutWordsDecode : Prop :=
  decode 0x00000001#32 = .legal .hash ∧ decode 0x00000002#32 = .legal .hmac ∧
  decode 0x00000063#32 = .legal (.hotp 6) ∧ decode 0x00000084#32 = .legal (.totp 8) ∧
  decode 0x00000003#32 = .legal (.hotp 0) ∧ decode 0x000000A4#32 = .legal (.totp 10) ∧
  decode 0x00000000#32 = .illegal .noSuchOperation ∧ decode 0x00000011#32 = .illegal .digitsNotZero ∧
  decode 0x00000163#32 = .illegal .reservedBits ∧ decode 0x80000001#32 = .illegal .reservedBits

/-- R91, R93, R98: a word decodes to a command exactly when it is that command's word; no bit of the word is dropped and no
two words give one command. -/
def Obligations.DecodeAndEncodeAgree : Prop :=
  ∀ (w : Word) (i : Instr), decode w = .legal i ↔ w = encode i

/-- R91, R94: the decoder of R93 and the match and mask of the opcode table select the same commands, for every word; a word
that matches no row is illegal. -/
def Obligations.DecodeFollowsTheOpcodeTable : Prop :=
  (∀ (w : Word) (r : OpcodeRow), r ∈ opcodeTable →
    (r.selects w = true ↔ ∃ i, decode w = .legal i ∧ i.mnemonic = r.mnemonic)) ∧
  (∀ w : Word, (∀ r ∈ opcodeTable, r.selects w = false) ↔ ∃ why, decode w = .illegal why)

/-- R12, R64, R76: a step whose event is a host write of a command's word to CMD is `exec` of the decoded command on the state
with that event taken away; a step with nothing pending is the core's own step. -/
def Obligations.StepRunsTheDecodedCommand : Prop :=
  (∀ (s : State) (rest : List Event) (w : Word) (i : Instr), decode w = .legal i →
    step { s with pending := .write 0 w :: rest } = exec i { s with pending := rest }) ∧
  (∀ s : State, s.pending = [] → step s = .next (coreStep s)) ∧
  (∀ (s : State) (rest : List Event), step { s with pending := .quiet :: rest } = .next (coreStep { s with pending := rest }))

/-! ### The accept step -/

/-- R141, R110: an idle block accepts HASH with MSG_LEN at most 1024 and starts the PLAIN pass; nothing else changes. -/
def Obligations.HashStartsThePlainPass : Prop :=
  ∀ s : State, s.status.busy = false → s.msgLen.toNat ≤ 1024 →
    exec .hash s = .next (startedState 0x00000001 .init s)

/-- R165, R110: an idle block accepts HMAC with KEY_LEN at most 256 and MSG_LEN at most 1024 and starts at KEYSEL; nothing else
changes. -/
def Obligations.HmacStartsAtKeysel : Prop :=
  ∀ s : State, s.status.busy = false → s.keyLen.toNat ≤ 256 → s.msgLen.toNat ≤ 1024 →
    exec .hmac s = .next (startedState 0x00000002 .keysel s)

/-- R185, R110: an idle block accepts HOTP d with d in 1..9 and KEY_LEN at most 256, whatever MSG_LEN, STEP and the clock are,
and starts at KEYSEL; nothing else changes, CTR included. -/
def Obligations.HotpStartsAtKeysel : Prop :=
  ∀ (s : State) (d : BitVec 4), s.status.busy = false → 1 ≤ d.toNat → d.toNat ≤ 9 → s.keyLen.toNat ≤ 256 →
    exec (.hotp d) s = .next (startedState (0x00000003 + 16 * d.setWidth 32) .keysel s)

/-- R186, R110: an idle block accepts TOTP d with d in 1..9, KEY_LEN at most 256, STEP not zero and a good clock; it latches
`floor(t_sec / STEP)` in CTR and starts at KEYSEL; nothing else changes. -/
def Obligations.TotpLatchesTheCounterAndStarts : Prop :=
  ∀ (s : State) (d : BitVec 4), s.status.busy = false → 1 ≤ d.toNat → d.toNat ≤ 9 → s.keyLen.toNat ≤ 256 →
    (s.stepHi ≠ 0 ∨ s.stepLo ≠ 0) → s.tOk = true → s.tSec.msb = false →
    exec (.totp d) s = .next
      { startedState (0x00000004 + 16 * d.setWidth 32) .keysel s with
        ctrHi := BitVec.ofNat 32 (s.tSec.toNat / (s.stepHi.toNat * 2 ^ 32 + s.stepLo.toNat) / 2 ^ 32)
        ctrLo := BitVec.ofNat 32 (s.tSec.toNat / (s.stepHi.toNat * 2 ^ 32 + s.stepLo.toNat)) }

/-- R176: after its other checks TOTP reads the clock once; it ends with error CLOCK, CTR kept, if t_ok = 0 or t_sec is
negative, and otherwise CTR takes the quotient rounded toward zero, which is below 2^63. -/
def Obligations.TotpCounterIsTheFloorOfTime : Prop :=
  ∀ (s : State) (d : BitVec 4), s.status.busy = false → 1 ≤ d.toNat → d.toNat ≤ 9 → s.keyLen.toNat ≤ 256 →
    s.step64 ≠ 0 →
    ((s.tOk = false ∨ s.tSec.toInt < 0) →
      ∃ t, exec (.totp d) s = .next t ∧ t.status.word = 0x106 ∧ CtrKept s t) ∧
    ((s.tOk = true ∧ 0 ≤ s.tSec.toInt) →
      ∃ t, exec (.totp d) s = .next t ∧ t.ctr.toNat * s.step64.toNat ≤ s.tSec.toNat ∧
        s.tSec.toNat < (t.ctr.toNat + 1) * s.step64.toNat ∧ t.ctr.toNat < 2 ^ 63)

/-- R212, R213: the checks of the accept step in their order, each with what the error leaves: CMD the word, STATUS DONE, ERR
and the code, the results 0, and everything else, CTR and the hidden registers included, unchanged; SEQ is at IDLE, where it
was. -/
def Obligations.FirstFailingCheckRaisesItsError : Prop :=
  ∀ s : State, s.status.busy = false →
    (StatusInv s → ∀ (w : Word) (c : BitVec 4), (errorState w c s).seq.phase = .idle) ∧
    (∀ (w : Word) (why : IllegalWord) (rest : List Event), decode w = .illegal why →
      step { s with pending := .write 0 w :: rest } = .next { errorState w 5 s with pending := rest }) ∧
    (∀ d : BitVec 4, (d.toNat < 1 ∨ 9 < d.toNat) →
      exec (.hotp d) s = .next (errorState (encode (.hotp d)) 2 s) ∧
      exec (.totp d) s = .next (errorState (encode (.totp d)) 2 s)) ∧
    (1024 < s.msgLen.toNat → exec .hash s = .next (errorState (encode .hash) 4 s)) ∧
    ((256 < s.keyLen.toNat ∨ 1024 < s.msgLen.toNat) → exec .hmac s = .next (errorState (encode .hmac) 4 s)) ∧
    (∀ d : BitVec 4, 1 ≤ d.toNat → d.toNat ≤ 9 → 256 < s.keyLen.toNat →
      exec (.hotp d) s = .next (errorState (encode (.hotp d)) 4 s) ∧
      exec (.totp d) s = .next (errorState (encode (.totp d)) 4 s)) ∧
    (∀ d : BitVec 4, 1 ≤ d.toNat → d.toNat ≤ 9 → s.keyLen.toNat ≤ 256 → s.stepHi = 0 → s.stepLo = 0 →
      exec (.totp d) s = .next (errorState (encode (.totp d)) 3 s)) ∧
    (∀ d : BitVec 4, 1 ≤ d.toNat → d.toNat ≤ 9 → s.keyLen.toNat ≤ 256 → (s.stepHi ≠ 0 ∨ s.stepLo ≠ 0) →
      (s.tOk = false ∨ s.tSec.getLsbD 63 = true) →
      exec (.totp d) s = .next (errorState (encode (.totp d)) 1 s))

/-- R210: a write to CMD while idle ends with ILLEGAL_CMD exactly when the word matches no row of the opcode table, that is
when bits 31:8 are not zero, or OP is 0 or 5 to 15, or OP is 1 or 2 and DIG is not zero. -/
def Obligations.IllegalCmdExactlyForWordsOutsideTheTable : Prop :=
  ∀ (s : State) (w : Word) (rest : List Event), s.status.busy = false →
    ((∀ r ∈ opcodeTable, r.selects w = false) ↔
      (w.toNat / 2 ^ 8 ≠ 0 ∨ w.toNat % 16 = 0 ∨ 5 ≤ w.toNat % 16 ∨
        ((w.toNat % 16 = 1 ∨ w.toNat % 16 = 2) ∧ w.toNat / 2 ^ 4 % 16 ≠ 0))) ∧
    (∃ t, step { s with pending := .write 0 w :: rest } = .next t ∧
      (t.status.errCode = 5 ↔ ∀ r ∈ opcodeTable, r.selects w = false))

/-- R71, R64 case 1: a command's word written while BUSY changes nothing. -/
def Obligations.CommandWhileBusyIsIgnored : Prop :=
  ∀ (s : State) (i : Instr), s.status.busy = true → exec i s = .next s

/-- R112: a command's accept step writes no length, no STEP and no buffer byte; only TOTP writes CTR, and only when it starts;
no accept step writes a hidden register but SEQ. -/
def Obligations.AcceptStepKeepsTheInputs : Prop :=
  ∀ (s t : State) (i : Instr), exec i s = .next t →
    InputsKept s t ∧
    (CtrKept s t ∨ (∃ d, i = .totp d) ∧ s.status.busy = false ∧ t.status.busy = true) ∧
    t.h = s.h ∧ t.work = s.work ∧ t.w = s.w ∧ t.k0 = s.k0 ∧ t.idig = s.idig ∧ t.tag = s.tag ∧
    t.toff = s.toff ∧ t.tval = s.tval ∧ t.tcode = s.tcode ∧ t.tstr = s.tstr

/-! ### The host port -/

/-- R61, R63, R65: what a host read drives, for every byte offset of the address map, 0 at the reserved ones, at all times; it
changes nothing else. While a command runs the result registers read 0. -/
def Obligations.HostReadFollowsTheAddressMap : Prop :=
  ∀ (s : State) (a : WordIndex) (rest : List Event),
    ∃ v, step { s with pending := .read a :: rest } = .next { s with rdata := some v, pending := rest } ∧
      (4 * a.toNat = 0x000 → v = s.cmd) ∧ (4 * a.toNat = 0x004 → v = s.status.word) ∧
      (4 * a.toNat = 0x008 → v = s.keyLen) ∧ (4 * a.toNat = 0x00C → v = s.msgLen) ∧
      (4 * a.toNat = 0x010 → v = s.ctrHi) ∧ (4 * a.toNat = 0x014 → v = s.ctrLo) ∧
      (4 * a.toNat = 0x018 → v = s.stepHi) ∧ (4 * a.toNat = 0x01C → v = s.stepLo) ∧
      (∀ i : Fin 5, 4 * a.toNat = 0x020 + 4 * i.val → v = s.digest[i]) ∧
      (4 * a.toNat = 0x034 → v = s.trunc) ∧ (4 * a.toNat = 0x038 → v = s.code) ∧
      (∀ j : Fin 3, 4 * a.toNat = 0x040 + 4 * j.val → v = s.otpStr[j]) ∧
      ((0x100 ≤ 4 * a.toNat ∧ 4 * a.toNat ≤ 0x1FC) ∨ 0x400 ≤ 4 * a.toNat →
        v.toNat = (memGet s.mem (4 * a.toNat)).toNat * 2 ^ 24 + (memGet s.mem (4 * a.toNat + 1)).toNat * 2 ^ 16 +
          (memGet s.mem (4 * a.toNat + 2)).toNat * 2 ^ 8 + (memGet s.mem (4 * a.toNat + 3)).toNat) ∧
      (4 * a.toNat = 0x03C ∨ (0x04C ≤ 4 * a.toNat ∧ 4 * a.toNat ≤ 0x0FC) ∨ (0x200 ≤ 4 * a.toNat ∧ 4 * a.toNat ≤ 0x3FC) →
        v = 0) ∧
      (0x020 ≤ 4 * a.toNat → 4 * a.toNat ≤ 0x048 → s.status.busy = true → StatusInv s → ResultInv s → v = 0)

/-- R70: a read of a reserved address returns 0, a write to one is ignored, and neither changes anything else. -/
def Obligations.ReservedAddressesReadZeroAndIgnoreWrites : Prop :=
  ∀ (s : State) (a : WordIndex) (v : Word) (rest : List Event),
    (4 * a.toNat = 0x03C ∨ (0x04C ≤ 4 * a.toNat ∧ 4 * a.toNat ≤ 0x0FC) ∨ (0x200 ≤ 4 * a.toNat ∧ 4 * a.toNat ≤ 0x3FC)) →
    step { s with pending := .read a :: rest } = .next { s with rdata := some 0, pending := rest } ∧
    step { s with pending := .write a v :: rest } = .next { s with pending := rest }

/-- R72, R64 case 5: a write to STATUS or to a result register is ignored at all times. -/
def Obligations.ReadOnlyRegistersIgnoreWrites : Prop :=
  ∀ (s : State) (a : WordIndex) (v : Word) (rest : List Event),
    (4 * a.toNat = 0x004 ∨ (0x020 ≤ 4 * a.toNat ∧ 4 * a.toNat ≤ 0x038) ∨ (0x040 ≤ 4 * a.toNat ∧ 4 * a.toNat ≤ 0x048)) →
    step { s with pending := .write a v :: rest } = .next { s with pending := rest }

/-- R64 case 3, R23 to R26: while idle a write to an operand register stores all 32 bits there and changes nothing else. -/
def Obligations.OperandRegistersStoreTheWord : Prop :=
  ∀ (s : State) (v : Word) (rest : List Event), s.status.busy = false →
    step { s with pending := .write 2 v :: rest } = .next { s with keyLen := v, pending := rest } ∧
    step { s with pending := .write 3 v :: rest } = .next { s with msgLen := v, pending := rest } ∧
    step { s with pending := .write 4 v :: rest } = .next { s with ctrHi := v, pending := rest } ∧
    step { s with pending := .write 5 v :: rest } = .next { s with ctrLo := v, pending := rest } ∧
    step { s with pending := .write 6 v :: rest } = .next { s with stepHi := v, pending := rest } ∧
    step { s with pending := .write 7 v :: rest } = .next { s with stepLo := v, pending := rest }

/-- R64 case 4, R65: while idle a write to a buffer word stores its four bytes, most significant first; every other byte and
every register is as before. -/
def Obligations.BufferWriteStoresFourBytes : Prop :=
  ∀ (s : State) (a : WordIndex) (v : Word) (rest : List Event), memWf s.mem → s.status.busy = false →
    ((0x100 ≤ 4 * a.toNat ∧ 4 * a.toNat ≤ 0x1FC) ∨ 0x400 ≤ 4 * a.toNat) →
    ∃ m, step { s with pending := .write a v :: rest } = .next { s with mem := m, pending := rest } ∧
      (memGet m (4 * a.toNat)).toNat = v.toNat / 2 ^ 24 ∧
      (memGet m (4 * a.toNat + 1)).toNat = v.toNat / 2 ^ 16 % 256 ∧
      (memGet m (4 * a.toNat + 2)).toNat = v.toNat / 2 ^ 8 % 256 ∧
      (memGet m (4 * a.toNat + 3)).toNat = v.toNat % 256 ∧
      (∀ x, (x < 4 * a.toNat ∨ 4 * a.toNat + 4 ≤ x) → memGet m x = memGet s.mem x)

/-- R64, R63, R65: a buffer word reads back as it was last written. -/
def Obligations.BufferWordReadsBack : Prop :=
  ∀ (s : State) (a : WordIndex) (v : Word) (rest : List Event), memWf s.mem → s.status.busy = false →
    ((0x100 ≤ 4 * a.toNat ∧ 4 * a.toNat ≤ 0x1FC) ∨ 0x400 ≤ 4 * a.toNat) →
    ∃ u, RunsTo 2 { s with pending := .write a v :: .read a :: rest } u ∧ u.rdata = some v ∧ u.pending = rest

/-- R71, R248: while BUSY a host write changes nothing, a host read only drives h_rdata, and no step but a reset changes CMD,
a length, CTR, STEP or a buffer byte. -/
def Obligations.OperandsAreFrozenWhileBusy : Prop :=
  ∀ s : State, s.status.busy = true →
    (∀ (a : WordIndex) (v : Word) (rest : List Event),
      step { s with pending := .write a v :: rest } = .next { s with pending := rest }) ∧
    (∀ (a : WordIndex) (rest : List Event),
      ∃ v, step { s with pending := .read a :: rest } = .next { s with rdata := some v, pending := rest }) ∧
    (NoResetNext s → ∀ t, step s = .next t → t.cmd = s.cmd ∧ InputsKept s t ∧ CtrKept s t)

/-- R43, R20, D20: what a host reads depends on the host-visible registers and the buffers alone. -/
def Obligations.HostReadsHideTheHiddenRegisters : Prop :=
  ∀ (s t : State) (a : WordIndex) (rest : List Event), SameVisible s t →
    ∃ s' t', step { s with pending := .read a :: rest } = .next s' ∧ step { t with pending := .read a :: rest } = .next t' ∧
      s'.rdata = t'.rdata ∧ SameBlock s s' ∧ SameBlock t t'

/-- R99: LOADKEY and LOADMSG leave the sequence in its buffer with its length, and the other buffer's sequence as it was; they
change nothing but the buffer bytes, the one length register and the events consumed. -/
def Obligations.LoadLinesLeaveTheSequence : Prop :=
  ∀ (s : State) (x : List Byte) (rest : List Event), memWf s.mem → s.status.busy = false →
    (x.length ≤ 256 →
      ∃ u, RunsTo (loadKeyLine x).length { s with pending := loadKeyLine x ++ rest } u ∧
        u.key = x ∧ u.keyLen.toNat = x.length ∧ u.msg = s.msg ∧
        u = { s with mem := u.mem, keyLen := u.keyLen, pending := rest }) ∧
    (x.length ≤ 1024 →
      ∃ u, RunsTo (loadMsgLine x).length { s with pending := loadMsgLine x ++ rest } u ∧
        u.msg = x ∧ u.msgLen.toNat = x.length ∧ (s.keyLen.toNat ≤ 256 → u.key = s.key) ∧
        u = { s with mem := u.mem, msgLen := u.msgLen, pending := rest })

/-! ### The core steps -/

/-- R113: the table of the sequencer's transitions, whole; with PHASE = IDLE no core step is enabled. -/
def Obligations.SequencerFollowsItsTable : Prop :=
  ∀ s : State, s.pending = [] →
    ∃ t, step s = .next t ∧
      (s.seq.phase = .idle → t = s) ∧
      (s.seq.phase = .keysel → 64 < s.keyLen.toNat → t.seq = { s.seq with pass := .keyhash, phase := .init }) ∧
      (s.seq.phase = .keysel → s.keyLen.toNat ≤ 64 → t.seq = { s.seq with pass := .inner, phase := .init }) ∧
      (s.seq.phase = .init → t.seq = { s.seq with blk := 0, phase := .load }) ∧
      (s.seq.phase = .load → t.seq = { s.seq with t := 0, phase := .round }) ∧
      (s.seq.phase = .round → s.seq.t.val < 79 →
        t.seq.t.val = s.seq.t.val + 1 ∧ t.seq.phase = .round ∧ t.seq.pass = s.seq.pass ∧ t.seq.blk = s.seq.blk) ∧
      (s.seq.phase = .round → s.seq.t.val = 79 → t.seq = { s.seq with t := 0, phase := .add }) ∧
      (s.seq.phase = .add → s.seq.blk + 1 < (s.stream.length + 8) / 64 + 1 →
        t.seq = { s.seq with blk := s.seq.blk + 1, phase := .load }) ∧
      (s.seq.phase = .add → (s.stream.length + 8) / 64 + 1 ≤ s.seq.blk + 1 → t.seq = { s.seq with phase := .passend }) ∧
      (s.seq.phase = .passend → s.seq.pass = .plain → t.seq = { s.seq with phase := .finish }) ∧
      (s.seq.phase = .passend → s.seq.pass = .keyhash → t.seq = { s.seq with pass := .inner, phase := .init }) ∧
      (s.seq.phase = .passend → s.seq.pass = .inner → t.seq = { s.seq with pass := .outer, phase := .init }) ∧
      (s.seq.phase = .passend → s.seq.pass = .outer → (s.op = 3 ∨ s.op = 4) → t.seq = { s.seq with phase := .trunc }) ∧
      (s.seq.phase = .passend → s.seq.pass = .outer → s.op = 2 → t.seq = { s.seq with phase := .finish }) ∧
      (s.seq.phase = .trunc → t.seq = { s.seq with phase := .reduce }) ∧
      (s.seq.phase = .reduce → t.seq = { s.seq with phase := .render }) ∧
      (s.seq.phase = .render → t.seq = { s.seq with phase := .finish }) ∧
      (s.seq.phase = .finish → t.seq = { phase := .idle, pass := .plain, blk := 0, t := 0 })

/-- R161: KEYSEL leaves K0 for a key longer than 64 bytes, and otherwise fills it with the key bytes and zeros; nothing else
changes but SEQ. -/
def Obligations.KeyselSelectsAndFillsTheKey : Prop :=
  ∀ s : State, s.pending = [] → s.seq.phase = .keysel →
    (64 < s.keyLen.toNat → step s = .next { s with seq := { s.seq with pass := .keyhash, phase := .init } }) ∧
    (s.keyLen.toNat ≤ 64 →
      ∃ k : Vector Byte 64,
        step s = .next { s with k0 := k, seq := { s.seq with pass := .inner, phase := .init } } ∧
        ∀ j : Fin 64, k[j] = if j.val < s.keyLen.toNat then memGet s.mem (0x100 + j.val) else 0x00)

/-- R136: INIT sets H to IV, whatever H held, and BLK to 0; nothing else changes but PHASE. -/
def Obligations.InitStepSetsTheInitialValue : Prop :=
  ∀ s : State, s.pending = [] → s.seq.phase = .init →
    step s = .next { s with h := iv, seq := { s.seq with blk := 0, phase := .load } }

/-- R137: LOAD takes the sixteen words of the block from the padded stream, big-endian, extends them to eighty by the
recurrence, copies H to A to E, and changes nothing else but SEQ. -/
def Obligations.LoadStepBuildsTheSchedule : Prop :=
  ∀ s : State, s.pending = [] → s.seq.phase = .load →
    ∃ w : Vector Word 80,
      step s = .next
        { s with
          w := w
          work := { a := s.h[0], b := s.h[1], c := s.h[2], d := s.h[3], e := s.h[4] }
          seq := { s.seq with t := 0, phase := .round } } ∧
      (∀ i : Fin 16, w[i.val] =
        be32 (s.padded.getD (64 * s.seq.blk + 4 * i.val) 0) (s.padded.getD (64 * s.seq.blk + 4 * i.val + 1) 0)
          (s.padded.getD (64 * s.seq.blk + 4 * i.val + 2) 0) (s.padded.getD (64 * s.seq.blk + 4 * i.val + 3) 0)) ∧
      (∀ k : Fin 64, w[k.val + 16] =
        (w[k.val + 13] ^^^ w[k.val + 8] ^^^ w[k.val + 2] ^^^ w[k.val]).rotateLeft 1)

/-- R130, R131: the boolean function and the constant of each stage of twenty rounds. The four functions and constants are the
spec's from general knowledge (93_implementation_defined.md G3, G4). -/
def Obligations.StagesSelectFunctionAndConstant : Prop :=
  ∀ (t : Nat) (b c d : Word),
    (t < 20 → roundFn t b c d = ((b &&& c) ||| (~~~b &&& d)) ∧ roundConst t = 0x5A827999) ∧
    (20 ≤ t → t < 40 → roundFn t b c d = b ^^^ c ^^^ d ∧ roundConst t = 0x6ED9EBA1) ∧
    (40 ≤ t → t < 60 → roundFn t b c d = ((b &&& c) ||| (b &&& d) ||| (c &&& d)) ∧ roundConst t = 0x8F1BBCDC) ∧
    (60 ≤ t → t < 80 → roundFn t b c d = b ^^^ c ^^^ d ∧ roundConst t = 0xCA62C1D6)

/-- R138: ROUND applies one round with t = T to A to E, all from the values before it, and moves T on; nothing else changes. -/
def Obligations.RoundStepUpdatesTheWorkingRegisters : Prop :=
  ∀ s : State, s.pending = [] → s.seq.phase = .round →
    ∃ q : Seq,
      step s = .next
        { s with
          work :=
            { a := s.work.a.rotateLeft 5 + roundFn s.seq.t.val s.work.b s.work.c s.work.d + s.work.e + s.w[s.seq.t.val]
                + roundConst s.seq.t.val
              b := s.work.a, c := s.work.b.rotateLeft 30, d := s.work.c, e := s.work.d }
          seq := q } ∧
      q.pass = s.seq.pass ∧ q.blk = s.seq.blk ∧
      (s.seq.t.val < 79 → q.phase = .round ∧ q.t.val = s.seq.t.val + 1) ∧
      (s.seq.t.val = 79 → q.phase = .add ∧ q.t.val = 0)

/-- R139: ADD adds the working registers into H word by word, and moves to the next block or the end of the pass; where the
engine holds what the functions give, H is then the chaining state after this block. -/
def Obligations.AddStepFoldsTheBlock : Prop :=
  ∀ s : State, s.pending = [] → s.seq.phase = .add →
    ∃ q : Seq,
      step s = .next
        { s with
          h := #v[s.h[0] + s.work.a, s.h[1] + s.work.b, s.h[2] + s.work.c, s.h[3] + s.work.d, s.h[4] + s.work.e]
          seq := q } ∧
      (s.seq.blk + 1 < s.nb → q = { s.seq with blk := s.seq.blk + 1, phase := .load }) ∧
      (s.nb ≤ s.seq.blk + 1 → q = { s.seq with phase := .passend }) ∧
      (EngineInv s → ∀ t, step s = .next t → t.h = chain s.padded (s.seq.blk + 1))

/-- R140, R162, R163, R164: each PASSEND serialises H big-endian into the register its caller needs, and nothing else changes
but SEQ; after the KEYHASH pass K0 is the normalised key. -/
def Obligations.PassendStoresTheDigest : Prop :=
  ∀ s : State, s.pending = [] → s.seq.phase = .passend →
    ∃ g : Vector Byte 20,
      g.toList = bytesBE s.h[0].toNat 4 ++ bytesBE s.h[1].toNat 4 ++ bytesBE s.h[2].toNat 4 ++ bytesBE s.h[3].toNat 4
        ++ bytesBE s.h[4].toNat 4 ∧
      (s.seq.pass = .plain → step s = .next { s with tag := g, seq := { s.seq with phase := .finish } }) ∧
      (s.seq.pass = .keyhash →
        ∃ k : Vector Byte 64, k.toList = g.toList ++ zeros 44 ∧
          step s = .next { s with k0 := k, seq := { s.seq with pass := .inner, phase := .init } } ∧
          (EngineInv s → k = normKey64 s.key)) ∧
      (s.seq.pass = .inner →
        step s = .next { s with idig := g, seq := { s.seq with pass := .outer, phase := .init } }) ∧
      (s.seq.pass = .outer → (s.op = 3 ∨ s.op = 4) →
        step s = .next { s with tag := g, seq := { s.seq with phase := .trunc } }) ∧
      (s.seq.pass = .outer → s.op = 2 → step s = .next { s with tag := g, seq := { s.seq with phase := .finish } })

/-- R182: TRUNC sets TOFF to the low nibble of byte 19 of TAG and TVAL to the four bytes there, the first one's top bit masked;
nothing else changes but PHASE. -/
def Obligations.TruncStepTakesTheWindow : Prop :=
  ∀ (s : State) (o : Nat) (ho : o < 16), s.pending = [] → s.seq.phase = .trunc → (s.tag[19] &&& 0x0F).toNat = o →
    step s = .next
      { s with
        toff := BitVec.ofNat 4 o
        tval := BitVec.ofNat 32
          ((s.tag[o] &&& 0x7F).toNat * 2 ^ 24 + s.tag[o + 1].toNat * 2 ^ 16 + s.tag[o + 2].toNat * 2 ^ 8
            + s.tag[o + 3].toNat)
        seq := { s.seq with phase := .reduce } }

/-- R183, R184: REDUCE sets TCODE to TVAL mod 10^DIG; RENDER sets the first DIG bytes of TSTR to the decimal digits of TCODE as
0x30 + digit, leftmost first, and the others to 0x00; nothing else changes but PHASE. -/
def Obligations.ReduceAndRenderGiveTheDigits : Prop :=
  ∀ s : State, s.pending = [] → 1 ≤ s.dig → s.dig ≤ 9 →
    (s.seq.phase = .reduce →
      ∃ v : Word, v.toNat = s.tval.toNat % 10 ^ s.dig ∧
        step s = .next { s with tcode := v, seq := { s.seq with phase := .render } }) ∧
    (s.seq.phase = .render →
      ∃ x : Vector Byte 12,
        step s = .next { s with tstr := x, seq := { s.seq with phase := .finish } } ∧
        ∀ i : Fin 12,
          x[i].toNat = if i.val < s.dig then 0x30 + s.tcode.toNat / 10 ^ (s.dig - 1 - i.val) % 10 else 0x00)

/-- R114: FINISH publishes TAG as five words, for HOTP and TOTP also TVAL, TCODE and TSTR, sets DV and DONE (and CV), clears
BUSY and rests the sequencer; nothing else changes, the hidden registers included; STATUS then reads 0x00A or 0x01A. It is the
only step of any kind, a host access, a change of the clock and a reset included, that writes a result register with a result:
every other step leaves each as it was or 0. And no other core step changes anything host-visible. -/
def Obligations.FinishStepPublishes : Prop :=
  (∀ s t : State, step s = .next t → ResultsKeptOrCleared s t ∨ (CoreStepNext s ∧ s.seq.phase = .finish)) ∧
  (∀ s : State, CoreStepNext s → s.seq.phase ≠ .finish → ∃ t, step s = .next t ∧ SameVisible s t) ∧
  ∀ s : State, s.pending = [] → s.seq.phase = .finish →
    ∃ t, step s = .next t ∧
      (StatusInv s → t.status.word = if s.op = 3 ∨ s.op = 4 then 0x01A else 0x00A) ∧
      (∀ i : Fin 5, t.digest[i] = be32At s.tag.toList (4 * i.val)) ∧
      ((s.op = 3 ∨ s.op = 4) →
        t.trunc = s.tval ∧ t.code = s.tcode ∧ (∀ j : Fin 3, t.otpStr[j] = be32At s.tstr.toList (4 * j.val)) ∧
        t.status = { s.status with cv := true, dv := true, done := true, busy := false }) ∧
      ((s.op ≠ 3 ∧ s.op ≠ 4) →
        t.trunc = s.trunc ∧ t.code = s.code ∧ t.otpStr = s.otpStr ∧
        t.status = { s.status with dv := true, done := true, busy := false }) ∧
      t = { s with
            digest := t.digest, trunc := t.trunc, code := t.code, otpStr := t.otpStr, status := t.status
            seq := { phase := .idle, pass := .plain, blk := 0, t := 0 } }

/-! ### The functions -/

/-- R127: the layout of the padded stream. That it takes the fewest zero bytes is the spec's from general knowledge
(93_implementation_defined.md G8). -/
def Obligations.PaddedStreamHasItsLayout : Prop :=
  ∀ s : List Byte, s.length < 2 ^ 61 →
    (pad s).length = 64 * ((s.length + 8) / 64 + 1) ∧
    (∀ j, j < s.length → (pad s).getD j 0 = s.getD j 0) ∧
    (pad s).getD s.length 0 = 0x80 ∧
    (∀ j, s.length < j → j < (pad s).length - 8 → (pad s).getD j 0 = 0x00) ∧
    (∀ i, i < 8 → ((pad s).getD ((pad s).length - 8 + i) 0).toNat = 8 * s.length / 2 ^ (8 * (7 - i)) % 256)

/-- R126, R133, R134: SHA1 starts the chain at IV, folds the blocks in order by COMPRESS, and serialises the last chaining
state, read back as five words. The values of IV and the final addition are the spec's from general knowledge (G1, G6). -/
def Obligations.Sha1ChainsTheBlocks : Prop :=
  (∀ p : List Byte, chain p 0 = #v[0x67452301, 0xEFCDAB89, 0x98BADCFE, 0x10325476, 0xC3D2E1F0]) ∧
  (∀ (p : List Byte) (b : Nat) (i : Fin 5),
    (chain p (b + 1))[i] = (chain p b)[i] +
      (let r := rounds (schedule (blockWords p b)) 80 (workOf (chain p b))
       #v[r.a, r.b, r.c, r.d, r.e][i])) ∧
  (∀ s : List Byte, digestWords (sha1 s) = chain (pad s) ((s.length + 8) / 64 + 1))

/-- R156: the normalised key: the hash and zeros for a key longer than the block, the key and zeros otherwise; its length is
the block size exactly; at 64 it is what K0 holds. -/
def Obligations.NormalisedKeyHasBlockSize : Prop :=
  (∀ (blockSize : Nat) (key : List Byte), 20 ≤ blockSize → blockSize < key.length →
    normKey blockSize key = some ((sha1 key).toList ++ zeros (blockSize - 20))) ∧
  (∀ (blockSize : Nat) (key : List Byte), key.length ≤ blockSize →
    normKey blockSize key = some (key ++ zeros (blockSize - key.length))) ∧
  (∀ (blockSize : Nat) (key nk : List Byte), normKey blockSize key = some nk → nk.length = blockSize) ∧
  (∀ key : List Byte, normKey 64 key = some (normKey64 key).toList)

/-- R157, R158: HMAC is two nested hashes over the two pads, byte-wise XORs of the normalised key with 0x36 and 0x5c; what the
hardware computes is HMAC at block size 64 (R159). -/
def Obligations.HmacNestsTwoHashes : Prop :=
  (∀ (blockSize : Nat) (key msg nk : List Byte), normKey blockSize key = some nk →
    hmac blockSize key msg = some (sha1 (nk.map (fun x => x ^^^ 0x5c#8) ++
      (sha1 (nk.map (fun x => x ^^^ 0x36#8) ++ msg)).toList))) ∧
  (∀ key msg : List Byte, hmac 64 key msg = some (hmac64 key msg))

/-- R167: a key of at most 64 bytes and the same key followed by zero bytes, together at most 64, give the same tag for every
message. -/
def Obligations.ZeroExtendedKeysAreEquivalent : Prop :=
  ∀ (key msg : List Byte) (n : Nat), key.length + n ≤ 64 →
    normKey 64 key = normKey 64 (key ++ zeros n) ∧ hmac64 key msg = hmac64 (key ++ zeros n) msg

/-- R177, R178, R188: the offset is the low nibble of byte 19 and at most 15, so the window ends at byte 18; the value is the
window read big-endian with the top bit masked, below 2^31. -/
def Obligations.TruncationReadsAWindowOfTheTag : Prop :=
  ∀ (tag : Vector Byte 20) (o : Nat) (ho : o < 16), (tag[19] &&& 0x0F).toNat = o →
    (dtOffset tag).toNat = o ∧ o + 3 ≤ 18 ∧
    (dtValue tag).toNat = (tag[o] &&& 0x7F).toNat * 2 ^ 24 + tag[o + 1].toNat * 2 ^ 16 + tag[o + 2].toNat * 2 ^ 8
      + tag[o + 3].toNat ∧
    dtValue tag = be32 tag[o] tag[o + 1] tag[o + 2] tag[o + 3] &&& 0x7FFFFFFF ∧
    (dtValue tag).toNat ≤ 2 ^ 31 - 1

/-- R179, R180, R188: the code is the remainder, in [0, 10^digits); the string has exactly `digits` characters, each a decimal
digit's ASCII code, and read as a decimal number it is the code. That the characters are ASCII is the spec's choice (D16). -/
def Obligations.RenderedStringDenotesTheCode : Prop :=
  ∀ (value : Word) (digits : Nat), 1 ≤ digits → digits ≤ 9 →
    (reduceCode value digits).toNat = value.toNat % 10 ^ digits ∧
    (reduceCode value digits).toNat < 10 ^ digits ∧
    (render (reduceCode value digits).toNat digits).length = digits ∧
    (∀ c ∈ render (reduceCode value digits).toNat digits, 0x30 ≤ c.toNat ∧ c.toNat ≤ 0x39) ∧
    (render (reduceCode value digits).toNat digits).foldl (fun n c => 10 * n + (c.toNat - 0x30)) 0
      = (reduceCode value digits).toNat

/-! ### Invariants of every step -/

/-- R22, R33: every step keeps STATUS at one of its nine values, BUSY equal to PHASE ≠ IDLE and ERR equal to ERRCODE ≠ 0. -/
def Obligations.StepKeepsStatusConsistent : Prop :=
  ∀ s t : State, StatusInv s → step s = .next t → StatusInv t

/-- R40: every step keeps SEQ in its ranges. -/
def Obligations.StepKeepsTheSequencerInRange : Prop :=
  ∀ s t : State, StatusInv s → EngineInv s → SequencerInv s → step s = .next t → SequencerInv t

/-- R115, R143, R214, R245: every step, whatever the host does meanwhile, keeps the operands of a running command legal and the
engine's registers at the values the functions give of those operands. -/
def Obligations.StepKeepsTheEngineOnTheFunctions : Prop :=
  ∀ s t : State, StatusInv s → EngineInv s → step s = .next t → EngineInv t

/-- R27 to R30, R188, R241: every step keeps the results 0 unless flagged valid, and valid OTP results in agreement. -/
def Obligations.StepKeepsTheResultsConsistent : Prop :=
  ∀ s t : State, StatusInv s → EngineInv s → ResultInv s → step s = .next t → ResultInv t

/-- The canonical form of the buffers' bytes (the model's own, log 6) is kept by every step. -/
def Obligations.StepKeepsTheMemoryCanonical : Prop :=
  ∀ s t : State, memWf s.mem → step s = .next t → memWf t.mem

/-- Every state has a next state: no fault and no refusal, for every input ("every state of the block has a defined next step
for every input", 93_implementation_defined.md section 1). -/
def Obligations.EveryStateHasANextStep : Prop :=
  ∀ s : State, ∃ t, step s = .next t

/-! ### Whole commands -/

/-- R116: while idle, a step that is neither a write to CMD nor a reset leaves CMD, STATUS and the results as they are. -/
def Obligations.ResultsHoldUntilTheNextAccept : Prop :=
  ∀ s t : State, StatusInv s → s.status.busy = false → NoResetNext s →
    (∀ w, s.pending.head? ≠ some (.write 0 w)) → step s = .next t →
    t.cmd = s.cmd ∧ SameResults s t

/-- R115, R117, R214: the step that ends a running command, whatever was interleaved before it, publishes the value of the
command's function of its frozen operands, and no error. -/
def Obligations.EndOfACommandPublishesItsFunction : Prop :=
  ∀ s t : State, StatusInv s → EngineInv s → ResultInv s → s.status.busy = true → NoResetNext s →
    step s = .next t → t.status.busy = false →
    (s.op = 1 → DigestPublished (memRead s.mem 0x400 s.msgLen.toNat) t) ∧
    (s.op = 2 → TagPublished (memRead s.mem 0x100 s.keyLen.toNat) (memRead s.mem 0x400 s.msgLen.toNat) t) ∧
    (s.op = 3 ∨ s.op = 4 →
      OtpPublished (memRead s.mem 0x100 s.keyLen.toNat) (s.ctrHi.toNat * 2 ^ 32 + s.ctrLo.toNat) s.dig t) ∧
    (s.op = 1 ∨ s.op = 2 ∨ s.op = 3 ∨ s.op = 4) ∧
    t.cmd = s.cmd ∧ InputsKept s t ∧ CtrKept s t

/-- R141, R115: HASH, from any idle state: it is accepted, and after `2 + 82 NB + 1` core steps, and no fewer, the digest
registers hold SHA1 of the message, STATUS is 0x00A, and everything the frame R112 protects is as it was. -/
def Obligations.HashPublishesTheDigestOfTheMessage : Prop :=
  ∀ s : State, s.status.busy = false → s.pending = [] → s.msgLen.toNat ≤ 1024 →
    ∃ t u, exec .hash s = .next t ∧ t.status.word = 0x001 ∧ EndsAfter (hashSteps s) t u ∧
      DigestPublished (memRead s.mem 0x400 s.msgLen.toNat) u ∧
      u.cmd = 0x00000001 ∧ u.seq = Seq.rest ∧ InputsKept s u ∧ CtrKept s u

/-- R165, R115: HMAC, from any idle state: it is accepted, and after the steps of two or three passes, and no fewer, the digest
registers hold HMAC of key and message at block size 64. -/
def Obligations.HmacPublishesTheTag : Prop :=
  ∀ s : State, s.status.busy = false → s.pending = [] → s.keyLen.toNat ≤ 256 → s.msgLen.toNat ≤ 1024 →
    ∃ t u, exec .hmac s = .next t ∧ t.status.word = 0x001 ∧ EndsAfter (hmacSteps s) t u ∧
      TagPublished (memRead s.mem 0x100 s.keyLen.toNat) (memRead s.mem 0x400 s.msgLen.toNat) u ∧
      u.cmd = 0x00000002 ∧ u.seq = Seq.rest ∧ InputsKept s u ∧ CtrKept s u

/-- R185, R115, R175, R181: HOTP d, from any idle state: it is accepted, and after its steps, and no fewer, tag, truncated value,
code and string are published, of the secret and the counter in CTR, whose eight bytes are the HMAC's message. -/
def Obligations.HotpPublishesTheCode : Prop :=
  ∀ (s : State) (d : BitVec 4), s.status.busy = false → s.pending = [] → 1 ≤ d.toNat → d.toNat ≤ 9 →
    s.keyLen.toNat ≤ 256 →
    ∃ t u, exec (.hotp d) s = .next t ∧ t.status.word = 0x001 ∧ EndsAfter (otpSteps s) t u ∧
      OtpPublished (memRead s.mem 0x100 s.keyLen.toNat) (s.ctrHi.toNat * 2 ^ 32 + s.ctrLo.toNat) d.toNat u ∧
      u.cmd = 0x00000003 + 16 * d.setWidth 32 ∧ u.seq = Seq.rest ∧ InputsKept s u ∧ CtrKept s u

/-- R186, R115, R175, R181, R243: TOTP d, from any idle state with STEP not zero and a good clock: the counter used is
`floor(t_sec / STEP)` of the clock at the accept step, left in CTR, and the results are HOTP's at that counter. -/
def Obligations.TotpPublishesTheCode : Prop :=
  ∀ (s : State) (d : BitVec 4) (c : Nat), s.status.busy = false → s.pending = [] → 1 ≤ d.toNat → d.toNat ≤ 9 →
    s.keyLen.toNat ≤ 256 → (s.stepHi ≠ 0 ∨ s.stepLo ≠ 0) → s.tOk = true → s.tSec.msb = false →
    c = s.tSec.toNat / (s.stepHi.toNat * 2 ^ 32 + s.stepLo.toNat) →
    ∃ t u, exec (.totp d) s = .next t ∧ t.status.word = 0x001 ∧ t.ctrHi.toNat * 2 ^ 32 + t.ctrLo.toNat = c ∧
      EndsAfter (otpSteps s) t u ∧ OtpPublished (memRead s.mem 0x100 s.keyLen.toNat) c d.toNat u ∧
      u.cmd = 0x00000004 + 16 * d.setWidth 32 ∧ u.seq = Seq.rest ∧ InputsKept s u ∧
      u.ctrHi.toNat * 2 ^ 32 + u.ctrLo.toNat = c

/-- R115, R250, R214: a busy block left alone becomes idle within 2058 core steps, done, valid and without error. -/
def Obligations.BusyBlockEndsWithin2058Steps : Prop :=
  ∀ s : State, StatusInv s → EngineInv s → SequencerInv s → s.status.busy = true → s.pending = [] →
    ∃ n u, n ≤ 2058 ∧ EndsAfter n s u ∧ u.status.done = true ∧ u.status.dv = true ∧ u.status.err = false

/-- R117, R245: two idle states that give a command the same operands, and differ in anything else (earlier results, hidden
registers, bytes past the lengths, operands the command ignores), end the command after the same number of steps, busy before
each of them, with the same STATUS and results, errors included (a command that ends with an error ends in its accept step, after no core step). -/
def Obligations.ResultDependsOnTheOperandsAlone : Prop :=
  ∀ (i : Instr) (s₁ s₂ : State), s₁.status.busy = false → s₂.status.busy = false → s₁.pending = [] → s₂.pending = [] →
    SameOperands i s₁ s₂ →
    ∃ n t₁ t₂ u₁ u₂, exec i s₁ = .next t₁ ∧ exec i s₂ = .next t₂ ∧ EndsAfter n t₁ u₁ ∧ EndsAfter n t₂ u₂ ∧
      u₁.status.done = true ∧ SameResults u₁ u₂

/-! ### The streams of the passes -/

/-- R135, R160, R175: the byte sequence each pass hashes, the two pads and the serialised counter byte by byte. -/
def Obligations.PassStreamsFollowTheirTable : Prop :=
  ∀ s : State,
    (s.seq.pass = .plain → s.stream = memRead s.mem 0x400 s.msgLen.toNat) ∧
    (s.seq.pass = .keyhash → s.stream = memRead s.mem 0x100 s.keyLen.toNat) ∧
    (s.seq.pass = .inner → s.op = 2 →
      s.stream = s.k0.toList.map (fun x => x ^^^ 0x36#8) ++ memRead s.mem 0x400 s.msgLen.toNat) ∧
    (s.seq.pass = .inner → (s.op = 3 ∨ s.op = 4) →
      ∃ c, CounterBytes c (s.ctrHi.toNat * 2 ^ 32 + s.ctrLo.toNat) ∧
        s.stream = s.k0.toList.map (fun x => x ^^^ 0x36#8) ++ c ∧
        (∀ i, i < 4 → (c.getD i 0).toNat = s.ctrHi.toNat / 2 ^ (8 * (3 - i)) % 256 ∧
          (c.getD (4 + i) 0).toNat = s.ctrLo.toNat / 2 ^ (8 * (3 - i)) % 256)) ∧
    (s.seq.pass = .outer → s.stream = s.k0.toList.map (fun x => x ^^^ 0x5c#8) ++ s.idig.toList) ∧
    (∀ a n, (memRead s.mem a n).length = n ∧ ∀ j, j < n → (memRead s.mem a n).getD j 0 = memGet s.mem (a + j))

/-! ### The source's entry points as host programs -/

/-- R100: the programs of `hash(S)` and `hmac(K, M, 64)`, with any number of core steps between their lines (R97), read STATUS
0x00A at WAIT and then the digest of the message, the tag of key and message. -/
def Obligations.HashAndHmacProgramsReadTheirResults : Prop :=
  ∀ (s : State) (key msg : List Byte), memWf s.mem → StatusInv s → s.status.busy = false →
    key.length ≤ 256 → msg.length ≤ 1024 →
    (∀ events, Interleaves (hashProgram msg) events →
      ∃ fuel u, runProgram fuel events s = some (u, 0x00A :: (digestWords (sha1 msg)).toList)) ∧
    (∀ events, Interleaves (hmacProgram key msg) events →
      ∃ fuel u tag, hmac 64 key msg = some tag ∧
        runProgram fuel events s = some (u, 0x00A :: (digestWords tag).toList))

/-- R100, R175 to R181: the HOTP program reads the code of its secret and counter; `generateTotp` answers, with a good clock, the
string or the code of the time counter, and with a clock that is unavailable or before the epoch `ClockError`. -/
def Obligations.OtpProgramsAnswerTheCode : Prop :=
  ∀ (s : State) (secret : List Byte) (d : BitVec 4), memWf s.mem → StatusInv s → s.status.busy = false →
    secret.length ≤ 256 → 1 ≤ d.toNat → d.toNat ≤ 9 →
    (∀ (c : Quad) (events : List Event), Interleaves (hotpProgram secret c d) events →
      ∃ bytes tag code fuel u, CounterBytes bytes c.toNat ∧ hmac 64 secret bytes = some tag ∧
        code.toNat = (dtValue tag).toNat % 10 ^ d.toNat ∧ runProgram fuel events s = some (u, [0x01A, code])) ∧
    (∀ (period : Quad) (events : List Event), period ≠ 0 → s.tOk = true → s.tSec.msb = false →
      Interleaves (totpProgram secret d period) events →
      ∃ bytes tag code, CounterBytes bytes (s.tSec.toNat / period.toNat) ∧ hmac 64 secret bytes = some tag ∧
        code.toNat = (dtValue tag).toNat % 10 ^ d.toNat ∧
        (∃ fuel u values, totpOutcome fuel events readOtpStrLines s = some (u, .words values) ∧
          decimalString d.toNat values = render code.toNat d.toNat) ∧
        (∃ fuel u, totpOutcome fuel events readCodeLine s = some (u, .words [code]))) ∧
    (∀ (period : Quad) (events : List Event), period ≠ 0 → (s.tOk = false ∨ s.tSec.msb = true) →
      Interleaves (totpProgram secret d period) events →
      ∃ fuel u, totpOutcome fuel events readOtpStrLines s = some (u, .clockError) ∧ OtpCleared u)
end

