-- ==== Sys2Proof/Laws/State.lean ====
section
/-! SUPPORT. What each named update of the state leaves in each field: a conjunction per update, true by rfl, that simp reads
as one rewriting per field. -/

namespace Sys2Proof.Machine

/-- The message of the INNER pass is a function of CMD, the message and CTR (R160). -/
theorem State.msel_congr {s t : State} (hc : t.cmd = s.cmd) (hm : t.msg = s.msg) (hk : t.ctr = s.ctr) :
    t.msel = s.msel := by
  have ho : t.op = s.op := by simp only [State.op, hc]
  rw [State.msel, State.msel, ho, hm, hk]

/-- CMD takes the word, STATUS and the results are cleared (R110). -/
@[simp] theorem clearForAccept_fields (word : Word) (s : State) :
    (clearForAccept word s).cmd = word ∧ (clearForAccept word s).status = Status.clear ∧
    (clearForAccept word s).keyLen = s.keyLen ∧ (clearForAccept word s).msgLen = s.msgLen ∧
    (clearForAccept word s).ctrHi = s.ctrHi ∧ (clearForAccept word s).ctrLo = s.ctrLo ∧
    (clearForAccept word s).stepHi = s.stepHi ∧ (clearForAccept word s).stepLo = s.stepLo ∧
    (clearForAccept word s).digest = Vector.replicate 5 0 ∧ (clearForAccept word s).trunc = 0 ∧
    (clearForAccept word s).code = 0 ∧ (clearForAccept word s).otpStr = Vector.replicate 3 0 ∧
    (clearForAccept word s).mem = s.mem ∧ (clearForAccept word s).h = s.h ∧ (clearForAccept word s).work = s.work ∧
    (clearForAccept word s).w = s.w ∧ (clearForAccept word s).k0 = s.k0 ∧ (clearForAccept word s).idig = s.idig ∧
    (clearForAccept word s).tag = s.tag ∧ (clearForAccept word s).toff = s.toff ∧
    (clearForAccept word s).tval = s.tval ∧ (clearForAccept word s).tcode = s.tcode ∧
    (clearForAccept word s).tstr = s.tstr ∧ (clearForAccept word s).seq = s.seq ∧
    (clearForAccept word s).tOk = s.tOk ∧ (clearForAccept word s).tSec = s.tSec ∧
    (clearForAccept word s).rdata = s.rdata ∧ (clearForAccept word s).pending = s.pending := by
  simp only [clearForAccept, and_self]

@[simp] theorem clearForAccept_operands (word : Word) (s : State) :
    (clearForAccept word s).key = s.key ∧ (clearForAccept word s).msg = s.msg ∧ (clearForAccept word s).ctr = s.ctr ∧
    (clearForAccept word s).step64 = s.step64 := by
  simp only [State.key, State.msg, State.ctr, State.step64,
    clearForAccept_fields, and_self]

/-- raising an error writes STATUS alone (R212). -/
@[simp] theorem raise_fields (e : Err) (s : State) :
    (raise e s).cmd = s.cmd ∧ (raise e s).status = s.status.raised e ∧ (raise e s).keyLen = s.keyLen ∧
    (raise e s).msgLen = s.msgLen ∧ (raise e s).ctrHi = s.ctrHi ∧ (raise e s).ctrLo = s.ctrLo ∧
    (raise e s).stepHi = s.stepHi ∧ (raise e s).stepLo = s.stepLo ∧ (raise e s).digest = s.digest ∧
    (raise e s).trunc = s.trunc ∧ (raise e s).code = s.code ∧ (raise e s).otpStr = s.otpStr ∧
    (raise e s).mem = s.mem ∧ (raise e s).h = s.h ∧ (raise e s).work = s.work ∧ (raise e s).w = s.w ∧
    (raise e s).k0 = s.k0 ∧ (raise e s).idig = s.idig ∧ (raise e s).tag = s.tag ∧ (raise e s).toff = s.toff ∧
    (raise e s).tval = s.tval ∧ (raise e s).tcode = s.tcode ∧ (raise e s).tstr = s.tstr ∧ (raise e s).seq = s.seq ∧
    (raise e s).tOk = s.tOk ∧ (raise e s).tSec = s.tSec ∧ (raise e s).rdata = s.rdata ∧
    (raise e s).pending = s.pending := by
  simp only [raise, and_self]

@[simp] theorem raise_operands (e : Err) (s : State) :
    (raise e s).op = s.op ∧ (raise e s).dig = s.dig ∧ (raise e s).isOtp = s.isOtp ∧ (raise e s).key = s.key ∧
    (raise e s).msg = s.msg ∧ (raise e s).ctr = s.ctr ∧ (raise e s).step64 = s.step64 := by
  simp only [State.op, State.dig, State.isOtp, State.key, State.msg, State.ctr, State.step64,
    raise_fields, and_self]

@[simp] theorem raise_msel (e : Err) (s : State) : (raise e s).msel = s.msel :=
  State.msel_congr (by simp only [raise_fields]) (by simp only [raise_operands])
     (by simp only [raise_operands])

/-- starting a command writes BUSY and SEQ (R110). -/
@[simp] theorem begin_fields (phase : Phase) (s : State) :
    (begin phase s).cmd = s.cmd ∧ (begin phase s).status = s.status.started ∧ (begin phase s).keyLen = s.keyLen ∧
    (begin phase s).msgLen = s.msgLen ∧ (begin phase s).ctrHi = s.ctrHi ∧ (begin phase s).ctrLo = s.ctrLo ∧
    (begin phase s).stepHi = s.stepHi ∧ (begin phase s).stepLo = s.stepLo ∧ (begin phase s).digest = s.digest ∧
    (begin phase s).trunc = s.trunc ∧ (begin phase s).code = s.code ∧ (begin phase s).otpStr = s.otpStr ∧
    (begin phase s).mem = s.mem ∧ (begin phase s).h = s.h ∧ (begin phase s).work = s.work ∧ (begin phase s).w = s.w ∧
    (begin phase s).k0 = s.k0 ∧ (begin phase s).idig = s.idig ∧ (begin phase s).tag = s.tag ∧
    (begin phase s).toff = s.toff ∧ (begin phase s).tval = s.tval ∧ (begin phase s).tcode = s.tcode ∧
    (begin phase s).tstr = s.tstr ∧ (begin phase s).seq = ⟨phase, .plain, 0, 0⟩ ∧ (begin phase s).tOk = s.tOk ∧
    (begin phase s).tSec = s.tSec ∧ (begin phase s).rdata = s.rdata ∧ (begin phase s).pending = s.pending := by
  simp only [begin, and_self]

@[simp] theorem begin_operands (phase : Phase) (s : State) :
    (begin phase s).op = s.op ∧ (begin phase s).dig = s.dig ∧ (begin phase s).isOtp = s.isOtp ∧
    (begin phase s).key = s.key ∧ (begin phase s).msg = s.msg ∧ (begin phase s).ctr = s.ctr ∧
    (begin phase s).step64 = s.step64 := by
  simp only [State.op, State.dig, State.isOtp, State.key, State.msg, State.ctr, State.step64,
    begin_fields, and_self]

@[simp] theorem begin_msel (phase : Phase) (s : State) : (begin phase s).msel = s.msel :=
  State.msel_congr (by simp only [begin_fields]) (by simp only [begin_operands])
     (by simp only [begin_operands])

/-- latching the counter writes CTR alone (R176). -/
@[simp] theorem latchCounter_fields (s : State) :
    (latchCounter s).cmd = s.cmd ∧ (latchCounter s).status = s.status ∧ (latchCounter s).keyLen = s.keyLen ∧
    (latchCounter s).msgLen = s.msgLen ∧ (latchCounter s).stepHi = s.stepHi ∧ (latchCounter s).stepLo = s.stepLo ∧
    (latchCounter s).digest = s.digest ∧ (latchCounter s).trunc = s.trunc ∧ (latchCounter s).code = s.code ∧
    (latchCounter s).otpStr = s.otpStr ∧ (latchCounter s).mem = s.mem ∧ (latchCounter s).h = s.h ∧
    (latchCounter s).work = s.work ∧ (latchCounter s).w = s.w ∧ (latchCounter s).k0 = s.k0 ∧
    (latchCounter s).idig = s.idig ∧ (latchCounter s).tag = s.tag ∧ (latchCounter s).toff = s.toff ∧
    (latchCounter s).tval = s.tval ∧ (latchCounter s).tcode = s.tcode ∧ (latchCounter s).tstr = s.tstr ∧
    (latchCounter s).seq = s.seq ∧ (latchCounter s).tOk = s.tOk ∧ (latchCounter s).tSec = s.tSec ∧
    (latchCounter s).rdata = s.rdata ∧ (latchCounter s).pending = s.pending := by
  simp only [latchCounter, and_self]

@[simp] theorem latchCounter_operands (s : State) :
    (latchCounter s).op = s.op ∧ (latchCounter s).dig = s.dig ∧ (latchCounter s).isOtp = s.isOtp ∧
    (latchCounter s).key = s.key ∧ (latchCounter s).msg = s.msg ∧ (latchCounter s).step64 = s.step64 := by
  simp only [State.op, State.dig, State.isOtp, State.key, State.msg, State.step64,
    latchCounter_fields, and_self]

/-- a host read drives h_rdata alone (R63). -/
@[simp] theorem hostRead_fields (a : WordIndex) (s : State) :
    (hostRead a s).cmd = s.cmd ∧ (hostRead a s).status = s.status ∧ (hostRead a s).keyLen = s.keyLen ∧
    (hostRead a s).msgLen = s.msgLen ∧ (hostRead a s).ctrHi = s.ctrHi ∧ (hostRead a s).ctrLo = s.ctrLo ∧
    (hostRead a s).stepHi = s.stepHi ∧ (hostRead a s).stepLo = s.stepLo ∧ (hostRead a s).digest = s.digest ∧
    (hostRead a s).trunc = s.trunc ∧ (hostRead a s).code = s.code ∧ (hostRead a s).otpStr = s.otpStr ∧
    (hostRead a s).mem = s.mem ∧ (hostRead a s).h = s.h ∧ (hostRead a s).work = s.work ∧ (hostRead a s).w = s.w ∧
    (hostRead a s).k0 = s.k0 ∧ (hostRead a s).idig = s.idig ∧ (hostRead a s).tag = s.tag ∧
    (hostRead a s).toff = s.toff ∧ (hostRead a s).tval = s.tval ∧ (hostRead a s).tcode = s.tcode ∧
    (hostRead a s).tstr = s.tstr ∧ (hostRead a s).seq = s.seq ∧ (hostRead a s).tOk = s.tOk ∧
    (hostRead a s).tSec = s.tSec ∧ (hostRead a s).rdata = some (readWord a s) ∧
    (hostRead a s).pending = s.pending := by
  simp only [hostRead, and_self]

@[simp] theorem hostRead_operands (a : WordIndex) (s : State) :
    (hostRead a s).op = s.op ∧ (hostRead a s).dig = s.dig ∧ (hostRead a s).isOtp = s.isOtp ∧
    (hostRead a s).key = s.key ∧ (hostRead a s).msg = s.msg ∧ (hostRead a s).ctr = s.ctr ∧
    (hostRead a s).step64 = s.step64 := by
  simp only [State.op, State.dig, State.isOtp, State.key, State.msg, State.ctr, State.step64,
    hostRead_fields, and_self]

@[simp] theorem hostRead_msel (a : WordIndex) (s : State) : (hostRead a s).msel = s.msel :=
  State.msel_congr (by simp only [hostRead_fields]) (by simp only [hostRead_operands])
     (by simp only [hostRead_operands])

/-- KEYSEL, a long key (R161). -/
@[simp] theorem stepKeyselLong_fields (s : State) :
    (stepKeyselLong s).cmd = s.cmd ∧ (stepKeyselLong s).status = s.status ∧ (stepKeyselLong s).keyLen = s.keyLen ∧
    (stepKeyselLong s).msgLen = s.msgLen ∧ (stepKeyselLong s).ctrHi = s.ctrHi ∧ (stepKeyselLong s).ctrLo = s.ctrLo ∧
    (stepKeyselLong s).stepHi = s.stepHi ∧ (stepKeyselLong s).stepLo = s.stepLo ∧
    (stepKeyselLong s).digest = s.digest ∧ (stepKeyselLong s).trunc = s.trunc ∧ (stepKeyselLong s).code = s.code ∧
    (stepKeyselLong s).otpStr = s.otpStr ∧ (stepKeyselLong s).mem = s.mem ∧ (stepKeyselLong s).h = s.h ∧
    (stepKeyselLong s).work = s.work ∧ (stepKeyselLong s).w = s.w ∧ (stepKeyselLong s).k0 = s.k0 ∧
    (stepKeyselLong s).idig = s.idig ∧ (stepKeyselLong s).tag = s.tag ∧ (stepKeyselLong s).toff = s.toff ∧
    (stepKeyselLong s).tval = s.tval ∧ (stepKeyselLong s).tcode = s.tcode ∧ (stepKeyselLong s).tstr = s.tstr ∧
    (stepKeyselLong s).seq = { s.seq with pass := .keyhash, phase := .init } ∧ (stepKeyselLong s).tOk = s.tOk ∧
    (stepKeyselLong s).tSec = s.tSec ∧ (stepKeyselLong s).rdata = s.rdata ∧
    (stepKeyselLong s).pending = s.pending := by
  simp only [stepKeyselLong, and_self]

@[simp] theorem stepKeyselLong_operands (s : State) :
    (stepKeyselLong s).op = s.op ∧ (stepKeyselLong s).dig = s.dig ∧ (stepKeyselLong s).isOtp = s.isOtp ∧
    (stepKeyselLong s).key = s.key ∧ (stepKeyselLong s).msg = s.msg ∧ (stepKeyselLong s).ctr = s.ctr ∧
    (stepKeyselLong s).step64 = s.step64 := by
  simp only [State.op, State.dig, State.isOtp, State.key, State.msg, State.ctr, State.step64,
    stepKeyselLong_fields, and_self]

@[simp] theorem stepKeyselLong_msel (s : State) : (stepKeyselLong s).msel = s.msel :=
  State.msel_congr (by simp only [stepKeyselLong_fields]) (by simp only [stepKeyselLong_operands])
     (by simp only [stepKeyselLong_operands])

/-- KEYSEL, a short key (R161). -/
@[simp] theorem stepKeyselShort_fields (s : State) :
    (stepKeyselShort s).cmd = s.cmd ∧ (stepKeyselShort s).status = s.status ∧ (stepKeyselShort s).keyLen = s.keyLen ∧
    (stepKeyselShort s).msgLen = s.msgLen ∧ (stepKeyselShort s).ctrHi = s.ctrHi ∧
    (stepKeyselShort s).ctrLo = s.ctrLo ∧ (stepKeyselShort s).stepHi = s.stepHi ∧
    (stepKeyselShort s).stepLo = s.stepLo ∧ (stepKeyselShort s).digest = s.digest ∧
    (stepKeyselShort s).trunc = s.trunc ∧ (stepKeyselShort s).code = s.code ∧ (stepKeyselShort s).otpStr = s.otpStr ∧
    (stepKeyselShort s).mem = s.mem ∧ (stepKeyselShort s).h = s.h ∧ (stepKeyselShort s).work = s.work ∧
    (stepKeyselShort s).w = s.w ∧ (stepKeyselShort s).k0 = fill64 s.key ∧ (stepKeyselShort s).idig = s.idig ∧
    (stepKeyselShort s).tag = s.tag ∧ (stepKeyselShort s).toff = s.toff ∧ (stepKeyselShort s).tval = s.tval ∧
    (stepKeyselShort s).tcode = s.tcode ∧ (stepKeyselShort s).tstr = s.tstr ∧
    (stepKeyselShort s).seq = { s.seq with pass := .inner, phase := .init } ∧ (stepKeyselShort s).tOk = s.tOk ∧
    (stepKeyselShort s).tSec = s.tSec ∧ (stepKeyselShort s).rdata = s.rdata ∧
    (stepKeyselShort s).pending = s.pending := by
  simp only [stepKeyselShort, and_self]

@[simp] theorem stepKeyselShort_operands (s : State) :
    (stepKeyselShort s).op = s.op ∧ (stepKeyselShort s).dig = s.dig ∧ (stepKeyselShort s).isOtp = s.isOtp ∧
    (stepKeyselShort s).key = s.key ∧ (stepKeyselShort s).msg = s.msg ∧ (stepKeyselShort s).ctr = s.ctr ∧
    (stepKeyselShort s).step64 = s.step64 := by
  simp only [State.op, State.dig, State.isOtp, State.key, State.msg, State.ctr, State.step64,
    stepKeyselShort_fields, and_self]

@[simp] theorem stepKeyselShort_msel (s : State) : (stepKeyselShort s).msel = s.msel :=
  State.msel_congr (by simp only [stepKeyselShort_fields]) (by simp only [stepKeyselShort_operands])
     (by simp only [stepKeyselShort_operands])

/-- INIT (R136). -/
@[simp] theorem stepInit_fields (s : State) :
    (stepInit s).cmd = s.cmd ∧ (stepInit s).status = s.status ∧ (stepInit s).keyLen = s.keyLen ∧
    (stepInit s).msgLen = s.msgLen ∧ (stepInit s).ctrHi = s.ctrHi ∧ (stepInit s).ctrLo = s.ctrLo ∧
    (stepInit s).stepHi = s.stepHi ∧ (stepInit s).stepLo = s.stepLo ∧ (stepInit s).digest = s.digest ∧
    (stepInit s).trunc = s.trunc ∧ (stepInit s).code = s.code ∧ (stepInit s).otpStr = s.otpStr ∧
    (stepInit s).mem = s.mem ∧ (stepInit s).h = iv ∧ (stepInit s).work = s.work ∧ (stepInit s).w = s.w ∧
    (stepInit s).k0 = s.k0 ∧ (stepInit s).idig = s.idig ∧ (stepInit s).tag = s.tag ∧ (stepInit s).toff = s.toff ∧
    (stepInit s).tval = s.tval ∧ (stepInit s).tcode = s.tcode ∧ (stepInit s).tstr = s.tstr ∧
    (stepInit s).seq = { s.seq with blk := 0, phase := .load } ∧ (stepInit s).tOk = s.tOk ∧
    (stepInit s).tSec = s.tSec ∧ (stepInit s).rdata = s.rdata ∧ (stepInit s).pending = s.pending := by
  simp only [stepInit, and_self]

@[simp] theorem stepInit_operands (s : State) :
    (stepInit s).op = s.op ∧ (stepInit s).dig = s.dig ∧ (stepInit s).isOtp = s.isOtp ∧ (stepInit s).key = s.key ∧
    (stepInit s).msg = s.msg ∧ (stepInit s).ctr = s.ctr ∧ (stepInit s).step64 = s.step64 := by
  simp only [State.op, State.dig, State.isOtp, State.key, State.msg, State.ctr, State.step64,
    stepInit_fields, and_self]

@[simp] theorem stepInit_msel (s : State) : (stepInit s).msel = s.msel :=
  State.msel_congr (by simp only [stepInit_fields]) (by simp only [stepInit_operands])
     (by simp only [stepInit_operands])

/-- LOAD (R137). -/
@[simp] theorem stepLoad_fields (s : State) :
    (stepLoad s).cmd = s.cmd ∧ (stepLoad s).status = s.status ∧ (stepLoad s).keyLen = s.keyLen ∧
    (stepLoad s).msgLen = s.msgLen ∧ (stepLoad s).ctrHi = s.ctrHi ∧ (stepLoad s).ctrLo = s.ctrLo ∧
    (stepLoad s).stepHi = s.stepHi ∧ (stepLoad s).stepLo = s.stepLo ∧ (stepLoad s).digest = s.digest ∧
    (stepLoad s).trunc = s.trunc ∧ (stepLoad s).code = s.code ∧ (stepLoad s).otpStr = s.otpStr ∧
    (stepLoad s).mem = s.mem ∧ (stepLoad s).h = s.h ∧ (stepLoad s).work = workOf s.h ∧
    (stepLoad s).w = schedule (blockWords s.padded s.seq.blk) ∧ (stepLoad s).k0 = s.k0 ∧ (stepLoad s).idig = s.idig ∧
    (stepLoad s).tag = s.tag ∧ (stepLoad s).toff = s.toff ∧ (stepLoad s).tval = s.tval ∧
    (stepLoad s).tcode = s.tcode ∧ (stepLoad s).tstr = s.tstr ∧
    (stepLoad s).seq = { s.seq with t := 0, phase := .round } ∧ (stepLoad s).tOk = s.tOk ∧
    (stepLoad s).tSec = s.tSec ∧ (stepLoad s).rdata = s.rdata ∧ (stepLoad s).pending = s.pending := by
  simp only [stepLoad, and_self]

@[simp] theorem stepLoad_operands (s : State) :
    (stepLoad s).op = s.op ∧ (stepLoad s).dig = s.dig ∧ (stepLoad s).isOtp = s.isOtp ∧ (stepLoad s).key = s.key ∧
    (stepLoad s).msg = s.msg ∧ (stepLoad s).ctr = s.ctr ∧ (stepLoad s).step64 = s.step64 := by
  simp only [State.op, State.dig, State.isOtp, State.key, State.msg, State.ctr, State.step64,
    stepLoad_fields, and_self]

@[simp] theorem stepLoad_msel (s : State) : (stepLoad s).msel = s.msel :=
  State.msel_congr (by simp only [stepLoad_fields]) (by simp only [stepLoad_operands])
     (by simp only [stepLoad_operands])

/-- ROUND (R138). -/
@[simp] theorem stepRound_fields (s : State) :
    (stepRound s).cmd = s.cmd ∧ (stepRound s).status = s.status ∧ (stepRound s).keyLen = s.keyLen ∧
    (stepRound s).msgLen = s.msgLen ∧ (stepRound s).ctrHi = s.ctrHi ∧ (stepRound s).ctrLo = s.ctrLo ∧
    (stepRound s).stepHi = s.stepHi ∧ (stepRound s).stepLo = s.stepLo ∧ (stepRound s).digest = s.digest ∧
    (stepRound s).trunc = s.trunc ∧ (stepRound s).code = s.code ∧ (stepRound s).otpStr = s.otpStr ∧
    (stepRound s).mem = s.mem ∧ (stepRound s).h = s.h ∧
    (stepRound s).work = oneRound s.seq.t.val s.w[s.seq.t] s.work ∧ (stepRound s).w = s.w ∧ (stepRound s).k0 = s.k0 ∧
    (stepRound s).idig = s.idig ∧ (stepRound s).tag = s.tag ∧ (stepRound s).toff = s.toff ∧
    (stepRound s).tval = s.tval ∧ (stepRound s).tcode = s.tcode ∧ (stepRound s).tstr = s.tstr ∧
    (stepRound s).seq = s.seq.afterRound ∧ (stepRound s).tOk = s.tOk ∧ (stepRound s).tSec = s.tSec ∧
    (stepRound s).rdata = s.rdata ∧ (stepRound s).pending = s.pending := by
  simp only [stepRound, and_self]

@[simp] theorem stepRound_operands (s : State) :
    (stepRound s).op = s.op ∧ (stepRound s).dig = s.dig ∧ (stepRound s).isOtp = s.isOtp ∧ (stepRound s).key = s.key ∧
    (stepRound s).msg = s.msg ∧ (stepRound s).ctr = s.ctr ∧ (stepRound s).step64 = s.step64 := by
  simp only [State.op, State.dig, State.isOtp, State.key, State.msg, State.ctr, State.step64,
    stepRound_fields, and_self]

@[simp] theorem stepRound_msel (s : State) : (stepRound s).msel = s.msel :=
  State.msel_congr (by simp only [stepRound_fields]) (by simp only [stepRound_operands])
     (by simp only [stepRound_operands])

/-- ADD (R139). -/
@[simp] theorem stepAdd_fields (s : State) :
    (stepAdd s).cmd = s.cmd ∧ (stepAdd s).status = s.status ∧ (stepAdd s).keyLen = s.keyLen ∧
    (stepAdd s).msgLen = s.msgLen ∧ (stepAdd s).ctrHi = s.ctrHi ∧ (stepAdd s).ctrLo = s.ctrLo ∧
    (stepAdd s).stepHi = s.stepHi ∧ (stepAdd s).stepLo = s.stepLo ∧ (stepAdd s).digest = s.digest ∧
    (stepAdd s).trunc = s.trunc ∧ (stepAdd s).code = s.code ∧ (stepAdd s).otpStr = s.otpStr ∧
    (stepAdd s).mem = s.mem ∧ (stepAdd s).h = addWork s.h s.work ∧ (stepAdd s).work = s.work ∧ (stepAdd s).w = s.w ∧
    (stepAdd s).k0 = s.k0 ∧ (stepAdd s).idig = s.idig ∧ (stepAdd s).tag = s.tag ∧ (stepAdd s).toff = s.toff ∧
    (stepAdd s).tval = s.tval ∧ (stepAdd s).tcode = s.tcode ∧ (stepAdd s).tstr = s.tstr ∧
    (stepAdd s).seq = s.seq.afterAdd s.nb ∧ (stepAdd s).tOk = s.tOk ∧ (stepAdd s).tSec = s.tSec ∧
    (stepAdd s).rdata = s.rdata ∧ (stepAdd s).pending = s.pending := by
  simp only [stepAdd, and_self]

@[simp] theorem stepAdd_operands (s : State) :
    (stepAdd s).op = s.op ∧ (stepAdd s).dig = s.dig ∧ (stepAdd s).isOtp = s.isOtp ∧ (stepAdd s).key = s.key ∧
    (stepAdd s).msg = s.msg ∧ (stepAdd s).ctr = s.ctr ∧ (stepAdd s).step64 = s.step64 := by
  simp only [State.op, State.dig, State.isOtp, State.key, State.msg, State.ctr, State.step64,
    stepAdd_fields, and_self]

@[simp] theorem stepAdd_msel (s : State) : (stepAdd s).msel = s.msel :=
  State.msel_congr (by simp only [stepAdd_fields]) (by simp only [stepAdd_operands])
     (by simp only [stepAdd_operands])

/-- PASSEND, PLAIN (R140). -/
@[simp] theorem stepPassendPlain_fields (s : State) :
    (stepPassendPlain s).cmd = s.cmd ∧ (stepPassendPlain s).status = s.status ∧
    (stepPassendPlain s).keyLen = s.keyLen ∧ (stepPassendPlain s).msgLen = s.msgLen ∧
    (stepPassendPlain s).ctrHi = s.ctrHi ∧ (stepPassendPlain s).ctrLo = s.ctrLo ∧
    (stepPassendPlain s).stepHi = s.stepHi ∧ (stepPassendPlain s).stepLo = s.stepLo ∧
    (stepPassendPlain s).digest = s.digest ∧ (stepPassendPlain s).trunc = s.trunc ∧
    (stepPassendPlain s).code = s.code ∧ (stepPassendPlain s).otpStr = s.otpStr ∧ (stepPassendPlain s).mem = s.mem ∧
    (stepPassendPlain s).h = s.h ∧ (stepPassendPlain s).work = s.work ∧ (stepPassendPlain s).w = s.w ∧
    (stepPassendPlain s).k0 = s.k0 ∧ (stepPassendPlain s).idig = s.idig ∧ (stepPassendPlain s).tag = d20 s.h ∧
    (stepPassendPlain s).toff = s.toff ∧ (stepPassendPlain s).tval = s.tval ∧ (stepPassendPlain s).tcode = s.tcode ∧
    (stepPassendPlain s).tstr = s.tstr ∧ (stepPassendPlain s).seq = { s.seq with phase := .finish } ∧
    (stepPassendPlain s).tOk = s.tOk ∧ (stepPassendPlain s).tSec = s.tSec ∧ (stepPassendPlain s).rdata = s.rdata ∧
    (stepPassendPlain s).pending = s.pending := by
  simp only [stepPassendPlain, and_self]

@[simp] theorem stepPassendPlain_operands (s : State) :
    (stepPassendPlain s).op = s.op ∧ (stepPassendPlain s).dig = s.dig ∧ (stepPassendPlain s).isOtp = s.isOtp ∧
    (stepPassendPlain s).key = s.key ∧ (stepPassendPlain s).msg = s.msg ∧ (stepPassendPlain s).ctr = s.ctr ∧
    (stepPassendPlain s).step64 = s.step64 := by
  simp only [State.op, State.dig, State.isOtp, State.key, State.msg, State.ctr, State.step64,
    stepPassendPlain_fields, and_self]

@[simp] theorem stepPassendPlain_msel (s : State) : (stepPassendPlain s).msel = s.msel :=
  State.msel_congr (by simp only [stepPassendPlain_fields]) (by simp only [stepPassendPlain_operands])
     (by simp only [stepPassendPlain_operands])

/-- PASSEND, KEYHASH (R162). -/
@[simp] theorem stepPassendKeyhash_fields (s : State) :
    (stepPassendKeyhash s).cmd = s.cmd ∧ (stepPassendKeyhash s).status = s.status ∧
    (stepPassendKeyhash s).keyLen = s.keyLen ∧ (stepPassendKeyhash s).msgLen = s.msgLen ∧
    (stepPassendKeyhash s).ctrHi = s.ctrHi ∧ (stepPassendKeyhash s).ctrLo = s.ctrLo ∧
    (stepPassendKeyhash s).stepHi = s.stepHi ∧ (stepPassendKeyhash s).stepLo = s.stepLo ∧
    (stepPassendKeyhash s).digest = s.digest ∧ (stepPassendKeyhash s).trunc = s.trunc ∧
    (stepPassendKeyhash s).code = s.code ∧ (stepPassendKeyhash s).otpStr = s.otpStr ∧
    (stepPassendKeyhash s).mem = s.mem ∧ (stepPassendKeyhash s).h = s.h ∧ (stepPassendKeyhash s).work = s.work ∧
    (stepPassendKeyhash s).w = s.w ∧ (stepPassendKeyhash s).k0 = fill64 (d20 s.h).toList ∧
    (stepPassendKeyhash s).idig = s.idig ∧ (stepPassendKeyhash s).tag = s.tag ∧
    (stepPassendKeyhash s).toff = s.toff ∧ (stepPassendKeyhash s).tval = s.tval ∧
    (stepPassendKeyhash s).tcode = s.tcode ∧ (stepPassendKeyhash s).tstr = s.tstr ∧
    (stepPassendKeyhash s).seq = { s.seq with pass := .inner, phase := .init } ∧ (stepPassendKeyhash s).tOk = s.tOk ∧
    (stepPassendKeyhash s).tSec = s.tSec ∧ (stepPassendKeyhash s).rdata = s.rdata ∧
    (stepPassendKeyhash s).pending = s.pending := by
  simp only [stepPassendKeyhash, and_self]

@[simp] theorem stepPassendKeyhash_operands (s : State) :
    (stepPassendKeyhash s).op = s.op ∧ (stepPassendKeyhash s).dig = s.dig ∧ (stepPassendKeyhash s).isOtp = s.isOtp ∧
    (stepPassendKeyhash s).key = s.key ∧ (stepPassendKeyhash s).msg = s.msg ∧ (stepPassendKeyhash s).ctr = s.ctr ∧
    (stepPassendKeyhash s).step64 = s.step64 := by
  simp only [State.op, State.dig, State.isOtp, State.key, State.msg, State.ctr, State.step64,
    stepPassendKeyhash_fields, and_self]

@[simp] theorem stepPassendKeyhash_msel (s : State) : (stepPassendKeyhash s).msel = s.msel :=
  State.msel_congr (by simp only [stepPassendKeyhash_fields]) (by simp only [stepPassendKeyhash_operands])
     (by simp only [stepPassendKeyhash_operands])

/-- PASSEND, INNER (R163). -/
@[simp] theorem stepPassendInner_fields (s : State) :
    (stepPassendInner s).cmd = s.cmd ∧ (stepPassendInner s).status = s.status ∧
    (stepPassendInner s).keyLen = s.keyLen ∧ (stepPassendInner s).msgLen = s.msgLen ∧
    (stepPassendInner s).ctrHi = s.ctrHi ∧ (stepPassendInner s).ctrLo = s.ctrLo ∧
    (stepPassendInner s).stepHi = s.stepHi ∧ (stepPassendInner s).stepLo = s.stepLo ∧
    (stepPassendInner s).digest = s.digest ∧ (stepPassendInner s).trunc = s.trunc ∧
    (stepPassendInner s).code = s.code ∧ (stepPassendInner s).otpStr = s.otpStr ∧ (stepPassendInner s).mem = s.mem ∧
    (stepPassendInner s).h = s.h ∧ (stepPassendInner s).work = s.work ∧ (stepPassendInner s).w = s.w ∧
    (stepPassendInner s).k0 = s.k0 ∧ (stepPassendInner s).idig = d20 s.h ∧ (stepPassendInner s).tag = s.tag ∧
    (stepPassendInner s).toff = s.toff ∧ (stepPassendInner s).tval = s.tval ∧ (stepPassendInner s).tcode = s.tcode ∧
    (stepPassendInner s).tstr = s.tstr ∧ (stepPassendInner s).seq = { s.seq with pass := .outer, phase := .init } ∧
    (stepPassendInner s).tOk = s.tOk ∧ (stepPassendInner s).tSec = s.tSec ∧ (stepPassendInner s).rdata = s.rdata ∧
    (stepPassendInner s).pending = s.pending := by
  simp only [stepPassendInner, and_self]

@[simp] theorem stepPassendInner_operands (s : State) :
    (stepPassendInner s).op = s.op ∧ (stepPassendInner s).dig = s.dig ∧ (stepPassendInner s).isOtp = s.isOtp ∧
    (stepPassendInner s).key = s.key ∧ (stepPassendInner s).msg = s.msg ∧ (stepPassendInner s).ctr = s.ctr ∧
    (stepPassendInner s).step64 = s.step64 := by
  simp only [State.op, State.dig, State.isOtp, State.key, State.msg, State.ctr, State.step64,
    stepPassendInner_fields, and_self]

@[simp] theorem stepPassendInner_msel (s : State) : (stepPassendInner s).msel = s.msel :=
  State.msel_congr (by simp only [stepPassendInner_fields]) (by simp only [stepPassendInner_operands])
     (by simp only [stepPassendInner_operands])

/-- PASSEND, OUTER (R164). -/
@[simp] theorem stepPassendOuter_fields (s : State) :
    (stepPassendOuter s).cmd = s.cmd ∧ (stepPassendOuter s).status = s.status ∧
    (stepPassendOuter s).keyLen = s.keyLen ∧ (stepPassendOuter s).msgLen = s.msgLen ∧
    (stepPassendOuter s).ctrHi = s.ctrHi ∧ (stepPassendOuter s).ctrLo = s.ctrLo ∧
    (stepPassendOuter s).stepHi = s.stepHi ∧ (stepPassendOuter s).stepLo = s.stepLo ∧
    (stepPassendOuter s).digest = s.digest ∧ (stepPassendOuter s).trunc = s.trunc ∧
    (stepPassendOuter s).code = s.code ∧ (stepPassendOuter s).otpStr = s.otpStr ∧ (stepPassendOuter s).mem = s.mem ∧
    (stepPassendOuter s).h = s.h ∧ (stepPassendOuter s).work = s.work ∧ (stepPassendOuter s).w = s.w ∧
    (stepPassendOuter s).k0 = s.k0 ∧ (stepPassendOuter s).idig = s.idig ∧ (stepPassendOuter s).tag = d20 s.h ∧
    (stepPassendOuter s).toff = s.toff ∧ (stepPassendOuter s).tval = s.tval ∧ (stepPassendOuter s).tcode = s.tcode ∧
    (stepPassendOuter s).tstr = s.tstr ∧
    (stepPassendOuter s).seq = { s.seq with phase := if s.isOtp then .trunc else .finish } ∧
    (stepPassendOuter s).tOk = s.tOk ∧ (stepPassendOuter s).tSec = s.tSec ∧ (stepPassendOuter s).rdata = s.rdata ∧
    (stepPassendOuter s).pending = s.pending := by
  simp only [stepPassendOuter, and_self]

@[simp] theorem stepPassendOuter_operands (s : State) :
    (stepPassendOuter s).op = s.op ∧ (stepPassendOuter s).dig = s.dig ∧ (stepPassendOuter s).isOtp = s.isOtp ∧
    (stepPassendOuter s).key = s.key ∧ (stepPassendOuter s).msg = s.msg ∧ (stepPassendOuter s).ctr = s.ctr ∧
    (stepPassendOuter s).step64 = s.step64 := by
  simp only [State.op, State.dig, State.isOtp, State.key, State.msg, State.ctr, State.step64,
    stepPassendOuter_fields, and_self]

@[simp] theorem stepPassendOuter_msel (s : State) : (stepPassendOuter s).msel = s.msel :=
  State.msel_congr (by simp only [stepPassendOuter_fields]) (by simp only [stepPassendOuter_operands])
     (by simp only [stepPassendOuter_operands])

/-- TRUNC (R182). -/
@[simp] theorem stepTrunc_fields (s : State) :
    (stepTrunc s).cmd = s.cmd ∧ (stepTrunc s).status = s.status ∧ (stepTrunc s).keyLen = s.keyLen ∧
    (stepTrunc s).msgLen = s.msgLen ∧ (stepTrunc s).ctrHi = s.ctrHi ∧ (stepTrunc s).ctrLo = s.ctrLo ∧
    (stepTrunc s).stepHi = s.stepHi ∧ (stepTrunc s).stepLo = s.stepLo ∧ (stepTrunc s).digest = s.digest ∧
    (stepTrunc s).trunc = s.trunc ∧ (stepTrunc s).code = s.code ∧ (stepTrunc s).otpStr = s.otpStr ∧
    (stepTrunc s).mem = s.mem ∧ (stepTrunc s).h = s.h ∧ (stepTrunc s).work = s.work ∧ (stepTrunc s).w = s.w ∧
    (stepTrunc s).k0 = s.k0 ∧ (stepTrunc s).idig = s.idig ∧ (stepTrunc s).tag = s.tag ∧
    (stepTrunc s).toff = dtOffset s.tag ∧ (stepTrunc s).tval = dtValue s.tag ∧ (stepTrunc s).tcode = s.tcode ∧
    (stepTrunc s).tstr = s.tstr ∧ (stepTrunc s).seq = { s.seq with phase := .reduce } ∧ (stepTrunc s).tOk = s.tOk ∧
    (stepTrunc s).tSec = s.tSec ∧ (stepTrunc s).rdata = s.rdata ∧ (stepTrunc s).pending = s.pending := by
  simp only [stepTrunc, and_self]

@[simp] theorem stepTrunc_operands (s : State) :
    (stepTrunc s).op = s.op ∧ (stepTrunc s).dig = s.dig ∧ (stepTrunc s).isOtp = s.isOtp ∧ (stepTrunc s).key = s.key ∧
    (stepTrunc s).msg = s.msg ∧ (stepTrunc s).ctr = s.ctr ∧ (stepTrunc s).step64 = s.step64 := by
  simp only [State.op, State.dig, State.isOtp, State.key, State.msg, State.ctr, State.step64,
    stepTrunc_fields, and_self]

@[simp] theorem stepTrunc_msel (s : State) : (stepTrunc s).msel = s.msel :=
  State.msel_congr (by simp only [stepTrunc_fields]) (by simp only [stepTrunc_operands])
     (by simp only [stepTrunc_operands])

/-- REDUCE (R183). -/
@[simp] theorem stepReduce_fields (s : State) :
    (stepReduce s).cmd = s.cmd ∧ (stepReduce s).status = s.status ∧ (stepReduce s).keyLen = s.keyLen ∧
    (stepReduce s).msgLen = s.msgLen ∧ (stepReduce s).ctrHi = s.ctrHi ∧ (stepReduce s).ctrLo = s.ctrLo ∧
    (stepReduce s).stepHi = s.stepHi ∧ (stepReduce s).stepLo = s.stepLo ∧ (stepReduce s).digest = s.digest ∧
    (stepReduce s).trunc = s.trunc ∧ (stepReduce s).code = s.code ∧ (stepReduce s).otpStr = s.otpStr ∧
    (stepReduce s).mem = s.mem ∧ (stepReduce s).h = s.h ∧ (stepReduce s).work = s.work ∧ (stepReduce s).w = s.w ∧
    (stepReduce s).k0 = s.k0 ∧ (stepReduce s).idig = s.idig ∧ (stepReduce s).tag = s.tag ∧
    (stepReduce s).toff = s.toff ∧ (stepReduce s).tval = s.tval ∧ (stepReduce s).tcode = reduceCode s.tval s.dig ∧
    (stepReduce s).tstr = s.tstr ∧ (stepReduce s).seq = { s.seq with phase := .render } ∧
    (stepReduce s).tOk = s.tOk ∧ (stepReduce s).tSec = s.tSec ∧ (stepReduce s).rdata = s.rdata ∧
    (stepReduce s).pending = s.pending := by
  simp only [stepReduce, and_self]

@[simp] theorem stepReduce_operands (s : State) :
    (stepReduce s).op = s.op ∧ (stepReduce s).dig = s.dig ∧ (stepReduce s).isOtp = s.isOtp ∧
    (stepReduce s).key = s.key ∧ (stepReduce s).msg = s.msg ∧ (stepReduce s).ctr = s.ctr ∧
    (stepReduce s).step64 = s.step64 := by
  simp only [State.op, State.dig, State.isOtp, State.key, State.msg, State.ctr, State.step64,
    stepReduce_fields, and_self]

@[simp] theorem stepReduce_msel (s : State) : (stepReduce s).msel = s.msel :=
  State.msel_congr (by simp only [stepReduce_fields]) (by simp only [stepReduce_operands])
     (by simp only [stepReduce_operands])

/-- RENDER (R184). -/
@[simp] theorem stepRender_fields (s : State) :
    (stepRender s).cmd = s.cmd ∧ (stepRender s).status = s.status ∧ (stepRender s).keyLen = s.keyLen ∧
    (stepRender s).msgLen = s.msgLen ∧ (stepRender s).ctrHi = s.ctrHi ∧ (stepRender s).ctrLo = s.ctrLo ∧
    (stepRender s).stepHi = s.stepHi ∧ (stepRender s).stepLo = s.stepLo ∧ (stepRender s).digest = s.digest ∧
    (stepRender s).trunc = s.trunc ∧ (stepRender s).code = s.code ∧ (stepRender s).otpStr = s.otpStr ∧
    (stepRender s).mem = s.mem ∧ (stepRender s).h = s.h ∧ (stepRender s).work = s.work ∧ (stepRender s).w = s.w ∧
    (stepRender s).k0 = s.k0 ∧ (stepRender s).idig = s.idig ∧ (stepRender s).tag = s.tag ∧
    (stepRender s).toff = s.toff ∧ (stepRender s).tval = s.tval ∧ (stepRender s).tcode = s.tcode ∧
    (stepRender s).tstr = renderField s.tcode.toNat s.dig ∧ (stepRender s).seq = { s.seq with phase := .finish } ∧
    (stepRender s).tOk = s.tOk ∧ (stepRender s).tSec = s.tSec ∧ (stepRender s).rdata = s.rdata ∧
    (stepRender s).pending = s.pending := by
  simp only [stepRender, and_self]

@[simp] theorem stepRender_operands (s : State) :
    (stepRender s).op = s.op ∧ (stepRender s).dig = s.dig ∧ (stepRender s).isOtp = s.isOtp ∧
    (stepRender s).key = s.key ∧ (stepRender s).msg = s.msg ∧ (stepRender s).ctr = s.ctr ∧
    (stepRender s).step64 = s.step64 := by
  simp only [State.op, State.dig, State.isOtp, State.key, State.msg, State.ctr, State.step64,
    stepRender_fields, and_self]

@[simp] theorem stepRender_msel (s : State) : (stepRender s).msel = s.msel :=
  State.msel_congr (by simp only [stepRender_fields]) (by simp only [stepRender_operands])
     (by simp only [stepRender_operands])

/-- FINISH (R114). -/
@[simp] theorem stepFinish_fields (s : State) :
    (stepFinish s).cmd = s.cmd ∧ (stepFinish s).status = s.status.finished s.isOtp ∧
    (stepFinish s).keyLen = s.keyLen ∧ (stepFinish s).msgLen = s.msgLen ∧ (stepFinish s).ctrHi = s.ctrHi ∧
    (stepFinish s).ctrLo = s.ctrLo ∧ (stepFinish s).stepHi = s.stepHi ∧ (stepFinish s).stepLo = s.stepLo ∧
    (stepFinish s).digest = digestWords s.tag ∧ (stepFinish s).trunc = (if s.isOtp then s.tval else s.trunc) ∧
    (stepFinish s).code = (if s.isOtp then s.tcode else s.code) ∧
    (stepFinish s).otpStr = (if s.isOtp then stringWords s.tstr else s.otpStr) ∧ (stepFinish s).mem = s.mem ∧
    (stepFinish s).h = s.h ∧ (stepFinish s).work = s.work ∧ (stepFinish s).w = s.w ∧ (stepFinish s).k0 = s.k0 ∧
    (stepFinish s).idig = s.idig ∧ (stepFinish s).tag = s.tag ∧ (stepFinish s).toff = s.toff ∧
    (stepFinish s).tval = s.tval ∧ (stepFinish s).tcode = s.tcode ∧ (stepFinish s).tstr = s.tstr ∧
    (stepFinish s).seq = Seq.rest ∧ (stepFinish s).tOk = s.tOk ∧ (stepFinish s).tSec = s.tSec ∧
    (stepFinish s).rdata = s.rdata ∧ (stepFinish s).pending = s.pending := by
  simp only [stepFinish, and_self]

@[simp] theorem stepFinish_operands (s : State) :
    (stepFinish s).op = s.op ∧ (stepFinish s).dig = s.dig ∧ (stepFinish s).isOtp = s.isOtp ∧
    (stepFinish s).key = s.key ∧ (stepFinish s).msg = s.msg ∧ (stepFinish s).ctr = s.ctr ∧
    (stepFinish s).step64 = s.step64 := by
  simp only [State.op, State.dig, State.isOtp, State.key, State.msg, State.ctr, State.step64,
    stepFinish_fields, and_self]

@[simp] theorem stepFinish_msel (s : State) : (stepFinish s).msel = s.msel :=
  State.msel_congr (by simp only [stepFinish_fields]) (by simp only [stepFinish_operands])
     (by simp only [stepFinish_operands])

end Sys2Proof.Machine
end

