-- ==== Sys2Proof/Laws/Accept.lean ====
section
/-! SUPPORT. The accept step, said once: ignored while BUSY, an error state, or a started command (40_lifecycle.md rule R110;
60_exceptions.md rules R212, R213). -/

namespace Sys2Proof.Machine

theorem accept_busy (word : Word) (check : State → Option Err) (start : State → State) (s : State)
    (h : s.status.busy = true) : accept word check start s = s := by simp [accept, h]

theorem accept_error (word : Word) (check : State → Option Err) (start : State → State) (s : State) (e : Err)
    (h : s.status.busy = false) (hc : check (clearForAccept word s) = some e) :
    accept word check start s = raise e (clearForAccept word s) := by simp [accept, h, hc]

theorem accept_ok (word : Word) (check : State → Option Err) (start : State → State) (s : State)
    (h : s.status.busy = false) (hc : check (clearForAccept word s) = none) :
    accept word check start s = start (clearForAccept word s) := by simp [accept, h, hc]

/-- Everything an accept step can do. -/
theorem accept_cases (word : Word) (check : State → Option Err) (start : State → State) (s : State) :
    (s.status.busy = true ∧ accept word check start s = s) ∨
    (s.status.busy = false ∧ ∃ e, check (clearForAccept word s) = some e ∧
      accept word check start s = raise e (clearForAccept word s)) ∨
    (s.status.busy = false ∧ check (clearForAccept word s) = none ∧
      accept word check start s = start (clearForAccept word s)) := by
  cases h : s.status.busy
  · cases hc : check (clearForAccept word s) with
    | none => exact .inr (.inr ⟨rfl, rfl, accept_ok _ _ _ _ h hc⟩)
    | some e => exact .inr (.inl ⟨rfl, e, rfl, accept_error _ _ _ _ _ h hc⟩)
  · exact .inl ⟨rfl, accept_busy _ _ _ _ h⟩

@[simp] theorem firstError_nil : firstError [] = none := rfl

@[simp] theorem firstError_cons (b : Bool) (e : Err) (rest : List (Bool × Err)) :
    firstError ((b, e) :: rest) = if b then some e else firstError rest := rfl

/-- The conditions of the checks read no register the accept step clears (R213). -/
@[simp] theorem conditions_clearForAccept (word : Word) (s : State) :
    (clearForAccept word s).keyTooLong = s.keyTooLong ∧ (clearForAccept word s).msgTooLong = s.msgTooLong ∧
    (clearForAccept word s).stepIsZero = s.stepIsZero ∧ (clearForAccept word s).clockBad = s.clockBad :=
  ⟨rfl, rfl, rfl, rfl⟩

/-- The fields of the words the commands are issued by (R90, R98). -/
@[simp] theorem fields_encode (d : BitVec 4) :
    opField (encode .hash) = 1 ∧ opField (encode .hmac) = 2 ∧ opField (encode (.hotp d)) = 3 ∧
    opField (encode (.totp d)) = 4 ∧ digField (encode (.hotp d)) = d ∧ digField (encode (.totp d)) = d := by
  revert d; decide

/-- Each command's own accept step. -/
theorem exec_eq_accept (i : Instr) (s : State) :
    exec i s = .next (match i with
      | .hash => accept (encode .hash) hashCheck (begin .init) s
      | .hmac => accept (encode .hmac) hmacCheck (begin .keysel) s
      | .hotp d => accept (encode (.hotp d)) (hotpCheck d) (begin .keysel) s
      | .totp d => accept (encode (.totp d)) (totpCheck d) (fun u => begin .keysel (latchCounter u)) s) := by
  cases i <;> rfl

/-- The check a command's accept step makes (R213). -/
def checkOf : Instr → State → Option Err
  | .hash => hashCheck
  | .hmac => hmacCheck
  | .hotp d => hotpCheck d
  | .totp d => totpCheck d

/-- What a command's accept step does once its check passed (R110). -/
def startOf : Instr → State → State
  | .hash => begin .init
  | .hmac => begin .keysel
  | .hotp _ => begin .keysel
  | .totp _ => fun u => begin .keysel (latchCounter u)

/-- Everything a command's own step can do: nothing while BUSY; one error; or the start. -/
theorem exec_cases {i : Instr} {s t : State} (h : exec i s = .next t) :
    (s.status.busy = true ∧ t = s) ∨
    (s.status.busy = false ∧ ∃ e, checkOf i (clearForAccept (encode i) s) = some e ∧
      t = raise e (clearForAccept (encode i) s)) ∨
    (s.status.busy = false ∧ checkOf i (clearForAccept (encode i) s) = none ∧
      t = startOf i (clearForAccept (encode i) s)) := by
  have he : accept (encode i) (checkOf i) (startOf i) s = t := by
    cases i <;> exact Host.Outcome.next.inj h
  rw [← he]
  exact accept_cases (encode i) (checkOf i) (startOf i) s

/-- The checks in plain words: when a command passes them all. -/
theorem checkOf_eq_none (i : Instr) (s : State) :
    checkOf i s = none ↔ match i with
      | .hash => s.msgLen.toNat ≤ 1024
      | .hmac => s.keyLen.toNat ≤ 256 ∧ s.msgLen.toNat ≤ 1024
      | .hotp d => (1 ≤ d.toNat ∧ d.toNat ≤ 9) ∧ s.keyLen.toNat ≤ 256
      | .totp d => (1 ≤ d.toNat ∧ d.toNat ≤ 9) ∧ s.keyLen.toNat ≤ 256 ∧ (s.stepHi ≠ 0 ∨ s.stepLo ≠ 0) ∧
          s.tOk = true ∧ s.tSec.msb = false := by
  cases i <;> simp only [checkOf, hashCheck, hmacCheck, hotpCheck, totpCheck, firstError_cons, firstError_nil, digitsBad,
    State.keyTooLong, State.msgTooLong, State.stepIsZero, State.clockBad, Config.keyCap, Config.msgCap] <;> grind

end Sys2Proof.Machine
end

