-- ==== Sys2Proof/Laws/Bytes.lean ====
section
/-! SUPPORT. Byte order: words and their bytes, big-endian both ways (00_scope.md rules R9, R10), and the lengths of the
sequences the functions build. -/

namespace Sys2Proof.Machine

theorem rotl_eq_rotateLeft (x : Word) (n : Nat) (h : n < 32) : rotl x n = x.rotateLeft n := by
  simp [rotl, BitVec.rotateLeft, BitVec.rotateLeftAux, Nat.mod_eq_of_lt h]

theorem toNat_wordByte (v : Word) (i : Nat) : (wordByte v i).toNat = v.toNat / 2 ^ (24 - 8 * i) % 256 := by
  simp [wordByte, BitVec.extractLsb'_toNat, Nat.shiftRight_eq_div_pow]

theorem toNat_be32 (b0 b1 b2 b3 : Byte) :
    (be32 b0 b1 b2 b3).toNat = b0.toNat * 2 ^ 24 + b1.toNat * 2 ^ 16 + b2.toNat * 2 ^ 8 + b3.toNat := by
  have h1 := b1.isLt; have h2 := b2.isLt; have h3 := b3.isLt
  simp only [be32, BitVec.toNat_append]
  rw [← Nat.shiftLeft_add_eq_or_of_lt (by omega), ← Nat.shiftLeft_add_eq_or_of_lt (by omega),
    ← Nat.shiftLeft_add_eq_or_of_lt (by omega)]
  simp only [Nat.shiftLeft_eq]; omega

/-- A word is the big-endian value of its four bytes (R10: `be32` and `bytes_be(., 4)` are inverse). -/
@[simp] theorem be32_wordByte (v : Word) :
    be32 (wordByte v 0) (wordByte v 1) (wordByte v 2) (wordByte v 3) = v := by
  apply BitVec.eq_of_toNat_eq
  have := v.isLt
  simp only [toNat_be32, toNat_wordByte]; omega

@[simp] theorem wordByte_be32_0 (a b c d : Byte) : wordByte (be32 a b c d) 0 = a := by
  apply BitVec.eq_of_toNat_eq
  have := a.isLt; have := b.isLt; have := c.isLt; have := d.isLt
  simp only [toNat_be32, toNat_wordByte]; omega

/-- The byte d of a word read from a sequence is the sequence's byte (R10). -/
theorem wordByte_be32At (x : List Byte) (k d : Nat) (hd : d < 4) : wordByte (be32At x k) d = x.getD (k + d) 0 := by
  rw [be32At]
  generalize h1 : x.getD (k + 1) 0 = a1
  generalize h2 : x.getD (k + 2) 0 = a2
  generalize h3 : x.getD (k + 3) 0 = a3
  generalize h0 : x.getD k 0 = a0
  have ha := a0.isLt; have hb := a1.isLt; have hc := a2.isLt; have he := a3.isLt
  apply BitVec.eq_of_toNat_eq
  rw [toNat_wordByte, toNat_be32]
  interval_cases d <;> simp only [Nat.add_zero, h0, h1, h2, h3] <;> omega

@[simp] theorem length_bytesBE (v n : Nat) : (bytesBE v n).length = n := by simp [bytesBE]

@[simp] theorem length_zeros (n : Nat) : (zeros n).length = n := by simp [zeros]

@[simp] theorem length_xorEach (s : List Byte) (b : Byte) : (xorEach s b).length = s.length := by simp [xorEach]

@[simp] theorem length_memRead (m : List Host.Cell) (a n : Nat) : (memRead m a n).length = n := by simp [memRead]

@[simp] theorem length_ctrBytes (c : Quad) : (ctrBytes c).length = 8 := by simp [ctrBytes]

@[simp] theorem length_lengthField (n : Nat) : (lengthField n).length = 8 := by unfold lengthField; split <;> simp

@[simp] theorem length_key (s : State) : s.key.length = s.keyLen.toNat := by simp [State.key]

@[simp] theorem length_msg (s : State) : s.msg.length = s.msgLen.toNat := by simp [State.msg]

theorem numBlocks_bound (n : Nat) : n + 9 ≤ 64 * numBlocks n := by unfold numBlocks; omega

/-- The padded stream is a whole number of blocks (R127). -/
theorem length_pad (s : List Byte) : (pad s).length = 64 * numBlocks s.length := by
  have := numBlocks_bound s.length
  simp [pad]; omega

/-- Four bytes of a word are its `bytes_be(., 4)` (R10). -/
theorem bytesBE_word (v : Word) : bytesBE v.toNat 4 = [wordByte v 0, wordByte v 1, wordByte v 2, wordByte v 3] := by
  simp only [bytesBE, List.range, List.range.loop, List.map_cons, List.map_nil, List.cons.injEq, and_true]
  refine ⟨?_, ?_, ?_, ?_⟩ <;> apply BitVec.eq_of_toNat_eq <;> simp [toNat_wordByte]

/-- D20 as the concatenation R140 writes. -/
theorem toList_d20 (h : Vector Word 5) :
    (d20 h).toList = bytesBE h[0].toNat 4 ++ bytesBE h[1].toNat 4 ++ bytesBE h[2].toNat 4 ++ bytesBE h[3].toNat 4
      ++ bytesBE h[4].toNat 4 := by
  simp [d20, bytesBE_word, Vector.toList_ofFn, List.ofFn_succ]

/-- The digest registers hold the chaining state's words themselves (R65). -/
@[simp] theorem digestWords_d20 (h : Vector Word 5) : digestWords (d20 h) = h := by
  ext i hi
  have : i = 0 ∨ i = 1 ∨ i = 2 ∨ i = 3 ∨ i = 4 := by omega
  simp only [digestWords, toList_d20, bytesBE_word]
  rcases this with rfl | rfl | rfl | rfl | rfl <;> simp [be32At]

/-- Zero-filling a sequence of at most 64 bytes appends the zeros (R156, R161). -/
theorem toList_fill64 (s : List Byte) (h : s.length ≤ 64) : (fill64 s).toList = s ++ zeros (64 - s.length) := by
  apply List.ext_getElem
  · simp; omega
  · intro i h1 h2
    simp only [fill64, Vector.getElem_toList, Vector.getElem_ofFn, List.getD_eq_getElem?_getD]
    by_cases hi : i < s.length
    · simp [hi]
    · rw [List.getElem_append_right (by omega), List.getElem?_eq_none (by omega)]; simp [zeros]

/-- The offset of the truncation window is the low nibble of byte 19 (R177). -/
theorem toNat_dtOffset (tag : Vector Byte 20) : (dtOffset tag).toNat = (tag[19] &&& 0x0F).toNat := by
  have : (tag[19] &&& 0x0F).toNat = tag[19].toNat % 16 := by
    rw [BitVec.toNat_and]
    exact Nat.and_two_pow_sub_one_eq_mod tag[19].toNat 4
  rw [this]
  simp [dtOffset]

end Sys2Proof.Machine
end

