-- ==== Sys2Proof/Laws/Engine.lean ====
section
/-! SUPPORT. The core step by its phase, what every core step leaves alone, runs of core steps, and one whole pass of the hash
engine (40_lifecycle.md rules R112, R113; 41_sha1.md rules R136 to R139). -/

namespace Sys2Proof.Machine

/-! ### One core step -/

theorem coreStep_idle (s : State) (h : s.seq.phase = .idle) : coreStep s = s := by simp only [coreStep, h]
theorem coreStep_keysel (s : State) (h : s.seq.phase = .keysel) : coreStep s = stepKeysel s := by simp only [coreStep, h]
theorem coreStep_init (s : State) (h : s.seq.phase = .init) : coreStep s = stepInit s := by simp only [coreStep, h]
theorem coreStep_load (s : State) (h : s.seq.phase = .load) : coreStep s = stepLoad s := by simp only [coreStep, h]
theorem coreStep_round (s : State) (h : s.seq.phase = .round) : coreStep s = stepRound s := by simp only [coreStep, h]
theorem coreStep_add (s : State) (h : s.seq.phase = .add) : coreStep s = stepAdd s := by simp only [coreStep, h]
theorem coreStep_passend (s : State) (h : s.seq.phase = .passend) : coreStep s = stepPassend s := by simp only [coreStep, h]
theorem coreStep_trunc (s : State) (h : s.seq.phase = .trunc) : coreStep s = stepTrunc s := by simp only [coreStep, h]
theorem coreStep_reduce (s : State) (h : s.seq.phase = .reduce) : coreStep s = stepReduce s := by simp only [coreStep, h]
theorem coreStep_render (s : State) (h : s.seq.phase = .render) : coreStep s = stepRender s := by simp only [coreStep, h]
theorem coreStep_finish (s : State) (h : s.seq.phase = .finish) : coreStep s = stepFinish s := by simp only [coreStep, h]

/-- A property of states that every named core step has, every core step has. -/
theorem coreStep_induct (P : State → State → Prop) (s : State) (idle : P s s) (long : P s (stepKeyselLong s))
    (short : P s (stepKeyselShort s)) (init : P s (stepInit s)) (load : P s (stepLoad s)) (round : P s (stepRound s))
    (add : P s (stepAdd s))
    (plain : P s (stepPassendPlain s)) (keyhash : P s (stepPassendKeyhash s)) (inner : P s (stepPassendInner s))
    (outer : P s (stepPassendOuter s)) (trunc : P s (stepTrunc s)) (reduce : P s (stepReduce s))
    (render : P s (stepRender s)) (finish : P s (stepFinish s)) : P s (coreStep s) := by
  cases h : s.seq.phase
  case idle => rw [coreStep_idle s h]; exact idle
  case keysel =>
    rw [coreStep_keysel s h, stepKeysel]
    split
    · exact long
    · exact short
  case init => rw [coreStep_init s h]; exact init
  case load => rw [coreStep_load s h]; exact load
  case round => rw [coreStep_round s h]; exact round
  case add => rw [coreStep_add s h]; exact add
  case passend =>
    rw [coreStep_passend s h]
    cases hp : s.seq.pass <;> simp only [stepPassend, hp]
    · exact plain
    · exact keyhash
    · exact inner
    · exact outer
  case trunc => rw [coreStep_trunc s h]; exact trunc
  case reduce => rw [coreStep_reduce s h]; exact reduce
  case render => rw [coreStep_render s h]; exact render
  case finish => rw [coreStep_finish s h]; exact finish

/-- What no core step writes: CMD, the operands and the buffers (R112), and the model's record of inputs and output. -/
@[simp] theorem coreStep_frame (s : State) :
    (coreStep s).cmd = s.cmd ∧ (coreStep s).keyLen = s.keyLen ∧ (coreStep s).msgLen = s.msgLen ∧
    (coreStep s).ctrHi = s.ctrHi ∧ (coreStep s).ctrLo = s.ctrLo ∧ (coreStep s).stepHi = s.stepHi ∧
    (coreStep s).stepLo = s.stepLo ∧ (coreStep s).mem = s.mem ∧ (coreStep s).tOk = s.tOk ∧ (coreStep s).tSec = s.tSec ∧
    (coreStep s).rdata = s.rdata ∧ (coreStep s).pending = s.pending := by
  apply coreStep_induct (fun s t => t.cmd = s.cmd ∧ t.keyLen = s.keyLen ∧ t.msgLen = s.msgLen ∧
    t.ctrHi = s.ctrHi ∧ t.ctrLo = s.ctrLo ∧ t.stepHi = s.stepHi ∧ t.stepLo = s.stepLo ∧ t.mem = s.mem ∧
    t.tOk = s.tOk ∧ t.tSec = s.tSec ∧ t.rdata = s.rdata ∧ t.pending = s.pending) s
  all_goals simp

@[simp] theorem coreStep_operands (s : State) :
    (coreStep s).op = s.op ∧ (coreStep s).dig = s.dig ∧ (coreStep s).isOtp = s.isOtp ∧
    (coreStep s).key = s.key ∧ (coreStep s).msg = s.msg ∧ (coreStep s).ctr = s.ctr ∧
    (coreStep s).step64 = s.step64 := by
  simp only [State.op, State.dig, State.isOtp, State.key, State.msg, State.ctr, State.step64, coreStep_frame, and_self]

@[simp] theorem coreStep_msel (s : State) : (coreStep s).msel = s.msel :=
  State.msel_congr (by simp only [coreStep_frame]) (by simp only [coreStep_operands]) (by simp only [coreStep_operands])

/-! ### Runs of core steps -/

theorem step_nil (s : State) (h : s.pending = []) : step s = .next (coreStep s) := by simp only [step, h]

theorem run_succ_of_next (M : Host.Core) (n : Nat) (s t : M.State) (h : M.step s = .next t) :
    M.run (n + 1) s = M.run n t := by simp only [Host.Core.run, h]

theorem run_succ_inv (M : Host.Core) (n : Nat) (s u : M.State) (h : M.run (n + 1) s = .next u) :
    ∃ t, M.step s = .next t ∧ M.run n t = .next u := by
  rcases hs : M.step s with t | r | r <;> simp only [Host.Core.run, hs] at h
  · exact ⟨t, rfl, h⟩
  all_goals cases h

theorem runsTo_zero (s : State) : RunsTo 0 s s := rfl

theorem runsTo_succ (n : Nat) (s t u : State) (h : step s = .next t) (hr : RunsTo n t u) : RunsTo (n + 1) s u := by
  exact (run_succ_of_next Sys2Proof.core n s t h).trans hr

/-- What a run of n + 1 steps is. -/
theorem runsTo_succ_iff (n : Nat) (s u : State) : RunsTo (n + 1) s u ↔ ∃ t, step s = .next t ∧ RunsTo n t u := by
  constructor
  · intro h; exact run_succ_inv Sys2Proof.core n s u h
  · rintro ⟨t, h, hr⟩
    exact runsTo_succ n s t u h hr

theorem runsTo_add (m n : Nat) (s t u : State) (h : RunsTo m s t) (hr : RunsTo n t u) : RunsTo (m + n) s u := by
  induction m generalizing s with
  | zero =>
    have : s = t := Host.Outcome.next.inj h
    simpa [this] using hr
  | succ m ih =>
    obtain ⟨s', hs, h'⟩ := (runsTo_succ_iff m s t).mp h
    rw [Nat.add_right_comm]
    exact runsTo_succ _ s s' u hs (ih s' h')

/-- With nothing pending the machine takes core steps (R250). -/
theorem runsTo_coreSteps (n : Nat) (s : State) (h : s.pending = []) : RunsTo n s (coreStep^[n] s) := by
  induction n generalizing s with
  | zero => rfl
  | succ n ih =>
    rw [Function.iterate_succ_apply]
    exact runsTo_succ n s _ _ (step_nil s h) (ih _ (by simp [h]))

/-! ### One pass of the hash engine -/

/-- The stream of a pass depends on the pass, K0, IDIG and the frozen operands alone (R135, R160). -/
theorem State.stream_congr {s t : State} (hp : t.seq.pass = s.seq.pass) (hk : t.k0 = s.k0) (hi : t.idig = s.idig)
    (hkey : t.key = s.key) (hmsg : t.msg = s.msg) (hsel : t.msel = s.msel) : t.stream = s.stream := by
  simp only [State.stream, hp, hk, hi, hkey, hmsg, hsel]

@[simp] theorem afterRound_pass_blk (q : Seq) : q.afterRound.pass = q.pass ∧ q.afterRound.blk = q.blk := by
  unfold Seq.afterRound; split <;> exact ⟨rfl, rfl⟩

@[simp] theorem afterAdd_pass_t (q : Seq) (nb : Nat) : (q.afterAdd nb).pass = q.pass ∧ (q.afterAdd nb).t = q.t := by
  unfold Seq.afterAdd; split <;> exact ⟨rfl, rfl⟩

/-- A state with other contents in the registers of the hash engine and another SEQ: what a pass makes of a state. -/
def State.engineTo (s : State) (h : Vector Word 5) (w : Vector Word 80) (r : Work) (q : Seq) : State :=
  { s with h := h, w := w, work := r, seq := q }

@[simp] theorem engineTo_self (s : State) : s.engineTo s.h s.w s.work s.seq = s := rfl

@[simp] theorem engineTo_engineTo (s : State) (h h' : Vector Word 5) (w w' : Vector Word 80) (r r' : Work) (q q' : Seq) :
    (s.engineTo h w r q).engineTo h' w' r' q' = s.engineTo h' w' r' q' := rfl

section
variable (s : State) (h : Vector Word 5) (w : Vector Word 80) (r : Work) (q : Seq)

@[simp] theorem engineTo_h : (s.engineTo h w r q).h = h := rfl
@[simp] theorem engineTo_w : (s.engineTo h w r q).w = w := rfl
@[simp] theorem engineTo_work : (s.engineTo h w r q).work = r := rfl
@[simp] theorem engineTo_seq : (s.engineTo h w r q).seq = q := rfl
@[simp] theorem engineTo_k0 : (s.engineTo h w r q).k0 = s.k0 := rfl
@[simp] theorem engineTo_idig : (s.engineTo h w r q).idig = s.idig := rfl
@[simp] theorem engineTo_tag : (s.engineTo h w r q).tag = s.tag := rfl
@[simp] theorem engineTo_cmd : (s.engineTo h w r q).cmd = s.cmd := rfl
@[simp] theorem engineTo_key : (s.engineTo h w r q).key = s.key := rfl
@[simp] theorem engineTo_msg : (s.engineTo h w r q).msg = s.msg := rfl
@[simp] theorem engineTo_ctr : (s.engineTo h w r q).ctr = s.ctr := rfl
@[simp] theorem engineTo_pending : (s.engineTo h w r q).pending = s.pending := rfl

@[simp] theorem engineTo_msel : (s.engineTo h w r q).msel = s.msel := State.msel_congr rfl rfl rfl

theorem engineTo_stream (hq : q.pass = s.seq.pass) : (s.engineTo h w r q).stream = s.stream :=
  State.stream_congr hq rfl rfl rfl rfl (by simp)

theorem engineTo_nb (hq : q.pass = s.seq.pass) : (s.engineTo h w r q).nb = s.nb := by
  simp only [State.nb, engineTo_stream s h w r q hq]

theorem engineTo_padded (hq : q.pass = s.seq.pass) : (s.engineTo h w r q).padded = s.padded := by
  simp only [State.padded, engineTo_stream s h w r q hq]

end

/-! The engine's own core steps as `engineTo`. -/

theorem stepInit_engineTo (s : State) :
    stepInit s = s.engineTo iv s.w s.work { s.seq with blk := 0, phase := .load } := rfl

theorem stepLoad_engineTo (s : State) :
    stepLoad s = s.engineTo s.h (schedule (blockWords s.padded s.seq.blk)) (workOf s.h)
      { s.seq with t := 0, phase := .round } := by rw [stepLoad]; rfl

theorem stepRound_engineTo (s : State) :
    stepRound s = s.engineTo s.h s.w (oneRound s.seq.t.val s.w[s.seq.t] s.work) s.seq.afterRound := rfl

theorem stepAdd_engineTo (s : State) :
    stepAdd s = s.engineTo (addWork s.h s.work) s.w s.work (s.seq.afterAdd s.nb) := rfl

theorem afterRound_of_lt (q : Seq) (k : Nat) (hk : k + 1 < 80) (h : q.t = ⟨k, by omega⟩) :
    q.afterRound = { q with t := ⟨k + 1, hk⟩ } := by
  simp only [Seq.afterRound, h]
  rw [dif_pos (by omega)]

theorem afterRound_last (q : Seq) (h : q.t = ⟨79, by omega⟩) : q.afterRound = { q with t := 0, phase := .add } := by
  simp only [Seq.afterRound, h]
  rw [dif_neg (by omega)]

theorem rounds_succ (w : Vector Word 80) (n : Nat) (hn : n < 80) (r : Work) :
    rounds w (n + 1) r = oneRound n w[n] (rounds w n r) := by
  rw [rounds, show w.getD n 0 = w[n] by simp [Vector.getD, hn]]

/-- The round numbered 79 completes the eighty. -/
theorem rounds_last (w : Vector Word 80) (k : Fin 80) (hk : ¬ k.val < 79) (r : Work) :
    oneRound k.val w[k] (rounds w k.val r) = rounds w 80 r := by
  have h : k.val + 1 = 80 := by omega
  exact (rounds_succ w k.val k.isLt r).symm.trans (congrArg (fun n => rounds w n r) h)

/-- From ROUND at T = 0, k rounds (k at most 79) leave the working registers as the rounds 0 to k - 1 do, and T = k. -/
theorem iterate_round (s : State) (hp : s.seq.phase = .round) (ht : s.seq.t = 0) (k : Nat) (hk : k < 80) :
    coreStep^[k] s = s.engineTo s.h s.w (rounds s.w k s.work) { s.seq with t := ⟨k, hk⟩ } := by
  induction k with
  | zero =>
    have : ({ s.seq with t := ⟨0, hk⟩ } : Seq) = s.seq := by
      rw [show (⟨0, hk⟩ : Fin 80) = s.seq.t from ht.symm]
    rw [this]
    rfl
  | succ k ih =>
    rw [Function.iterate_succ_apply', ih (by omega), coreStep_round _ (by simpa using hp), stepRound_engineTo]
    rw [rounds_succ s.w k (by omega), afterRound_of_lt _ k hk (by rfl)]
    rfl

/-- The last round of a block. -/
theorem iterate_lastRound (s : State) (hp : s.seq.phase = .round) (ht : s.seq.t = 0) (k : Nat) (hk : k = 79) :
    coreStep^[k + 1] s = s.engineTo s.h s.w (rounds s.w (k + 1) s.work) { s.seq with t := 0, phase := .add } := by
  have hr : (s.engineTo s.h s.w (rounds s.w k s.work) { s.seq with t := ⟨k, by omega⟩ }).seq.phase = .round := hp
  rw [Function.iterate_succ_apply', iterate_round s hp ht k (by omega), coreStep_round _ hr, stepRound_engineTo,
    rounds_succ s.w k (by omega), afterRound_last]
  · rfl
  · exact Fin.ext hk

/-- The eighty rounds of a block. -/
theorem iterate_rounds (s : State) (hp : s.seq.phase = .round) (ht : s.seq.t = 0) :
    coreStep^[80] s = s.engineTo s.h s.w (rounds s.w 80 s.work) { s.seq with t := 0, phase := .add } :=
  iterate_lastRound s hp ht 79 rfl

/-- LOAD, then n steps known to end in ADD, then ADD. -/
theorem iterate_around (n : Nat) (s : State) (w : Vector Word 80) (r r' : Work)
    (h1 : coreStep s = s.engineTo s.h w r { s.seq with t := 0, phase := .round })
    (hn : coreStep^[n] (s.engineTo s.h w r { s.seq with t := 0, phase := .round }) =
      s.engineTo s.h w r' { s.seq with t := 0, phase := .add }) :
    coreStep^[n + 1 + 1] s =
      s.engineTo (addWork s.h r') w r' (({ s.seq with t := 0, phase := .add } : Seq).afterAdd s.nb) := by
  rw [Function.iterate_succ_apply', Function.iterate_succ_apply, h1, hn, coreStep_add _ rfl, stepAdd_engineTo, engineTo_nb]
  all_goals rfl

/-- One block: LOAD, 80 ROUND, ADD (R133, R137 to R139). -/
theorem iterate_block (s : State) (hp : s.seq.phase = .load) :
    coreStep^[82] s =
      s.engineTo (compress s.h (blockWords s.padded s.seq.blk)) (schedule (blockWords s.padded s.seq.blk))
        (rounds (schedule (blockWords s.padded s.seq.blk)) 80 (workOf s.h))
        (({ s.seq with t := 0, phase := .add } : Seq).afterAdd s.nb) :=
  iterate_around 80 s _ _ _ ((coreStep_load s hp).trans (stepLoad_engineTo s)) (iterate_rounds _ rfl rfl)

theorem chain_succ (p : List Byte) (b : Nat) : chain p (b + 1) = compress (chain p b) (blockWords p b) := by rw [chain]

theorem afterAdd_of_lt (q : Seq) (nb b : Nat) (hb : q.blk = b) (h : b + 1 < nb) :
    q.afterAdd nb = { q with blk := b + 1, phase := .load } := by subst hb; exact if_pos h

theorem afterAdd_last (q : Seq) (nb : Nat) (h : ¬ q.blk + 1 < nb) : q.afterAdd nb = { q with phase := .passend } := if_neg h

theorem State.nb_pos (s : State) : 0 < s.nb := by simp [State.nb, numBlocks]

/-- The blocks from number b to the last one (R134). -/
theorem iterate_blocks (k : Nat) (s : State) (b : Nat) (hp : s.seq.phase = .load) (hb : s.seq.blk = b)
    (hk : s.nb = b + k + 1) (hh : s.h = chain s.padded b) :
    ∃ w r, coreStep^[82 * (k + 1)] s =
      s.engineTo (chain s.padded s.nb) w r { s.seq with t := 0, blk := s.nb - 1, phase := .passend } := by
  induction k generalizing s b with
  | zero =>
    have hn : ({ s.seq with t := 0, phase := .add } : Seq).afterAdd s.nb =
        { s.seq with t := 0, blk := s.nb - 1, phase := .passend } := by
      rw [afterAdd_last _ _ (by simp only [hb]; omega), show s.nb - 1 = s.seq.blk by omega]
    have hc : chain s.padded s.nb = compress s.h (blockWords s.padded s.seq.blk) := by
      rw [hk, Nat.add_zero, chain_succ, hh, hb]
    rw [hc, ← hn, Nat.zero_add, Nat.mul_one, iterate_block s hp]
    exact ⟨_, _, rfl⟩
  | succ k ih =>
    have hq : (({ s.seq with t := 0, phase := .add } : Seq).afterAdd s.nb) =
        { s.seq with t := 0, phase := .load, blk := b + 1 } := afterAdd_of_lt _ _ b hb (by omega)
    rw [show 82 * (k + 1 + 1) = 82 * (k + 1) + 82 by ring, Function.iterate_add_apply, iterate_block s hp, hq, hh, hb,
      ← chain_succ]
    generalize schedule (blockWords s.padded b) = w
    generalize rounds w 80 (workOf (chain s.padded b)) = r
    have hnb := engineTo_nb s (chain s.padded (b + 1)) w r { s.seq with t := 0, phase := .load, blk := b + 1 } rfl
    have hpd := engineTo_padded s (chain s.padded (b + 1)) w r { s.seq with t := 0, phase := .load, blk := b + 1 } rfl
    obtain ⟨w', r', h⟩ := ih _ (b + 1) rfl rfl (hnb.trans (by rw [hk]; omega)) (by rw [hpd, engineTo_h])
    rw [hnb, hpd, engineTo_engineTo] at h
    exact ⟨w', r', h⟩

/-- One pass, from INIT to PASSEND: `1 + 82 NB` core steps leave in H the last chaining state of the pass's padded stream, and
write nothing but the engine's registers and SEQ (R134, R136 to R139). -/
theorem iterate_pass (s : State) (hp : s.seq.phase = .init) :
    ∃ w r, coreStep^[82 * s.nb + 1] s =
      s.engineTo (chain s.padded s.nb) w r { s.seq with t := 0, blk := s.nb - 1, phase := .passend } := by
  obtain ⟨k, hk⟩ : ∃ k, s.nb = 0 + k + 1 := ⟨s.nb - 1, by have := s.nb_pos; omega⟩
  have h1 : coreStep^[1] s = s.engineTo iv s.w s.work { s.seq with blk := 0, phase := .load } :=
    (coreStep_init s hp).trans (stepInit_engineTo s)
  have hnb := engineTo_nb s iv s.w s.work { s.seq with blk := 0, phase := .load } rfl
  have hpd := engineTo_padded s iv s.w s.work { s.seq with blk := 0, phase := .load } rfl
  obtain ⟨w, r, h⟩ := iterate_blocks k _ 0 rfl rfl (hnb.trans hk) (by rw [hpd, engineTo_h, chain])
  rw [hnb, hpd, engineTo_engineTo] at h
  rw [Function.iterate_add_apply, h1, show 82 * s.nb = 82 * (k + 1) by omega]
  exact ⟨w, r, h⟩

end Sys2Proof.Machine
end

