-- ==== Sys2Proof/Laws/Memory.lean ====
section
/-! SUPPORT. The laws of the byte memory: a read after a write, and the canonical form kept by every operation (log 6). -/

namespace Sys2Proof.Machine

/-- The rising half of the canonical form. -/
abbrev Rising (m : List Host.Cell) : Prop := m.Pairwise (fun x y => x.1 < y.1)

@[simp] theorem memGet_nil (a : Nat) : memGet [] a = unwritten := rfl

@[simp] theorem memGet_cons (k a : Nat) (b : Byte) (m : List Host.Cell) :
    memGet ((k, b) :: m) a = if k = a then b else memGet m a := rfl

/-- An offset below every listed one reads as unwritten. -/
theorem memGet_below (m : List Host.Cell) (a : Nat) (h : ∀ c ∈ m, a < c.1) : memGet m a = unwritten := by
  induction m with
  | nil => rfl
  | cons c rest ih =>
    have hc := h c (by simp)
    rw [memGet, if_neg (by omega)]
    exact ih fun d hd => h d (by simp [hd])

/-- Every cell after a write is the written one or an old one of another offset. -/
theorem mem_memSet (m : List Host.Cell) (a : Nat) (b : Byte) (c : Host.Cell) (hm : Rising m) (h : c ∈ memSet m a b) :
    (c = (a, b) ∧ b ≠ unwritten) ∨ (c ∈ m ∧ c.1 ≠ a) := by
  induction m with
  | nil =>
    rw [memSet] at h; split at h
    · simp at h
    · simp at h; exact .inl ⟨h, ‹_›⟩
  | cons d rest ih =>
    obtain ⟨k, x⟩ := d
    have hr := List.pairwise_cons.mp hm
    rw [memSet] at h
    split at h
    · rcases List.mem_cons.mp h with rfl | h
      · exact .inr ⟨by simp, by simp; omega⟩
      · rcases ih hr.2 h with h | ⟨h1, h2⟩
        · exact .inl h
        · exact .inr ⟨by simp [h1], h2⟩
    · split at h
      · rename_i heq
        split at h
        · have := hr.1 c h
          exact .inr ⟨by simp [h], by simp at this; omega⟩
        · rcases List.mem_cons.mp h with rfl | h
          · exact .inl ⟨rfl, ‹_›⟩
          · have := hr.1 c h
            exact .inr ⟨by simp [h], by simp at this; omega⟩
      · rename_i hlt hne
        have hne' : ∀ c ∈ (k, x) :: rest, c.1 ≠ a := by
          intro c hc
          rcases List.mem_cons.mp hc with rfl | hc
          · exact hne
          · have := hr.1 c hc; simp at this; omega
        split at h
        · exact .inr ⟨h, hne' c h⟩
        · rcases List.mem_cons.mp h with rfl | h
          · exact .inl ⟨rfl, ‹_›⟩
          · exact .inr ⟨h, hne' c h⟩

theorem rising_memSet (m : List Host.Cell) (a : Nat) (b : Byte) (hm : Rising m) : Rising (memSet m a b) := by
  induction m with
  | nil => rw [memSet]; split <;> simp [Rising]
  | cons d rest ih =>
    obtain ⟨k, x⟩ := d
    have hr := List.pairwise_cons.mp hm
    rw [memSet]
    split
    · refine List.pairwise_cons.mpr ⟨fun c hc => ?_, ih hr.2⟩
      rcases mem_memSet rest a b c hr.2 hc with ⟨rfl, -⟩ | ⟨h, -⟩
      · assumption
      · exact hr.1 c h
    · split
      · rename_i heq
        subst heq
        split
        · exact hr.2
        · exact List.pairwise_cons.mpr ⟨hr.1, hr.2⟩
      · rename_i hlt hne
        split
        · exact hm
        · refine List.pairwise_cons.mpr ⟨fun c hc => ?_, hm⟩
          rcases List.mem_cons.mp hc with rfl | hc
          · simp; omega
          · have := hr.1 c hc; simp at this ⊢; omega

/-- A write of a buffer byte keeps the canonical form. -/
theorem memWf_memSet (m : List Host.Cell) (a : Nat) (b : Byte) (hm : memWf m) (ha : inBuffer a) : memWf (memSet m a b) := by
  refine ⟨rising_memSet m a b hm.1, fun c hc => ?_⟩
  rcases mem_memSet m a b c hm.1 hc with ⟨rfl, h⟩ | ⟨h, -⟩
  · exact ⟨h, ha⟩
  · exact hm.2 c h

/-- A read after a write, at the same offset and at every other. -/
theorem memGet_memSet (m : List Host.Cell) (a x : Nat) (b : Byte) (hm : Rising m) :
    memGet (memSet m a b) x = if x = a then b else memGet m x := by
  induction m with
  | nil =>
    rw [memSet]; split
    · simp_all
    · simp [eq_comm]
  | cons d rest ih =>
    obtain ⟨k, y⟩ := d
    have hr := List.pairwise_cons.mp hm
    have hbelow : memGet rest k = unwritten := memGet_below rest k fun c hc => hr.1 c hc
    rw [memSet]
    split
    · rw [memGet, memGet, ih hr.2]
      by_cases hx : k = x
      · have : x ≠ a := by omega
        simp [hx, this]
      · simp [hx]
    · split
      · rename_i heq
        subst heq
        rw [memGet]
        split
        · by_cases hx : x = k
          · subst hx; simp [*]
          · have : k ≠ x := fun h => hx h.symm
            simp [hx, this]
        · rw [memGet]
          by_cases hx : x = k
          · simp [hx]
          · have : k ≠ x := fun h => hx h.symm
            simp [hx, this]
      · rename_i hlt hne
        have hbelow' : memGet ((k, y) :: rest) a = unwritten := memGet_below _ a fun c hc => by
          rcases List.mem_cons.mp hc with rfl | hc
          · simp; omega
          · have := hr.1 c hc; simp at this; omega
        split
        · by_cases hx : x = a
          · subst hx; simp [*]
          · simp [hx]
        · rw [memGet]
          by_cases hx : x = a
          · simp [hx]
          · have : a ≠ x := fun h => hx h.symm
            simp [hx, this]

theorem rising_memWriteWord (m : List Host.Cell) (a : Nat) (v : Word) (hm : Rising m) : Rising (memWriteWord m a v) :=
  rising_memSet _ _ _ (rising_memSet _ _ _ (rising_memSet _ _ _ (rising_memSet _ _ _ hm)))

/-- A word write stores the word's four bytes, most significant first, and no other (R64 case 4, R65). -/
theorem memGet_memWriteWord (m : List Host.Cell) (a x : Nat) (v : Word) (hm : Rising m) :
    memGet (memWriteWord m a v) x = if a ≤ x ∧ x < a + 4 then wordByte v (x - a) else memGet m x := by
  unfold memWriteWord
  rw [memGet_memSet _ _ _ _ (rising_memSet _ _ _ (rising_memSet _ _ _ (rising_memSet _ _ _ hm))),
    memGet_memSet _ _ _ _ (rising_memSet _ _ _ (rising_memSet _ _ _ hm)), memGet_memSet _ _ _ _ (rising_memSet _ _ _ hm),
    memGet_memSet _ _ _ _ hm]
  by_cases h0 : x = a
  · subst h0; simp
  by_cases h1 : x = a + 1
  · subst h1; simp
  by_cases h2 : x = a + 2
  · subst h2; simp
  by_cases h3 : x = a + 3
  · subst h3; simp
  simp only [h0, h1, h2, h3, if_false]
  rw [if_neg (by omega)]

/-- A word write to a buffer word keeps the canonical form. -/
theorem memWf_memWriteWord (m : List Host.Cell) (a : Nat) (v : Word) (hm : memWf m)
    (ha : ∀ i < 4, inBuffer (a + i)) : memWf (memWriteWord m a v) :=
  memWf_memSet _ _ _ (memWf_memSet _ _ _ (memWf_memSet _ _ _ (memWf_memSet _ _ _ hm (ha 0 (by omega))) (ha 1 (by omega)))
    (ha 2 (by omega))) (ha 3 (by omega))

/-- A word reads back as it was written (R63, R64). -/
theorem memWord_memWriteWord (m : List Host.Cell) (a : Nat) (v : Word) (hm : Rising m) :
    memWord (memWriteWord m a v) a = v := by
  simp [memWord, memGet_memWriteWord _ _ _ _ hm]

/-- The address map's buffer words are whole: all four bytes exist (R31, R32, R61). -/
theorem inBuffer_of_target (a : WordIndex) (off : Nat) (h : target a = .buffer off) :
    off = 4 * a.toNat ∧ ∀ i < 4, inBuffer (off + i) := by
  have ha := a.isLt
  unfold target at h
  split at h <;> try (simp at h)
  split at h
  · rename_i hb
    simp only [Target.buffer.injEq] at h
    subst h
    refine ⟨rfl, fun i hi => ?_⟩
    simp only [inBuffer, keyBase, msgBase, Config.keyCap, Config.msgCap] at hb ⊢
    omega
  · simp at h

/-- Every word of a buffer has its word index (R31, R32, R61). -/
theorem target_of_inBuffer (a : WordIndex) (h : inBuffer (4 * a.toNat)) : target a = .buffer (4 * a.toNat) := by
  revert a; decide

end Sys2Proof.Machine
end

