-- ==== Sys2Proof/Laws/Step.lean ====
section
/-! SUPPORT. One step of the machine, said once: everything a step can do (00_scope.md rule R12; 20_memory.md rules R63, R64;
40_lifecycle.md rule R113). -/

namespace Sys2Proof.Machine

/-- A state with other contents in the model's own record of the block's inputs and output. -/
def State.envTo (s : State) (ok : Bool) (sec : Quad) (rd : Option Word) (pe : List Event) : State :=
  { s with tOk := ok, tSec := sec, rdata := rd, pending := pe }

theorem envTo_self (s : State) : s.envTo s.tOk s.tSec s.rdata s.pending = s := rfl

theorem sameBlock_envTo (s : State) (ok : Bool) (sec : Quad) (rd : Option Word) (pe : List Event) :
    SameBlock s (s.envTo ok sec rd pe) := rfl

section
variable (s : State) (ok : Bool) (sec : Quad) (rd : Option Word) (pe : List Event)

/-- `envTo` leaves the whole block. -/
@[simp] theorem envTo_fields :
    (s.envTo ok sec rd pe).cmd = s.cmd ∧ (s.envTo ok sec rd pe).status = s.status ∧
    (s.envTo ok sec rd pe).keyLen = s.keyLen ∧ (s.envTo ok sec rd pe).msgLen = s.msgLen ∧
    (s.envTo ok sec rd pe).ctrHi = s.ctrHi ∧ (s.envTo ok sec rd pe).ctrLo = s.ctrLo ∧
    (s.envTo ok sec rd pe).stepHi = s.stepHi ∧ (s.envTo ok sec rd pe).stepLo = s.stepLo ∧
    (s.envTo ok sec rd pe).digest = s.digest ∧ (s.envTo ok sec rd pe).trunc = s.trunc ∧
    (s.envTo ok sec rd pe).code = s.code ∧ (s.envTo ok sec rd pe).otpStr = s.otpStr ∧
    (s.envTo ok sec rd pe).mem = s.mem ∧ (s.envTo ok sec rd pe).h = s.h ∧ (s.envTo ok sec rd pe).work = s.work ∧
    (s.envTo ok sec rd pe).w = s.w ∧ (s.envTo ok sec rd pe).k0 = s.k0 ∧ (s.envTo ok sec rd pe).idig = s.idig ∧
    (s.envTo ok sec rd pe).tag = s.tag ∧ (s.envTo ok sec rd pe).toff = s.toff ∧
    (s.envTo ok sec rd pe).tval = s.tval ∧ (s.envTo ok sec rd pe).tcode = s.tcode ∧
    (s.envTo ok sec rd pe).tstr = s.tstr ∧ (s.envTo ok sec rd pe).seq = s.seq ∧ (s.envTo ok sec rd pe).tOk = ok ∧
    (s.envTo ok sec rd pe).tSec = sec ∧ (s.envTo ok sec rd pe).rdata = rd ∧ (s.envTo ok sec rd pe).pending = pe := by
  simp only [State.envTo, and_self]

@[simp] theorem envTo_operands :
    (s.envTo ok sec rd pe).op = s.op ∧ (s.envTo ok sec rd pe).dig = s.dig ∧ (s.envTo ok sec rd pe).isOtp = s.isOtp ∧
    (s.envTo ok sec rd pe).key = s.key ∧ (s.envTo ok sec rd pe).msg = s.msg ∧ (s.envTo ok sec rd pe).ctr = s.ctr ∧
    (s.envTo ok sec rd pe).step64 = s.step64 := by
  simp only [State.op, State.dig, State.isOtp, State.key, State.msg, State.ctr, State.step64, envTo_fields, and_self]

@[simp] theorem envTo_msel : (s.envTo ok sec rd pe).msel = s.msel :=
  State.msel_congr (by simp only [envTo_fields]) (by simp only [envTo_operands]) (by simp only [envTo_operands])

@[simp] theorem envTo_stream : (s.envTo ok sec rd pe).stream = s.stream :=
  State.stream_congr (by simp only [envTo_fields]) (by simp only [envTo_fields]) (by simp only [envTo_fields])
    (by simp only [envTo_operands]) (by simp only [envTo_operands]) (envTo_msel s ok sec rd pe)

@[simp] theorem envTo_nb : (s.envTo ok sec rd pe).nb = s.nb := by simp only [State.nb, envTo_stream]

@[simp] theorem envTo_padded : (s.envTo ok sec rd pe).padded = s.padded := by simp only [State.padded, envTo_stream]

/-- No core step reads or writes the block's inputs and output. -/
theorem coreStep_envTo : coreStep (s.envTo ok sec rd pe) = (coreStep s).envTo ok sec rd pe := by
  have hseq : (s.envTo ok sec rd pe).seq = s.seq := by simp only [envTo_fields]
  cases h : s.seq.phase
  case idle => rw [coreStep_idle s h, coreStep_idle _ (hseq ▸ h)]
  case keysel =>
    rw [coreStep_keysel s h, coreStep_keysel _ (hseq ▸ h), stepKeysel, stepKeysel]
    simp only [envTo_fields]
    split
    · simp only [stepKeyselLong]; rfl
    · simp only [stepKeyselShort, envTo_operands]; rfl
  case init => rw [coreStep_init s h, coreStep_init _ (hseq ▸ h)]; rfl
  case load =>
    rw [coreStep_load s h, coreStep_load _ (hseq ▸ h), stepLoad, stepLoad, envTo_padded, hseq]
    simp only [envTo_fields]
    rfl
  case round => rw [coreStep_round s h, coreStep_round _ (hseq ▸ h)]; rfl
  case add =>
    rw [coreStep_add s h, coreStep_add _ (hseq ▸ h), stepAdd, stepAdd, envTo_nb]
    rfl
  case passend =>
    rw [coreStep_passend s h, coreStep_passend _ (hseq ▸ h), stepPassend, stepPassend, hseq]
    cases s.seq.pass
    · simp only [stepPassendPlain, envTo_fields]; rfl
    · simp only [stepPassendKeyhash, envTo_fields]; rfl
    · simp only [stepPassendInner, envTo_fields]; rfl
    · simp only [stepPassendOuter, envTo_fields, envTo_operands]; rfl
  case trunc => rw [coreStep_trunc s h, coreStep_trunc _ (hseq ▸ h)]; simp only [stepTrunc, envTo_fields]; rfl
  case reduce =>
    rw [coreStep_reduce s h, coreStep_reduce _ (hseq ▸ h)]; simp only [stepReduce, envTo_fields, envTo_operands]; rfl
  case render =>
    rw [coreStep_render s h, coreStep_render _ (hseq ▸ h)]; simp only [stepRender, envTo_fields, envTo_operands]; rfl
  case finish =>
    rw [coreStep_finish s h, coreStep_finish _ (hseq ▸ h)]; simp only [stepFinish, envTo_fields, envTo_operands]; rfl

end

/-- Word index 0 is CMD's, and no other is (R61). -/
theorem target_eq_cmd (a : WordIndex) (h : target a = .reg .cmd) : a = 0 := by
  revert a; decide

/-- Everything a step can do: nothing to the block (a host read, an ignored write, a change of the presented clock, `WAIT` at
its end); the core's step; a reset; and, only while not BUSY, a write to an operand register, a write to a buffer, or the accept
step of the word written to CMD. -/
theorem step_cases {s t : State} (h : step s = .next t) :
    (∃ ok sec rd pe, t = s.envTo ok sec rd pe) ∨
    (∃ pe, t = (coreStep s).envTo s.tOk s.tSec s.rdata pe) ∨
    (∃ pe, s.pending.head? = some .reset ∧ t = (resetBlock s).envTo s.tOk s.tSec s.rdata pe) ∨
    (s.status.busy = false ∧ ∃ r v pe, t = (writeReg r v s).envTo s.tOk s.tSec s.rdata pe) ∨
    (s.status.busy = false ∧ ∃ a off v pe, target a = .buffer off ∧
      t = ({ s with mem := memWriteWord s.mem off v } : State).envTo s.tOk s.tSec s.rdata pe) ∨
    (s.status.busy = false ∧ ∃ v pe, s.pending = .write 0 v :: pe ∧
      ((∃ i, decode v = .legal i ∧ exec i (s.envTo s.tOk s.tSec s.rdata pe) = .next t) ∨
        (∃ why, decode v = .illegal why ∧ t = acceptIllegal v (s.envTo s.tOk s.tSec s.rdata pe)))) := by
  unfold step at h
  cases hp : s.pending with
  | nil =>
    rw [hp] at h
    refine .inr (.inl ⟨[], ?_⟩)
    rw [← Host.Outcome.next.inj h, ← coreStep_envTo, ← hp, envTo_self]
  | cons e pe =>
    rw [hp] at h
    have hs : ({ s with pending := pe } : State) = s.envTo s.tOk s.tSec s.rdata pe := rfl
    simp only [hs] at h
    cases e <;> simp only [runEvent] at h
    case write a v =>
      unfold hostWrite at h
      simp only [envTo_fields] at h
      cases hb : s.status.busy
      · rw [hb] at h
        simp only [Bool.false_eq_true, if_false] at h
        split at h
        · rename_i ht
          obtain rfl := target_eq_cmd a ht
          refine .inr (.inr (.inr (.inr (.inr ⟨rfl, v, pe, rfl, ?_⟩))))
          unfold writeCmd at h
          split at h
          · exact .inl ⟨_, ‹_›, h⟩
          · exact .inr ⟨_, ‹_›, (Host.Outcome.next.inj h).symm⟩
        · rename_i r _ _
          refine .inr (.inr (.inr (.inl ⟨rfl, r, v, pe, ?_⟩)))
          rw [← Host.Outcome.next.inj h]
          cases r <;> rfl
        · exact .inr (.inr (.inr (.inr (.inl ⟨rfl, a, _, v, pe, ‹_›, (Host.Outcome.next.inj h).symm⟩))))
        · exact .inl ⟨_, _, _, pe, (Host.Outcome.next.inj h).symm⟩
      · rw [hb, if_pos rfl] at h
        exact .inl ⟨_, _, _, pe, (Host.Outcome.next.inj h).symm⟩
    case read a => exact .inl ⟨_, _, some (readWord a _), _, (Host.Outcome.next.inj h).symm⟩
    case quiet => exact .inr (.inl ⟨pe, by rw [← coreStep_envTo]; exact (Host.Outcome.next.inj h).symm⟩)
    case clock ok sec => exact .inl ⟨ok, sec, _, pe, (Host.Outcome.next.inj h).symm⟩
    case wait =>
      split at h
      · refine .inr (.inl ⟨.wait :: pe, ?_⟩)
        rw [← Host.Outcome.next.inj h, coreStep_envTo]
        simp only [envTo_fields]
        rfl
      · exact .inl ⟨_, _, some (readWord statusIndex _), _, (Host.Outcome.next.inj h).symm⟩
    case reset => exact .inr (.inr (.inl ⟨pe, by simp, (Host.Outcome.next.inj h).symm⟩))

end Sys2Proof.Machine
end

