-- ==== Sys2Proof/Laws/Safety.lean ====
section
/-! SUPPORT. The predicates of Sys2Proof/Safety.lean, read off by what they depend on. -/

namespace Sys2Proof.Machine

/-! ### PassReady, by the pass -/

theorem passReady_plain (s : State) (h : s.seq.pass = .plain) : PassReady s ↔ s.op = 1 := by simp only [PassReady, h]

theorem passReady_keyhash (s : State) (h : s.seq.pass = .keyhash) :
    PassReady s ↔ s.op ≠ 1 ∧ 64 < s.keyLen.toNat := by simp only [PassReady, h]

theorem passReady_inner (s : State) (h : s.seq.pass = .inner) :
    PassReady s ↔ s.op ≠ 1 ∧ s.k0 = normKey64 s.key := by simp only [PassReady, h]

theorem passReady_outer (s : State) (h : s.seq.pass = .outer) :
    PassReady s ↔ s.op ≠ 1 ∧ s.k0 = normKey64 s.key ∧
      s.idig = sha1 (xorEach (normKey64 s.key).toList ipadByte ++ s.msel) := by simp only [PassReady, h]

/-! ### What a predicate depends on -/

theorem passReady_congr {s t : State} (hp : t.seq.pass = s.seq.pass) (ho : t.op = s.op) (hl : t.keyLen = s.keyLen)
    (hk : t.k0 = s.k0) (hi : t.idig = s.idig) (hkey : t.key = s.key) (hsel : t.msel = s.msel) :
    PassReady t ↔ PassReady s := by simp only [PassReady, hp, ho, hl, hk, hi, hkey, hsel]

theorem operandsLegal_congr {s t : State} (ho : t.op = s.op) (hd : t.dig = s.dig) (hk : t.keyLen = s.keyLen)
    (hm : t.msgLen = s.msgLen) : OperandsLegal t ↔ OperandsLegal s := by simp only [OperandsLegal, ho, hd, hk, hm]

theorem commandTag_congr {s t : State} (ho : t.op = s.op) (hkey : t.key = s.key) (hmsg : t.msg = s.msg)
    (hsel : t.msel = s.msel) : t.commandTag = s.commandTag := by simp only [State.commandTag, ho, hkey, hmsg, hsel]

theorem commandTag_hash (s : State) (h : s.op = 1) : s.commandTag = sha1 s.msg := by rw [State.commandTag, if_pos h]

theorem commandTag_keyed (s : State) (h : s.op ≠ 1) : s.commandTag = hmac64 s.key s.msel := by
  rw [State.commandTag, if_neg h]

theorem isOtp_iff (s : State) : s.isOtp = true ↔ s.op = 3 ∨ s.op = 4 := by simp [State.isOtp]

theorem isOtp_of_hash (s : State) (h : s.op = 1) : s.isOtp = false := by simp [State.isOtp, h]

/-! ### Under a core step, a pass, and a change of the model's own record -/

theorem operandsLegal_coreStep (s : State) : OperandsLegal (coreStep s) ↔ OperandsLegal s :=
  operandsLegal_congr (by simp) (by simp) (by simp) (by simp)

theorem passReady_engineTo (s : State) (h : Vector Word 5) (w : Vector Word 80) (r : Work) (q : Seq)
    (hq : q.pass = s.seq.pass) : PassReady (s.engineTo h w r q) ↔ PassReady s :=
  passReady_congr (by simpa using hq) rfl rfl (by simp) (by simp) (by simp) (by simp)

theorem commandTag_engineTo (s : State) (h : Vector Word 5) (w : Vector Word 80) (r : Work) (q : Seq) :
    (s.engineTo h w r q).commandTag = s.commandTag := commandTag_congr rfl (by simp) (by simp) (by simp)

theorem engineAt_envTo (s : State) (ok : Bool) (sec : Quad) (rd : Option Word) (pe : List Event) (p : Phase) :
    EngineAt (s.envTo ok sec rd pe) p ↔ EngineAt s p := by
  have hr : PassReady (s.envTo ok sec rd pe) ↔ PassReady s :=
    passReady_congr (by simp) (by simp) (by simp) (by simp) (by simp) (by simp) (by simp)
  have ht : (s.envTo ok sec rd pe).commandTag = s.commandTag :=
    commandTag_congr (by simp) (by simp) (by simp) (by simp)
  cases p <;> simp [EngineAt, hr, ht]

theorem engineInv_envTo (s : State) (ok : Bool) (sec : Quad) (rd : Option Word) (pe : List Event) :
    EngineInv (s.envTo ok sec rd pe) ↔ EngineInv s := by
  have hl : OperandsLegal (s.envTo ok sec rd pe) ↔ OperandsLegal s :=
    operandsLegal_congr (by simp) (by simp) (by simp) (by simp)
  constructor
  · rintro ⟨a, b⟩
    rw [engineAt_envTo] at b
    simp only [envTo_fields, hl] at a b
    exact ⟨a, b⟩
  · rintro ⟨a, b⟩
    refine ⟨?_, ?_⟩
    · simpa only [envTo_fields, hl] using a
    · rw [engineAt_envTo]
      simpa only [envTo_fields] using b

theorem engineInv_of_idle (s : State) (h : s.seq.phase = .idle) : EngineInv s :=
  ⟨fun h' => absurd h h', by rw [h]; trivial⟩

theorem StatusInv.idle {s : State} (hs : StatusInv s) (hb : s.status.busy = false) : s.seq.phase = .idle := by
  by_contra hne
  rw [hs.busy_iff.mpr hne] at hb
  cases hb

end Sys2Proof.Machine
end

