-- ==== Sys2Proof/Laws/HostProgram.lean ====
section
/-! SUPPORT. Runs to the end of a command, the serialised counter, and host programs carried out (40_lifecycle.md rules R114, R115;
43_otp.md rule R175; 30_encoding.md rules R97 to R100). -/

namespace Sys2Proof.Machine

/-! ### Runs to the end of a command -/

/-- A core step other than FINISH leaves STATUS and the results, and does not come to rest (R113, R114). -/
theorem coreStep_notFinish (s : State) (h : s.seq.phase ≠ .finish) :
    (coreStep s).status = s.status ∧ (coreStep s).digest = s.digest ∧ (coreStep s).trunc = s.trunc ∧
    (coreStep s).code = s.code ∧ (coreStep s).otpStr = s.otpStr ∧
    (s.seq.phase ≠ .idle → (coreStep s).seq.phase ≠ .idle) := by
  cases hp : s.seq.phase
  case finish => exact absurd hp h
  case idle => rw [coreStep_idle s hp]; simp
  case keysel => rw [coreStep_keysel s hp, stepKeysel]; split <;> simp
  case init => rw [coreStep_init s hp]; simp
  case load => rw [coreStep_load s hp]; simp
  case round => rw [coreStep_round s hp]; simp [Seq.afterRound]; split <;> simp [hp]
  case add => rw [coreStep_add s hp]; simp [Seq.afterAdd]; split <;> simp
  case passend =>
    rw [coreStep_passend s hp, stepPassend]; split <;> simp
    split <;> simp
  case trunc => rw [coreStep_trunc s hp]; simp
  case reduce => rw [coreStep_reduce s hp]; simp
  case render => rw [coreStep_render s hp]; simp

/-- BUSY agrees with the sequencer after a core step if it did before. -/
theorem busy_iff_coreStep (s : State) (h : s.status.busy = true ↔ s.seq.phase ≠ .idle) :
    (coreStep s).status.busy = true ↔ (coreStep s).seq.phase ≠ .idle := by
  by_cases hf : s.seq.phase = .finish
  · simp [coreStep_finish s hf, Status.finished, Seq.rest]
  · obtain ⟨hs, -, -, -, -, hi⟩ := coreStep_notFinish s hf
    rw [hs, h]
    refine ⟨hi, fun hne heq => hne ?_⟩
    rw [coreStep_idle s heq]; exact heq

theorem busy_iff_iterate (n : Nat) (s : State) (h : s.status.busy = true ↔ s.seq.phase ≠ .idle) :
    (coreStep^[n] s).status.busy = true ↔ (coreStep^[n] s).seq.phase ≠ .idle := by
  induction n generalizing s with
  | zero => exact h
  | succ n ih => rw [Function.iterate_succ_apply]; exact ih _ (busy_iff_coreStep s h)

/-- A block busy after n core steps was busy before each of them: idle is at rest. -/
theorem busy_before (n k : Nat) (s : State) (h : s.status.busy = true ↔ s.seq.phase ≠ .idle) (hk : k ≤ n)
    (hb : (coreStep^[n] s).status.busy = true) : (coreStep^[k] s).status.busy = true := by
  rw [busy_iff_iterate k s h]
  intro hidle
  refine (busy_iff_iterate n s h).mp hb ?_
  obtain ⟨m, rfl⟩ := Nat.exists_eq_add_of_le hk
  rw [Nat.add_comm, Function.iterate_add_apply, Function.iterate_fixed (coreStep_idle _ hidle)]
  exact hidle

/-- Where n core steps lead to FINISH, the command ends after n + 1 steps and no fewer (R115). -/
theorem endsAfter_finish (n : Nat) (s v : State) (hp : s.pending = []) (h : s.status.busy = true ↔ s.seq.phase ≠ .idle)
    (hn : coreStep^[n] s = v) (hf : v.seq.phase = .finish) : EndsAfter (n + 1) s (stepFinish v) := by
  have hv : coreStep^[n + 1] s = stepFinish v := by rw [Function.iterate_succ_apply', hn, coreStep_finish v hf]
  refine ⟨hv ▸ runsTo_coreSteps (n + 1) s hp, by simp [Status.finished], fun k hk => ⟨_, runsTo_coreSteps k s hp, ?_⟩⟩
  exact busy_before n k s h (by omega) ((busy_iff_iterate n s h).mpr (by rw [hn, hf]; simp))

/-! ### The serialised counter -/

/-- `CTR = CTR_HI * 2^32 + CTR_LO` (R25). -/
theorem toNat_ctr (s : State) : s.ctr.toNat = s.ctrHi.toNat * 2 ^ 32 + s.ctrLo.toNat := by
  rw [State.ctr, BitVec.toNat_append, Nat.shiftLeft_eq]
  rw [← Nat.shiftLeft_eq, Nat.shiftLeft_add_eq_or_of_lt s.ctrLo.isLt]

/-- CTRBYTES byte by byte (R175). -/
theorem counterBytes_ctrBytes (c : Quad) : CounterBytes (ctrBytes c) c.toNat := by
  refine ⟨length_ctrBytes c, fun i hi => ?_⟩
  simp [ctrBytes, bytesBE, List.getD, hi]

/-! ### A step and the events after it -/

/-- An accept step reads no pending event, if its check and its start read none. -/
theorem accept_pending (word : Word) (check : State → Option Err) (start : State → State) (s : State) (pe : List Event)
    (hc : ∀ u : State, check { u with pending := pe } = check u)
    (hs : ∀ u : State, start { u with pending := pe } = { start u with pending := pe }) :
    accept word check start { s with pending := pe } = { accept word check start s with pending := pe } := by
  have hcl : clearForAccept word { s with pending := pe } = { clearForAccept word s with pending := pe } := rfl
  rw [accept, accept, hcl, hc, hs]
  cases s.status.busy
  · cases check (clearForAccept word s) <;> rfl
  · rfl

/-- A command's own step reads no pending event. -/
theorem exec_pending (i : Instr) (s t : State) (pe : List Event) (h : exec i s = .next t) :
    exec i { s with pending := pe } = .next { t with pending := pe } := by
  rw [exec_eq_accept] at h ⊢
  rw [← Host.Outcome.next.inj h]
  cases i <;> exact congrArg _ (accept_pending _ _ _ s pe (fun _ => rfl) (fun _ => rfl))

theorem coreStep_pending (s : State) (pe : List Event) :
    coreStep { s with pending := pe } = { coreStep s with pending := pe } := by
  have h := coreStep_envTo s s.tOk s.tSec s.rdata pe
  have hf := coreStep_frame s
  simp only [State.envTo] at h
  rw [h, hf.2.2.2.2.2.2.2.2.1.symm, hf.2.2.2.2.2.2.2.2.2.1.symm, hf.2.2.2.2.2.2.2.2.2.2.1.symm]

/-- A command's own step leaves the pending events. -/
theorem exec_keeps_pending (i : Instr) (s t : State) (h : exec i s = .next t) : t.pending = s.pending := by
  rcases exec_cases h with ⟨-, rfl⟩ | ⟨-, e, -, rfl⟩ | ⟨-, -, rfl⟩
  · rfl
  · simp
  · cases i <;> simp [startOf]

theorem acceptIllegal_keeps_pending (w : Word) (s : State) : (acceptIllegal w s).pending = s.pending := by
  rw [acceptIllegal]
  rcases accept_cases w (fun _ => some .illegalCmd) id s with ⟨-, h⟩ | ⟨-, e, -, h⟩ | ⟨-, -, h⟩ <;> rw [h] <;> simp

/-- What one event does does not depend on the events that come after the pending ones. -/
theorem runEvent_append (e : Event) (s t : State) (pe : List Event) (h : runEvent e s = .next t) :
    runEvent e { s with pending := s.pending ++ pe } = .next { t with pending := t.pending ++ pe } := by
  cases e <;> simp only [runEvent] at h ⊢
  case write a v =>
    simp only [hostWrite] at h ⊢
    split at h
    · rename_i hb
      obtain rfl := Host.Outcome.next.inj h
      rw [if_pos hb]
    · rename_i hb
      rw [if_neg hb]
      split at h
      · simp only [writeCmd] at h ⊢
        split at h
        · rename_i i _
          rw [exec_keeps_pending i s t h]
          exact exec_pending i s t _ h
        · obtain rfl := Host.Outcome.next.inj h
          rw [acceptIllegal_keeps_pending]
          exact congrArg _ (accept_pending _ _ _ s _ (fun _ => rfl) (fun _ => rfl))
      · rename_i r _ _
        obtain rfl := Host.Outcome.next.inj h
        cases r <;> rfl
      all_goals (obtain rfl := Host.Outcome.next.inj h; rfl)
  case quiet =>
    obtain rfl := Host.Outcome.next.inj h
    rw [coreStep_pending, (coreStep_frame s).2.2.2.2.2.2.2.2.2.2.2]
  case wait =>
    split at h
    · rename_i hb
      obtain rfl := Host.Outcome.next.inj h
      rw [if_pos hb, coreStep_pending]; rfl
    · rename_i hb
      obtain rfl := Host.Outcome.next.inj h
      rw [if_neg hb]; rfl
  all_goals (obtain rfl := Host.Outcome.next.inj h; rfl)

/-- What a step does does not depend on the events that come after the pending ones. -/
theorem step_append (s t : State) (pe : List Event) (hp : s.pending ≠ []) (h : step s = .next t) :
    step { s with pending := s.pending ++ pe } = .next { t with pending := t.pending ++ pe } := by
  cases hq : s.pending with
  | nil => exact absurd hq hp
  | cons e es =>
    simp only [step, hq, List.cons_append] at h ⊢
    exact runEvent_append e _ t pe h

/-! ### Host programs carried out -/

@[simp] theorem hostRun_nil (n : Nat) (s : State) (h : s.pending = []) : hostRun n s = some (s, []) := by
  cases n <;> simp [hostRun, h]

/-- One event carried out: the value it returned, before the values of the rest. -/
theorem hostRun_step (n : Nat) (s t : State) (e : Event) (pe : List Event) (hp : s.pending = e :: pe)
    (h : step s = .next t) : hostRun (n + 1) s = (hostRun n t).map fun r => (r.1, (valueRead s t).toList ++ r.2) := by
  simp only [hostRun, hp, h, reduceCtorEq, if_false]

/-- More fuel changes nothing. -/
theorem hostRun_mono (n m : Nat) (s : State) (r : State × List Word) (hnm : n ≤ m) (h : hostRun n s = some r) :
    hostRun m s = some r := by
  induction n generalizing m s r with
  | zero =>
    simp only [hostRun] at h
    split at h
    · rename_i hp; rw [hostRun_nil m s hp, h]
    · cases h
  | succ n ih =>
    obtain ⟨m, rfl⟩ := Nat.exists_eq_add_of_le' (show 1 ≤ m by omega)
    simp only [hostRun] at h ⊢
    split at h
    · rename_i hp; rw [if_pos hp, h]
    · rename_i hp
      rw [if_neg hp]
      split at h
      · rename_i t ht
        obtain ⟨q, hq, rfl⟩ := Option.map_eq_some_iff.mp h
        rw [ih m t q (by omega) hq]
        rfl
      all_goals cases h

/-- Two programs one after the other: the second starts where the first ends, and the values read follow each other. -/
theorem hostRun_append (n m : Nat) (s u : State) (pe : List Event) (vs : List Word) (r : State × List Word)
    (h : hostRun n s = some (u, vs)) (hr : hostRun m { u with pending := pe } = some r) :
    hostRun (n + m) { s with pending := s.pending ++ pe } = some (r.1, vs ++ r.2) := by
  induction n generalizing s vs with
  | zero =>
    simp only [hostRun] at h
    split at h
    · rename_i hp
      obtain ⟨rfl, rfl⟩ := Prod.mk.inj (Option.some.inj h)
      rw [hp, List.nil_append, Nat.zero_add, hr]; rfl
    · cases h
  | succ n ih =>
    cases hp : s.pending with
    | nil =>
      rw [hostRun_nil _ s hp] at h
      obtain ⟨rfl, rfl⟩ := Prod.mk.inj (Option.some.inj h)
      rw [List.nil_append, hostRun_mono m _ _ r (by omega) hr]; rfl
    | cons e es =>
      simp only [hostRun, hp, reduceCtorEq, if_false] at h
      split at h
      · rename_i t ht
        obtain ⟨⟨u', vs'⟩, hq, he⟩ := Option.map_eq_some_iff.mp h
        obtain ⟨rfl, rfl⟩ := Prod.mk.inj he
        have ht' : step { s with pending := e :: es ++ pe } = .next { t with pending := t.pending ++ pe } := by
          rw [← hp]; exact step_append s t pe (by rw [hp]; exact List.cons_ne_nil e es) ht
        rw [Nat.add_right_comm, hostRun_step _ _ _ e (es ++ pe) rfl ht', ih t vs' hq]
        have hv : valueRead { s with pending := e :: es ++ pe } { t with pending := t.pending ++ pe } = valueRead s t := by
          simp only [valueRead, hp, List.cons_append]
          cases e <;> rfl
        rw [hv, List.append_assoc]; rfl
      all_goals cases h

/-- WAIT in a busy block carries the core through its steps, and then reads STATUS (R99). -/
theorem hostRun_wait (n : Nat) (s : State) (pe : List Event) (hp : s.pending = .wait :: pe)
    (hb : ∀ k < n, (coreStep^[k] s).status.busy = true) (hn : (coreStep^[n] s).status.busy = false)
    (m : Nat) (r : State × List Word)
    (hr : hostRun m (hostRead statusIndex { coreStep^[n] s with pending := pe }) = some r) :
    hostRun (n + 1 + m) s = some (r.1, (coreStep^[n] s).status.word :: r.2) := by
  induction n generalizing s with
  | zero =>
    have hn : s.status.busy = false := hn
    have ht : step s = .next (hostRead statusIndex { s with pending := pe }) := by
      simp only [step, hp, runEvent, hn, Bool.false_eq_true, if_false]
    rw [show 0 + 1 + m = m + 1 by omega, hostRun_step m s _ .wait pe hp ht]
    simp only [Function.iterate_zero, id_eq] at hr ⊢
    rw [hr]
    simp only [valueRead, hp, hn, Bool.false_eq_true, if_false, hostRead_fields, Option.map_some, Option.toList_some,
      List.singleton_append]
    rfl
  | succ n ih =>
    have h0 : s.status.busy = true := hb 0 (by omega)
    have ht : step s = .next (coreStep s) := by
      have hc : (coreStep s).pending = .wait :: pe := by rw [(coreStep_frame s).2.2.2.2.2.2.2.2.2.2.2, hp]
      simp only [step, hp, runEvent, h0, if_true]
      rw [coreStep_pending, ← hc]
    rw [show n + 1 + 1 + m = (n + 1 + m) + 1 by omega, hostRun_step _ s _ .wait pe hp ht]
    rw [Function.iterate_succ_apply] at hn hr ⊢
    rw [ih (coreStep s) (by rw [(coreStep_frame s).2.2.2.2.2.2.2.2.2.2.2, hp])
      (fun k hk => by have := hb (k + 1) (by omega); rwa [Function.iterate_succ_apply] at this) hn hr]
    simp only [valueRead, hp, h0, if_true, Option.map_some, Option.toList_none, List.nil_append]

/-- A core step between two lines while idle changes nothing (R97, R113). -/
theorem hostRun_quiet_idle (n : Nat) (s : State) (pe : List Event) (hi : s.seq.phase = .idle) :
    hostRun (n + 1) { s with pending := .quiet :: pe } = hostRun n { s with pending := pe } := by
  have ht : step { s with pending := .quiet :: pe } = .next { s with pending := pe } := by
    show Host.Outcome.next (coreStep { s with pending := pe }) = _
    rw [coreStep_idle { s with pending := pe } hi]
  rw [hostRun_step n _ _ .quiet pe rfl ht]
  simp [valueRead]

/-! ### The lines that load a buffer -/

/-- A write to a buffer word while idle (R64 case 4). -/
theorem step_wrLine_buffer (s : State) (offset : Nat) (v : Word) (pe : List Event) (hb : s.status.busy = false)
    (h4 : offset % 4 = 0) (ho : inBuffer offset) :
    step { s with pending := wrLine offset v ++ pe } =
      .next { s with mem := memWriteWord s.mem offset v, pending := pe } := by
  have h1 : 4 * (BitVec.ofNat 9 (offset / 4)).toNat = offset := by
    simp only [inBuffer, keyBase, msgBase, Config.keyCap, Config.msgCap] at ho
    rw [BitVec.toNat_ofNat]; omega
  have ht : target (BitVec.ofNat 9 (offset / 4)) = .buffer offset := by
    have := target_of_inBuffer (BitVec.ofNat 9 (offset / 4)) (by rw [h1]; exact ho)
    rwa [h1] at this
  simp only [wrLine, List.singleton_append, step, runEvent, hostWrite, hb, Bool.false_eq_true, if_false, ht]

/-- The word writes number j0 to j0 + n - 1 of a sequence loaded at a buffer's base (R99): they put its bytes, and zeros past its
end, in their places, and change no other byte and nothing else. -/
theorem runsTo_loadWords (x : List Byte) (base : Nat) (h4 : base % 4 = 0) (n j0 : Nat) (s : State) (pe : List Event)
    (hb : s.status.busy = false) (hm : memWf s.mem) (hin : ∀ j < j0 + n, ∀ i < 4, inBuffer (base + 4 * j + i)) :
    ∃ m, memWf m ∧
      (∀ a, memGet m a =
        if base + 4 * j0 ≤ a ∧ a < base + 4 * (j0 + n) then x.getD (a - base) 0 else memGet s.mem a) ∧
      RunsTo n
        { s with pending := (List.range' j0 n).flatMap (fun j => wrLine (base + 4 * j) (be32At x (4 * j))) ++ pe }
        { s with mem := m, pending := pe } := by
  induction n generalizing j0 s with
  | zero => exact ⟨s.mem, hm, fun a => by rw [if_neg (by omega)], rfl⟩
  | succ n ih =>
    have hj := hin j0 (by omega)
    obtain ⟨m, h1, h2, h3⟩ := ih (j0 + 1) { s with mem := memWriteWord s.mem (base + 4 * j0) (be32At x (4 * j0)) } hb
      (memWf_memWriteWord s.mem (base + 4 * j0) (be32At x (4 * j0)) hm hj) (fun j hj => hin j (by omega))
    refine ⟨m, h1, fun a => ?_, ?_⟩
    · rw [h2]
      by_cases ha : base + 4 * (j0 + 1) ≤ a ∧ a < base + 4 * (j0 + 1 + n)
      · rw [if_pos ha, if_pos (by omega)]
      · rw [if_neg ha, memGet_memWriteWord _ _ _ _ hm.1]
        split
        · obtain ⟨d, rfl⟩ : ∃ d, a = base + 4 * j0 + d := ⟨a - (base + 4 * j0), by omega⟩
          rw [if_pos (by omega), show base + 4 * j0 + d - (base + 4 * j0) = d by omega,
            show base + 4 * j0 + d - base = 4 * j0 + d by omega]
          exact wordByte_be32At x (4 * j0) d (by omega)
        · rw [if_neg (by omega)]
    · rw [List.range'_succ, List.flatMap_cons, List.append_assoc]
      exact runsTo_succ n _ _ _ (step_wrLine_buffer s _ _ _ hb (by omega) (hj 0 (by omega))) h3

end Sys2Proof.Machine
end

