-- ==== Sys2Proof/Laws/PerInstr.lean ====
section
/-! SUPPORT. Laws stated per command: its word lies in its own row of the opcode table and in no other (30_encoding.md rules R91,
R98). -/

namespace Sys2Proof.Laws

/-- The command's word is selected by the rows that carry its mnemonic and by no other row. -/
def EncodeMatchesRow.Statement (i : Instr) : Prop :=
  ∀ r ∈ opcodeTable, (r.selects (encode i) = true ↔ r.mnemonic = i.mnemonic)

theorem EncodeMatchesRow.hash : EncodeMatchesRow.Statement .hash := by unfold EncodeMatchesRow.Statement; decide

theorem EncodeMatchesRow.hmac : EncodeMatchesRow.Statement .hmac := by unfold EncodeMatchesRow.Statement; decide

theorem EncodeMatchesRow.hotp (digits : BitVec 4) : EncodeMatchesRow.Statement (.hotp digits) := by
  unfold EncodeMatchesRow.Statement
  revert digits
  decide

theorem EncodeMatchesRow.totp (digits : BitVec 4) : EncodeMatchesRow.Statement (.totp digits) := by
  unfold EncodeMatchesRow.Statement
  revert digits
  decide

end Sys2Proof.Laws
end

