-- ==== Sys2Proof/Tests/Slice0.lean ====
section
/-! SUPPORT. Tests against the spec's own examples (95_test_vectors.md and the worked examples of the rules), and one witness for
the hypotheses of each statement. -/

open Sys2Proof Sys2Proof.Machine

namespace Sys2Proof.Tests

/-! ### Small states -/

/-- The next state of a step, if it has one. -/
def nextOf (o : Host.Outcome State Fault Refusal) : Option State :=
  match o with
  | .next s => some s
  | .fault _ => none
  | .refused _ => none

/-- Idle, with every operand at a boundary the checks pass: KEY_LEN 256, MSG_LEN 1024, STEP 30, the clock at 59. -/
def ready : State := { State.reset with keyLen := 256, msgLen := 1024, stepLo := 30, tOk := true, tSec := 59 }

/-- Busy with the command of a word, at a phase and a pass. -/
def running (word : Word) (phase : Phase) (pass : Pass) : State :=
  { State.reset with cmd := word, status := Status.clear.started, seq := ⟨phase, pass, 0, 0⟩ }

/-- The tag of HOTP at counter 1 (R178's worked example). -/
def tag1 : Vector Byte 20 :=
  #v[0x75, 0xa4, 0x8a, 0x19, 0xd4, 0xcb, 0xe1, 0x00, 0x64, 0x4e, 0x8a, 0xc1, 0x39, 0x7e, 0xea, 0x74, 0x7a, 0x2d, 0x33, 0xab]

/-! ### Well-formedness: each check refuses an ill-formed command (R91, R92) -/

theorem test_wellFormed_refuses_hotp_low : (Instr.hotp 0).wellFormed = false := by decide
theorem test_wellFormed_refuses_hotp_high : (Instr.hotp 10).wellFormed = false := by decide
theorem test_wellFormed_refuses_totp_low : (Instr.totp 0).wellFormed = false := by decide
theorem test_wellFormed_refuses_totp_high : (Instr.totp 15).wellFormed = false := by decide
theorem test_wellFormed_accepts_the_range :
    (∀ d : BitVec 4, 1 ≤ d.toNat → d.toNat ≤ 9 → (Instr.hotp d).wellFormed = true ∧ (Instr.totp d).wellFormed = true) ∧
      Instr.hash.wellFormed = true ∧ Instr.hmac.wellFormed = true := by decide

/-! ### Decoding words written out bit by bit from R90 and R91: ZERO 31:8, DIG 7:4, OP 3:0 -/

theorem test_decode_hash : decode (0b000000000000000000000000#24 ++ 0b0000#4 ++ 0b0001#4) = .legal .hash := by decide
theorem test_decode_hmac : decode (0b000000000000000000000000#24 ++ 0b0000#4 ++ 0b0010#4) = .legal .hmac := by decide
theorem test_decode_hotp : decode (0b000000000000000000000000#24 ++ 0b0110#4 ++ 0b0011#4) = .legal (.hotp 6) := by decide
theorem test_decode_totp : decode (0b000000000000000000000000#24 ++ 0b1000#4 ++ 0b0100#4) = .legal (.totp 8) := by decide
/-- R94: a bit above DIG, a DIG in HASH, an OP of 5. -/
theorem test_decode_illegal :
    decode 0x00000101 = .illegal .reservedBits ∧ decode 0x00000021 = .illegal .digitsNotZero ∧
      decode 0x00000005 = .illegal .noSuchOperation := by decide
theorem test_decodeTableWord :
    decodeTableWord 32 0x93 = some (.hotp 9) ∧ decodeTableWord 8 0x1 = some .hash ∧ decodeTableWord 32 0 = none := by decide

/-! ### One step (the worked examples of R141, R165, R185, R186, R176; 95_test_vectors.md) -/

/-- HASH is accepted with the longest message and refused with LENGTH one byte later (R141, R209). -/
theorem test_hash_accept :
    (nextOf (exec .hash ready)).map (·.status.word) = some 0x001 ∧
      (nextOf (exec .hash { ready with msgLen := 1025 })).map (·.status.word) = some 0x406 := by decide
theorem test_hash_while_busy : exec .hash (running 1 .init .plain) = .next (running 1 .init .plain) := by rfl

/-- HMAC checks both lengths; it starts at KEYSEL (R165). -/
theorem test_hmac_accept :
    (nextOf (exec .hmac ready)).map (fun t => (t.status.word, t.seq.phase, t.cmd)) = some (0x001, .keysel, 2) ∧
      (nextOf (exec .hmac { ready with keyLen := 257 })).map (·.status.word) = some 0x406 := by decide

/-- HOTP ignores STEP and the clock (R96) and checks DIG before KEY_LEN (R213). -/
theorem test_hotp_accept :
    (nextOf (exec (.hotp 6) { ready with stepLo := 0, tOk := false })).map (·.status.word) = some 0x001 ∧
      (nextOf (exec (.hotp 10) { ready with keyLen := 257 })).map (·.status.word) = some 0x206 := by decide

/-- TOTP latches floor(1111111109 / 30) = 0x23523EC (R176). -/
theorem test_totp_counter :
    (nextOf (exec (.totp 8) { ready with tSec := 1111111109 })).map (fun t => (t.ctrHi, t.ctrLo)) =
      some (0, 0x23523EC) := by decide
/-- STEP_ZERO comes before CLOCK (R213); a negative time is CLOCK, CTR kept (R206). -/
theorem test_totp_errors :
    (nextOf (exec (.totp 8) { ready with stepLo := 0, tOk := false })).map (·.status.word) = some 0x306 ∧
      (nextOf (exec (.totp 8) { ready with tSec := -1, ctrLo := 7 })).map (fun t => (t.status.word, t.ctrLo)) =
        some (0x106, 7) := by decide

/-- A word that is no command, written by the host, is ILLEGAL_CMD (R210). -/
theorem test_step_illegal :
    (nextOf (step (ready.withFetchWord 32 0x163))).map (fun t => (t.status.word, t.cmd)) = some (0x506, 0x163) := by decide
theorem test_step_fetch :
    (nextOf (step (State.reset.withFetchWord 32 0x1))).map (fun t => (t.status.word, t.seq.phase)) = some (0x001, .init) := by
  decide

/-! ### The host port -/

/-- The bytes of a written word, most significant first, and the word read back (R64, R65). -/
theorem test_buffer_bytes :
    (nextOf (step { ready with pending := [.write 0x40 0x31323334] })).map (·.mem) =
      some [(0x100, 0x31), (0x101, 0x32), (0x102, 0x33), (0x103, 0x34)] := by decide
/-- Writing zero bytes over a word empties its cells: the memory's canonical form (log 6). -/
theorem test_buffer_canonical :
    (nextOf (step { ready with mem := [(0x100, 0x31), (0x104, 0x35)], pending := [.write 0x40 0] })).map (·.mem) =
      some [(0x104, 0x35)] := by decide
theorem test_read_status :
    (nextOf (step { running 3 .init .plain with pending := [.read 1] })).map (·.rdata) = some (some 1) := by decide
theorem test_read_reserved :
    (nextOf (step { ready with pending := [.read 15] })).map (·.rdata) = some (some 0) := by decide

/-! ### The functions, on the spec's known answers -/

/-- SHA1 of "abc" (95_test_vectors.md section 1.1). -/
theorem test_sha1_abc :
    digestWords (sha1 [0x61, 0x62, 0x63]) = #v[0xa9993e36, 0x4706816a, 0xba3e2571, 0x7850c26c, 0x9cd0d89d] := by decide +kernel

/-- The padded block of "abc" (section 2.1). -/
theorem test_pad_abc :
    pad [0x61, 0x62, 0x63] = [0x61, 0x62, 0x63, 0x80] ++ zeros 52 ++ [0, 0, 0, 0, 0, 0, 0, 0x18] := by decide +kernel

/-- Block counts (section 2.1). -/
theorem test_numBlocks :
    [0, 55, 56, 63, 64, 119, 120, 183, 184, 1024, 1088].map numBlocks = [1, 1, 2, 2, 2, 2, 3, 3, 4, 17, 18] := by decide

/-- The round functions and rotations (section 2.1). -/
theorem test_roundFn :
    [0, 20, 40, 60].map (fun t => roundFn t 0xEFCDAB89 0x98BADCFE 0x10325476) =
      [0x98BADCFE, 0x67452301, 0x98BADCFE, 0x67452301] := by decide
theorem test_rotl : rotl 0x67452301 5 = 0xE8A4602C ∧ rotl 0xEFCDAB89 30 = 0x7BF36AE2 := by decide

/-- The inner and outer key pads of "key" begin so (R157's worked example). -/
theorem test_key_pads :
    (xorEach (normKey64 [0x6B, 0x65, 0x79]).toList ipadByte).take 4 = [0x5D, 0x53, 0x4F, 0x36] ∧
      (xorEach (normKey64 [0x6B, 0x65, 0x79]).toList opadByte).take 4 = [0x37, 0x39, 0x25, 0x5C] := by decide

/-- Counter serialisation (R175's worked examples). -/
theorem test_ctrBytes : ctrBytes 0x23523EC = [0, 0, 0, 0, 0x02, 0x35, 0x23, 0xEC] := by decide

/-- Truncation, reduction and rendering of the tag of counter 1: 0x41397EEA, 287082, "287082" (R178, R179, R185). -/
theorem test_truncation : dtOffset tag1 = 11 ∧ dtValue tag1 = 0x41397EEA := by decide
theorem test_reduction : [1, 6, 8, 9].map (reduceCode 0x7FFFFFFF) = [7, 483647, 47483647, 147483647] := by decide
theorem test_render : render 7081 6 = [0x30, 0x30, 0x37, 0x30, 0x38, 0x31] := by decide
theorem test_finish_publishes :
    (coreStep { running 0x63 .finish .outer with
        tag := tag1, tval := 0x41397EEA, tcode := 287082, tstr := renderField 287082 6 }).otpStr =
      #v[0x32383730, 0x38320000, 0] := by decide

/-! ### The source's entry points (R99, R100) -/

/-- LOADMSG of "abc" and its command, WAIT and the five reads (R99, R100; 95_test_vectors.md P1). -/
theorem test_hashProgram :
    hashProgram [0x61, 0x62, 0x63] =
      [.write 256 0x61626300, .write 3 3, .write 0 1, .wait, .read 8, .read 9, .read 10, .read 11, .read 12] := by decide
theorem test_totpProgram :
    totpProgram [] 8 0x500000001E = [.write 2 0, .write 6 0x50, .write 7 0x1E, .write 0 0x84, .wait] := by decide
/-- What the host does for each STATUS value that ends a TOTP (R22, R100, R205). -/
theorem test_afterWait :
    [0x01A, 0x106, 0x206, 0x306, 0x406].map afterWait =
      [.readResult, .clockError, .contractViolation, .contractViolation, .contractViolation] := by decide
/-- The string of counter 1 in 6 digits, "287082", from OTP_STR0 to OTP_STR2 (section 2.4). -/
theorem test_decimalString :
    decimalString 6 [0x32383730, 0x38320000, 0] = [0x32, 0x38, 0x37, 0x30, 0x38, 0x32] := by decide
/-- A time before the epoch (section 2.5): `generateTotp` answers `ClockError`. -/
theorem test_generateTotp_clockError :
    (generateTotp 5 [] 8 30 { ready with tSec := -1 }).map (·.2) = some .clockError := by decide

/-! ### The core steps -/

theorem test_keysel_boundary :
    (coreStep { running 2 .keysel .plain with keyLen := 64 }).seq.pass = .inner ∧
      (coreStep { running 2 .keysel .plain with keyLen := 65 }).seq.pass = .keyhash := by decide
theorem test_passend_outer :
    (coreStep (running 2 .passend .outer)).seq.phase = .finish ∧
      (coreStep (running 0x64 .passend .outer)).seq.phase = .trunc := by decide
theorem test_reset_while_busy :
    (nextOf (step { running 2 .round .inner with keyLen := 5, pending := [.reset] })).map (fun t => (t.seq, t.keyLen)) =
      some (Seq.rest, 0) := by decide

/-! ### Witnesses: for each statement with hypotheses, a concrete state and operands that meet all of them, for each clause -/

theorem running_status (w : Word) (p : Phase) (q : Pass) (h : p ≠ .idle) : StatusInv (running w p q) :=
  ⟨by simpa [running, Status.started] using h, by simp [running, Status.started, Status.clear],
    by show Status.word ⟨true, false, false, false, false, 0⟩ ∈ statusValues; decide⟩

theorem running_results (w : Word) (p : Phase) (q : Pass) : ResultInv (running w p q) :=
  ⟨fun _ => rfl, fun _ => ⟨rfl, rfl, rfl⟩, by show (0 : Nat) < 2 ^ 31; decide, fun h => by cases h⟩

theorem ready_status : StatusInv ready := ⟨by decide, by decide, by decide⟩

/-- A block at KEYSEL, busy with HMAC of the longest operands. -/
def atKeysel : State := { running 2 .keysel .plain with keyLen := 256, msgLen := 1024 }

theorem atKeysel_status : StatusInv atKeysel := ⟨by decide, by decide, by decide⟩
theorem atKeysel_sequencer : SequencerInv atKeysel := ⟨by decide, by decide, by decide⟩
theorem atKeysel_results : ResultInv atKeysel := ⟨fun _ => rfl, fun _ => ⟨rfl, rfl, rfl⟩, by decide, by decide⟩
theorem atKeysel_engine : EngineInv atKeysel :=
  ⟨fun _ => .inr (.inl ⟨by decide, by decide, by decide⟩), by show atKeysel.op ≠ 1; decide⟩

theorem witness_DecodeFollowsTheOpcodeTable :
    (⟨"HOTP", 0x3, 0xFFFFFF0F⟩ : OpcodeRow) ∈ opcodeTable ∧ (∀ r ∈ opcodeTable, r.selects 0 = false) := by decide

theorem witness_StepRunsTheDecodedCommand : decode 0x63 = .legal (.hotp 6) ∧ State.reset.pending = [] := by decide

theorem witness_HashStartsThePlainPass : ready.status.busy = false ∧ ready.msgLen.toNat ≤ 1024 := by decide

theorem witness_HmacStartsAtKeysel :
    ready.status.busy = false ∧ ready.keyLen.toNat ≤ 256 ∧ ready.msgLen.toNat ≤ 1024 := by decide

theorem witness_HotpStartsAtKeysel :
    ready.status.busy = false ∧ ready.keyLen.toNat ≤ 256 ∧
      (1 ≤ (1 : BitVec 4).toNat ∧ (1 : BitVec 4).toNat ≤ 9) ∧ (1 ≤ (9 : BitVec 4).toNat ∧ (9 : BitVec 4).toNat ≤ 9) := by
  decide

theorem witness_TotpLatchesTheCounterAndStarts :
    ready.status.busy = false ∧ 1 ≤ (9 : BitVec 4).toNat ∧ (9 : BitVec 4).toNat ≤ 9 ∧ ready.keyLen.toNat ≤ 256 ∧
      (ready.stepHi ≠ 0 ∨ ready.stepLo ≠ 0) ∧ ready.tOk = true ∧ ready.tSec.msb = false := by decide

/-- The clock just before the epoch, unavailable, at the epoch, and at its last value. -/
theorem witness_TotpCounterIsTheFloorOfTime :
    ready.status.busy = false ∧ 1 ≤ (1 : BitVec 4).toNat ∧ (1 : BitVec 4).toNat ≤ 9 ∧ ready.keyLen.toNat ≤ 256 ∧
      ready.step64 ≠ 0 ∧
      ({ ready with tSec := -1 } : State).tSec.toInt < 0 ∧ ({ ready with tOk := false } : State).tOk = false ∧
      (ready.tOk = true ∧ 0 ≤ ({ ready with tSec := 0 } : State).tSec.toInt) ∧
      0 ≤ ({ ready with tSec := 0x7FFFFFFFFFFFFFFF } : State).tSec.toInt := by decide

/-- One state and operand for each check of the accept step, at its boundary. -/
theorem witness_FirstFailingCheckRaisesItsError :
    ready.status.busy = false ∧ decode 0 = .illegal .noSuchOperation ∧
      (0 : BitVec 4).toNat < 1 ∧ 9 < (10 : BitVec 4).toNat ∧
      1024 < ({ ready with msgLen := 1025 } : State).msgLen.toNat ∧
      256 < ({ ready with keyLen := 257 } : State).keyLen.toNat ∧
      (1 ≤ (1 : BitVec 4).toNat ∧ (9 : BitVec 4).toNat ≤ 9 ∧ ready.keyLen.toNat ≤ 256) ∧
      (({ ready with stepLo := 0 } : State).stepHi = 0 ∧ ({ ready with stepLo := 0 } : State).stepLo = 0) ∧
      ((ready.stepHi ≠ 0 ∨ ready.stepLo ≠ 0) ∧
        (({ ready with tOk := false } : State).tOk = false ∧ ({ ready with tSec := -1 } : State).tSec.getLsbD 63 = true)) := by
  decide

theorem witness_FirstFailingCheckRaisesItsError_idle : StatusInv ready := ready_status

theorem witness_IllegalCmdExactlyForWordsOutsideTheTable : ready.status.busy = false := by decide

theorem witness_CommandWhileBusyIsIgnored : atKeysel.status.busy = true := by decide

theorem witness_AcceptStepKeepsTheInputs : ∃ t, exec (.totp 6) ready = .next t := ⟨_, rfl⟩

/-- Each clause of the address map at an address of its own. -/
theorem witness_HostReadFollowsTheAddressMap :
    4 * (0 : WordIndex).toNat = 0x000 ∧ 4 * (1 : WordIndex).toNat = 0x004 ∧ 4 * (2 : WordIndex).toNat = 0x008 ∧
      4 * (3 : WordIndex).toNat = 0x00C ∧ 4 * (4 : WordIndex).toNat = 0x010 ∧ 4 * (5 : WordIndex).toNat = 0x014 ∧
      4 * (6 : WordIndex).toNat = 0x018 ∧ 4 * (7 : WordIndex).toNat = 0x01C ∧
      4 * (8 : WordIndex).toNat = 0x020 + 4 * (0 : Fin 5).val ∧ 4 * (12 : WordIndex).toNat = 0x020 + 4 * (4 : Fin 5).val ∧
      4 * (13 : WordIndex).toNat = 0x034 ∧ 4 * (14 : WordIndex).toNat = 0x038 ∧
      4 * (16 : WordIndex).toNat = 0x040 + 4 * (0 : Fin 3).val ∧ 4 * (18 : WordIndex).toNat = 0x040 + 4 * (2 : Fin 3).val ∧
      4 * (64 : WordIndex).toNat = 0x100 ∧ 4 * (127 : WordIndex).toNat = 0x1FC ∧ 4 * (256 : WordIndex).toNat = 0x400 ∧
      4 * (511 : WordIndex).toNat = 0x7FC := by decide

theorem witness_HostReadFollowsTheAddressMap_busy :
    0x020 ≤ 4 * (8 : WordIndex).toNat ∧ 4 * (18 : WordIndex).toNat ≤ 0x048 ∧ atKeysel.status.busy = true ∧
      StatusInv atKeysel ∧ ResultInv atKeysel :=
  ⟨by decide, by decide, by decide, atKeysel_status, atKeysel_results⟩

theorem witness_ReservedAddressesReadZeroAndIgnoreWrites :
    4 * (15 : WordIndex).toNat = 0x03C ∧ 4 * (19 : WordIndex).toNat = 0x04C ∧ 4 * (63 : WordIndex).toNat = 0x0FC ∧
      4 * (128 : WordIndex).toNat = 0x200 ∧ 4 * (255 : WordIndex).toNat = 0x3FC := by decide

theorem witness_ReadOnlyRegistersIgnoreWrites :
    4 * (1 : WordIndex).toNat = 0x004 ∧ 4 * (8 : WordIndex).toNat = 0x020 ∧ 4 * (14 : WordIndex).toNat = 0x038 ∧
      4 * (16 : WordIndex).toNat = 0x040 ∧ 4 * (18 : WordIndex).toNat = 0x048 := by decide

theorem witness_OperandRegistersStoreTheWord : ready.status.busy = false := by decide

theorem witness_BufferWriteStoresFourBytes :
    memWf ({ ready with mem := [(0x100, 0x31), (0x7FF, 0x35)] } : State).mem ∧ ready.status.busy = false ∧
      4 * (64 : WordIndex).toNat = 0x100 ∧ 4 * (127 : WordIndex).toNat = 0x1FC ∧
      0x400 ≤ 4 * (256 : WordIndex).toNat ∧ 4 * (511 : WordIndex).toNat = 0x7FC := by decide

theorem witness_BufferWordReadsBack :
    memWf ready.mem ∧ ready.status.busy = false ∧ 0x400 ≤ 4 * (511 : WordIndex).toNat := by decide

theorem witness_OperandsAreFrozenWhileBusy :
    atKeysel.status.busy = true ∧ NoResetNext atKeysel ∧ ∃ t, step atKeysel = .next t := ⟨by decide, by show atKeysel.pending.head? ≠ some .reset; decide, _, rfl⟩

/-- Two states that differ in hidden registers only. -/
theorem witness_HostReadsHideTheHiddenRegisters :
    SameVisible ready { ready with tval := 5, k0 := Vector.replicate 64 1 } ∧
      ({ ready with tval := 5, k0 := Vector.replicate 64 1 } : State) ≠ ready :=
  ⟨⟨fun r => by cases r <;> rfl, fun _ => rfl⟩, by decide⟩

theorem witness_LoadLinesLeaveTheSequence :
    memWf ready.mem ∧ ready.status.busy = false ∧ (zeros 256).length ≤ 256 ∧ (zeros 1024).length ≤ 1024 ∧
      ready.keyLen.toNat ≤ 256 := by
  refine ⟨by decide, by decide, ?_, ?_, by decide⟩ <;> simp

/-- Every phase, with the two sides of each test of the table: KEY_LEN at 64 and 65, T at 78 and 79, one block and two, and OP. -/
theorem witness_SequencerFollowsItsTable :
    (∀ p q, (running 2 p q).pending = [] ∧ (running 2 p q).seq.phase = p ∧ (running 2 p q).seq.pass = q) ∧
      64 < ({ running 2 .keysel .plain with keyLen := 65 } : State).keyLen.toNat ∧
      ({ running 2 .keysel .plain with keyLen := 64 } : State).keyLen.toNat ≤ 64 ∧
      (⟨.round, .plain, 0, 78⟩ : Seq).t.val < 79 ∧ (⟨.round, .plain, 0, 79⟩ : Seq).t.val = 79 ∧
      (running 1 .add .plain).seq.blk + 1 <
        (({ running 1 .add .plain with msgLen := 56 } : State).stream.length + 8) / 64 + 1 ∧
      (({ running 1 .add .plain with msgLen := 55 } : State).stream.length + 8) / 64 + 1 ≤
        (running 1 .add .plain).seq.blk + 1 ∧
      (running 3 .passend .outer).op = 3 ∧ (running 4 .passend .outer).op = 4 ∧ (running 2 .passend .outer).op = 2 :=
  ⟨fun _ _ => ⟨rfl, rfl, rfl⟩, by decide, by decide, by decide, by decide, by decide, by decide, by decide, by decide,
    by decide⟩

theorem witness_KeyselSelectsAndFillsTheKey :
    atKeysel.pending = [] ∧ atKeysel.seq.phase = .keysel ∧ 64 < ({ atKeysel with keyLen := 65 } : State).keyLen.toNat ∧
      ({ atKeysel with keyLen := 64 } : State).keyLen.toNat ≤ 64 := by decide

theorem witness_InitStepSetsTheInitialValue :
    (running 1 .init .plain).pending = [] ∧ (running 1 .init .plain).seq.phase = .init := by decide

theorem witness_LoadStepBuildsTheSchedule :
    (running 1 .load .plain).pending = [] ∧ (running 1 .load .plain).seq.phase = .load := by decide

/-- Every round number lies in one stage, and each stage's first and last rounds are in it. -/
theorem witness_StagesSelectFunctionAndConstant :
    (19 < 20) ∧ (20 ≤ 20 ∧ 39 < 40) ∧ (40 ≤ 40 ∧ 59 < 60) ∧ (60 ≤ 60 ∧ 79 < 80) := by decide

theorem witness_RoundStepUpdatesTheWorkingRegisters :
    (running 1 .round .plain).pending = [] ∧ (running 1 .round .plain).seq.phase = .round ∧
      ({ running 1 .round .plain with seq := ⟨.round, .plain, 0, 78⟩ } : State).seq.t.val < 79 ∧
      ({ running 1 .round .plain with seq := ⟨.round, .plain, 0, 79⟩ } : State).seq.t.val = 79 := by decide

/-- The end of the rounds of the one block of HASH of the empty message. -/
def atAdd : State :=
  (running 1 .add .plain).engineTo iv (schedule (blockWords (running 1 .add .plain).padded 0))
    (rounds (schedule (blockWords (running 1 .add .plain).padded 0)) 80 (workOf iv)) ⟨.add, .plain, 0, 0⟩

theorem atAdd_engine : EngineInv atAdd := by
  refine ⟨fun _ => .inl ⟨?_, ?_⟩, ?_⟩
  · exact (by decide : (running 1 .add .plain).op = 1)
  · exact (by decide : (running 1 .add .plain).msgLen.toNat ≤ 1024)
  · have hp : atAdd.padded = (running 1 .add .plain).padded := engineTo_padded _ _ _ _ _ rfl
    have hn : atAdd.nb = (running 1 .add .plain).nb := engineTo_nb _ _ _ _ _ rfl
    show EngineAt atAdd .add
    simp only [EngineAt]
    rw [hp, hn, passReady_plain _ rfl]
    exact And.intro (by decide : (running 1 .add .plain).op = 1) (And.intro (State.nb_pos _) (And.intro rfl rfl))

theorem witness_AddStepFoldsTheBlock :
    atAdd.pending = [] ∧ atAdd.seq.phase = .add ∧ EngineInv atAdd ∧ atAdd.nb ≤ atAdd.seq.blk + 1 ∧
      ∃ t, step atAdd = .next t := by
  refine ⟨rfl, rfl, atAdd_engine, ?_, coreStep atAdd, step_nil _ rfl⟩
  have hn : atAdd.nb = (running 1 .add .plain).nb := engineTo_nb _ _ _ _ _ rfl
  rw [hn]
  exact (by decide : (running 1 .add .plain).nb ≤ 0 + 1)

theorem witness_AddStepFoldsTheBlock_next :
    (running 1 .add .plain).seq.blk + 1 < ({ running 1 .add .plain with msgLen := 56 } : State).nb := by decide

/-- PASSEND of the KEYHASH pass of HMAC with a key of 65 bytes, the engine's registers apart. -/
def longKey : State := { running 2 .passend .keyhash with keyLen := 65 }

/-- The same with the last chaining state in H. -/
def atKeyhashEnd : State :=
  longKey.engineTo (chain longKey.padded longKey.nb) longKey.w longKey.work longKey.seq

theorem atKeyhashEnd_engine : EngineInv atKeyhashEnd := by
  refine ⟨fun _ => .inr (.inl ⟨?_, ?_, ?_⟩), ?_⟩
  · exact (by decide : (running 2 .passend .keyhash).op = 2)
  · exact (by decide : (65 : Word).toNat ≤ 256)
  · exact (by decide : (running 2 .passend .keyhash).msgLen.toNat ≤ 1024)
  · have hp : atKeyhashEnd.padded = longKey.padded := engineTo_padded _ _ _ _ _ rfl
    have hn : atKeyhashEnd.nb = longKey.nb := engineTo_nb _ _ _ _ _ rfl
    show EngineAt atKeyhashEnd .passend
    simp only [EngineAt]
    have ho : atKeyhashEnd.op = longKey.op := by simp only [State.op, atKeyhashEnd, engineTo_cmd]
    have hk : atKeyhashEnd.keyLen = longKey.keyLen := by simp only [atKeyhashEnd, State.engineTo]
    rw [hp, hn, passReady_keyhash _ (by simp only [atKeyhashEnd, engineTo_seq]; decide), ho, hk]
    refine And.intro (And.intro (by decide) (by decide)) ?_
    simp only [atKeyhashEnd, engineTo_h]

theorem witness_PassendStoresTheDigest :
    (∀ q, (running 2 .passend q).pending = [] ∧ (running 2 .passend q).seq.phase = .passend ∧
      (running 2 .passend q).seq.pass = q) ∧
      EngineInv atKeyhashEnd ∧ atKeyhashEnd.seq.pass = .keyhash ∧ atKeyhashEnd.seq.phase = .passend ∧
      (running 3 .passend .outer).op = 3 ∧ (running 4 .passend .outer).op = 4 ∧ (running 2 .passend .outer).op = 2 :=
  ⟨fun _ => ⟨rfl, rfl, rfl⟩, atKeyhashEnd_engine, rfl, rfl, by decide, by decide, by decide⟩

/-- The window of the worked example, and the last one. -/
theorem witness_TruncStepTakesTheWindow :
    (running 3 .trunc .outer).pending = [] ∧ (running 3 .trunc .outer).seq.phase = .trunc ∧
      (({ running 3 .trunc .outer with tag := tag1 } : State).tag[19] &&& 0x0F).toNat = 11 ∧
      (({ running 3 .trunc .outer with tag := Vector.replicate 20 0xFF } : State).tag[19] &&& 0x0F).toNat = 15 := by decide

theorem witness_ReduceAndRenderGiveTheDigits :
    (running 0x13 .reduce .outer).pending = [] ∧ 1 ≤ (running 0x13 .reduce .outer).dig ∧
      (running 0x94 .render .outer).dig ≤ 9 ∧ (running 0x13 .reduce .outer).seq.phase = .reduce ∧
      (running 0x94 .render .outer).seq.phase = .render := by decide

/-- The three forms of a core step to come, each at FINISH and before it; and a step of another kind. -/
theorem witness_FinishStepPublishes_steps :
    (∀ p q, CoreStepNext (running 2 p q) ∧ CoreStepNext { running 2 p q with pending := [.quiet] } ∧
      CoreStepNext { running 2 p q with pending := [.wait] }) ∧
      (running 2 .render .outer).seq.phase ≠ .finish ∧ (∃ t, step (running 2 .finish .outer) = .next t) ∧
      ∃ t, step { ready with pending := [.write 0 0x63] } = .next t :=
  ⟨fun _ _ => ⟨.inl rfl, .inr (.inl rfl), .inr (.inr ⟨rfl, rfl⟩)⟩, by decide, ⟨_, rfl⟩, ⟨_, rfl⟩⟩

theorem witness_FinishStepPublishes :
    (∀ p, (running 2 p .outer).pending = [] ∧ (running 2 p .outer).seq.phase = p) ∧
      StatusInv (running 0x63 .finish .outer) ∧ (running 0x63 .finish .outer).op = 3 ∧
      (running 0x64 .finish .outer).op = 4 ∧
      ((running 2 .finish .outer).op ≠ 3 ∧ (running 2 .finish .outer).op ≠ 4) :=
  ⟨fun _ => ⟨rfl, rfl⟩, running_status _ _ _ (by decide), by decide, by decide, by decide⟩

/-- Each pass, and each OP of the INNER pass; a byte of a read at its first and last place. -/
theorem witness_PassStreamsFollowTheirTable :
    (∀ p q, (running 2 p q).seq.pass = q) ∧ (running 2 .load .inner).op = 2 ∧ (running 3 .load .inner).op = 3 ∧
      (running 4 .load .inner).op = 4 ∧ 0 < 4 ∧ 3 < 4 := ⟨fun _ _ => rfl, by decide, by decide, by decide, by decide, by decide⟩

theorem witness_PaddedStreamHasItsLayout :
    ([0x61, 0x62, 0x63] : List Byte).length < 2 ^ 61 ∧ 0 < ([0x61, 0x62, 0x63] : List Byte).length ∧
      3 < 4 ∧ 4 < 64 * ((3 + 8) / 64 + 1) - 8 := by decide

theorem witness_NormalisedKeyHasBlockSize :
    20 ≤ 64 ∧ 64 < (zeros 65).length ∧ (zeros 64).length ≤ 64 ∧
      ∃ nk, normKey 64 (zeros 64) = some nk := ⟨by decide, by simp, by simp, _, rfl⟩

theorem witness_HmacNestsTwoHashes : ∃ nk, normKey 64 [0x6B, 0x65, 0x79] = some nk := ⟨_, rfl⟩

theorem witness_ZeroExtendedKeysAreEquivalent : ([0x6B, 0x65, 0x79] : List Byte).length + 61 ≤ 64 := by decide

theorem witness_TruncationReadsAWindowOfTheTag :
    11 < 16 ∧ (tag1[19] &&& 0x0F).toNat = 11 ∧ 15 < 16 ∧ ((Vector.replicate 20 (0xFF : Byte))[19] &&& 0x0F).toNat = 15 := by
  decide

theorem witness_RenderedStringDenotesTheCode : 1 ≤ 1 ∧ 9 ≤ 9 ∧ (0x30 : Byte) ∈ render (reduceCode 1000000000 9).toNat 9 := by
  decide

theorem witness_StepKeepsStatusConsistent : StatusInv atKeysel ∧ ∃ t, step atKeysel = .next t := ⟨atKeysel_status, _, rfl⟩

theorem witness_StepKeepsTheSequencerInRange :
    StatusInv atKeysel ∧ EngineInv atKeysel ∧ SequencerInv atKeysel ∧ ∃ t, step atKeysel = .next t :=
  ⟨atKeysel_status, atKeysel_engine, atKeysel_sequencer, _, rfl⟩

theorem witness_StepKeepsTheEngineOnTheFunctions :
    StatusInv atKeysel ∧ EngineInv atKeysel ∧ ∃ t, step atKeysel = .next t := ⟨atKeysel_status, atKeysel_engine, _, rfl⟩

theorem witness_StepKeepsTheResultsConsistent :
    StatusInv atKeysel ∧ EngineInv atKeysel ∧ ResultInv atKeysel ∧ ∃ t, step atKeysel = .next t :=
  ⟨atKeysel_status, atKeysel_engine, atKeysel_results, _, rfl⟩

theorem witness_StepKeepsTheMemoryCanonical :
    memWf ({ ready with mem := [(0x100, 0x31)], pending := [.write 0x100 0x61626300] } : State).mem ∧
      ∃ t, step { ready with mem := [(0x100, 0x31)], pending := [.write 0x100 0x61626300] } = .next t :=
  ⟨by decide, _, rfl⟩

/-- A write to an operand register while results are to be held. -/
theorem witness_ResultsHoldUntilTheNextAccept :
    let s : State := { ready with pending := [.write 2 5] }
    StatusInv s ∧ s.status.busy = false ∧ NoResetNext s ∧ (∀ w, s.pending.head? ≠ some (.write 0 w)) ∧
      ∃ t, step s = .next t :=
  ⟨⟨by decide, by decide, by decide⟩, by decide, by simp [NoResetNext], fun w h => by simp at h, _, rfl⟩

/-- A state at FINISH whose registers hold what the functions give: HASH, HMAC or an OTP command. -/
def atFinish (word : Word) : State :=
  let s := running word .finish .outer
  { s with
    tag := s.commandTag, tval := dtValue s.commandTag, tcode := reduceCode (dtValue s.commandTag) s.dig
    tstr := renderField (reduceCode (dtValue s.commandTag) s.dig).toNat s.dig }

theorem atFinish_engine (w : Word) (h : OperandsLegal (running w .finish .outer)) : EngineInv (atFinish w) := by
  have hc : (atFinish w).commandTag = (running w .finish .outer).commandTag :=
    commandTag_congr rfl rfl rfl (State.msel_congr rfl rfl rfl)
  refine ⟨fun _ => h, ?_⟩
  show EngineAt (atFinish w) .finish
  simp only [EngineAt, hc]
  exact And.intro rfl (fun _ => And.intro rfl (And.intro rfl rfl))

theorem witness_EndOfACommandPublishesItsFunction :
    ∀ w ∈ ([0x1, 0x2, 0x63, 0x94] : List Word),
      StatusInv (atFinish w) ∧ EngineInv (atFinish w) ∧ ResultInv (atFinish w) ∧ (atFinish w).status.busy = true ∧
        NoResetNext (atFinish w) ∧ ∃ t, step (atFinish w) = .next t ∧ t.status.busy = false := by
  intro w hw
  refine ⟨⟨?_, ?_, ?_⟩, atFinish_engine w ?_, ⟨fun _ => rfl, fun _ => ⟨rfl, rfl, rfl⟩, ?_, fun h => by cases h⟩, rfl, ?_, ?_⟩
  · exact (running_status w .finish .outer (by decide)).busy_iff
  · exact (running_status w .finish .outer (by decide)).err_iff
  · exact (running_status w .finish .outer (by decide)).values
  · simp only [List.mem_cons, List.not_mem_nil, or_false] at hw
    rcases hw with rfl | rfl | rfl | rfl
    · exact .inl ⟨by decide, by decide⟩
    · exact .inr (.inl ⟨by decide, by decide, by decide⟩)
    · exact .inr (.inr ⟨by decide, by decide, by decide, by decide⟩)
    · exact .inr (.inr ⟨by decide, by decide, by decide, by decide⟩)
  · exact (running_results w .finish .outer).trunc_range
  · show (running w .finish .outer).pending.head? ≠ some .reset
    simp [running, State.reset]
  · exact ⟨stepFinish (atFinish w), rfl, rfl⟩

theorem witness_EndOfACommandPublishesItsFunction_clauses :
    (atFinish 0x1).op = 1 ∧ (atFinish 0x2).op = 2 ∧ (atFinish 0x63).op = 3 ∧ (atFinish 0x94).op = 4 := by
  refine ⟨?_, ?_, ?_, ?_⟩ <;> (simp only [atFinish, running, State.op]; decide)

theorem witness_HashPublishesTheDigestOfTheMessage :
    ready.status.busy = false ∧ ready.pending = [] ∧ ready.msgLen.toNat ≤ 1024 := by decide

theorem witness_HmacPublishesTheTag :
    ready.status.busy = false ∧ ready.pending = [] ∧ ready.keyLen.toNat ≤ 256 ∧ ready.msgLen.toNat ≤ 1024 := by decide

theorem witness_HotpPublishesTheCode :
    ready.status.busy = false ∧ ready.pending = [] ∧ 1 ≤ (9 : BitVec 4).toNat ∧ (9 : BitVec 4).toNat ≤ 9 ∧
      ready.keyLen.toNat ≤ 256 := by decide

theorem witness_TotpPublishesTheCode :
    ready.status.busy = false ∧ ready.pending = [] ∧ 1 ≤ (1 : BitVec 4).toNat ∧ (1 : BitVec 4).toNat ≤ 9 ∧
      ready.keyLen.toNat ≤ 256 ∧ (ready.stepHi ≠ 0 ∨ ready.stepLo ≠ 0) ∧ ready.tOk = true ∧ ready.tSec.msb = false ∧
      1 = ready.tSec.toNat / (ready.stepHi.toNat * 2 ^ 32 + ready.stepLo.toNat) := by decide

theorem witness_BusyBlockEndsWithin2058Steps :
    StatusInv atKeysel ∧ EngineInv atKeysel ∧ SequencerInv atKeysel ∧ atKeysel.status.busy = true ∧ atKeysel.pending = [] :=
  ⟨atKeysel_status, atKeysel_engine, atKeysel_sequencer, by decide, by decide⟩

/-- Two idle states that differ in hidden registers, in a byte past the lengths and in what each command ignores. -/
theorem witness_ResultDependsOnTheOperandsAlone :
    let s₁ : State := { ready with keyLen := 20, msgLen := 3 }
    let s₂ : State := { s₁ with tval := 9, mem := [(0x1FF, 1), (0x7FF, 2)] }
    (s₁.status.busy = false ∧ s₂.status.busy = false ∧ s₁.pending = [] ∧ s₂.pending = []) ∧
      SameOperands .hash s₁ { s₂ with keyLen := 7, ctrLo := 1, stepLo := 1, tOk := false } ∧
      SameOperands .hmac s₁ { s₂ with ctrLo := 1, stepLo := 1, tOk := false } ∧
      SameOperands (.hotp 6) s₁ { s₂ with msgLen := 7, stepLo := 1, tOk := false } ∧
      SameOperands (.totp 6) s₁ { s₂ with msgLen := 7, ctrLo := 1 } := by
  refine ⟨by decide, ⟨?_, ?_⟩, ⟨?_, ?_, ?_, ?_⟩, ⟨?_, ?_, ?_⟩, ⟨?_, ?_, ?_, ?_, ?_⟩⟩ <;> rfl

/-- The programs themselves, and with a core step between two lines. -/
theorem witness_HashAndHmacProgramsReadTheirResults :
    memWf ready.mem ∧ StatusInv ready ∧ ready.status.busy = false ∧ (zeros 256).length ≤ 256 ∧ (zeros 1024).length ≤ 1024 ∧
      Interleaves (hashProgram [0x61]) (hashProgram [0x61]) ∧
      Interleaves (hmacProgram [0x61] []) (.quiet :: hmacProgram [0x61] []) := by
  refine ⟨by decide, ready_status, by decide, by simp, by simp, ?_, ?_⟩ <;> (unfold Interleaves; decide)

/-- The same, with the clock good, before the epoch, and unavailable. -/
theorem witness_OtpProgramsAnswerTheCode :
    memWf ready.mem ∧ StatusInv ready ∧ ready.status.busy = false ∧ (zeros 256).length ≤ 256 ∧
      1 ≤ (1 : BitVec 4).toNat ∧ (9 : BitVec 4).toNat ≤ 9 ∧
      Interleaves (hotpProgram [0x61] 1 6) (hotpProgram [0x61] 1 6) ∧
      (30 : Quad) ≠ 0 ∧ ready.tOk = true ∧ ready.tSec.msb = false ∧
      Interleaves (totpProgram [0x61] 8 30) (totpProgram [0x61] 8 30 ++ [.quiet]) ∧
      (State.reset.tOk = false ∧ ({ ready with tSec := -1 } : State).tSec.msb = true) := by
  refine ⟨by decide, ready_status, by decide, by simp, by decide, by decide, ?_, by decide, by decide, by decide, ?_, by decide⟩ <;>
    (unfold Interleaves; decide)

end Sys2Proof.Tests
end

section
/-! PROOFS. Scope: a step of the machine and the command it runs (00_scope.md R12, 20_memory.md R64 and R76). -/

namespace Sys2Proof.Machine

/-- With an event pending, the step is that event on the state with it taken away (R12; log 1). -/
theorem step_cons (s : State) (e : Event) (rest : List Event) :
    step { s with pending := e :: rest } = runEvent e { s with pending := rest } := rfl

/-- A command leaves a busy block as it is (R71, R110). -/
theorem exec_of_busy (i : Instr) (s : State) (hb : s.status.busy = true) : exec i s = .next s := by
  rw [exec_eq_accept]
  cases i <;> exact congrArg Host.Outcome.next (accept_busy _ _ _ s hb)

/-- A host write leaves a busy block as it is (R71). -/
theorem hostWrite_of_busy (a : WordIndex) (v : Word) (s : State) (hb : s.status.busy = true) :
    hostWrite a v s = .next s := if_pos hb

/-- A host write to CMD of an idle block is the accept step (R64 case 2). -/
theorem hostWrite_cmd_of_idle (v : Word) (s : State) (hb : s.status.busy = false) :
    hostWrite 0 v s = writeCmd v s := by
  have ht : target 0 = .reg .cmd := rfl
  simp only [hostWrite, hb, Bool.false_eq_true, if_false, ht]

/-- The accept step of a legal word runs its command (R110). -/
theorem writeCmd_of_legal {v : Word} {i : Instr} (hd : decode v = .legal i) (s : State) : writeCmd v s = exec i s := by
  simp only [writeCmd, hd]

/-- A host write of a command's word to CMD runs the command, in a busy block as in an idle one: both leave a busy block as it
is (R64, R71, R76). -/
theorem hostWrite_cmd_of_legal {v : Word} {i : Instr} (hd : decode v = .legal i) (s : State) :
    hostWrite 0 v s = exec i s := by
  cases hb : s.status.busy with
  | true => rw [hostWrite_of_busy 0 v s hb, exec_of_busy i s hb]
  | false => rw [hostWrite_cmd_of_idle v s hb, writeCmd_of_legal hd]

/-- Settles O7: a write of a command's word to CMD runs the command (`hostWrite_cmd_of_legal`), and without a host access the
core takes its step. -/
theorem stepRunsTheDecodedCommand : Obligations.StepRunsTheDecodedCommand := by
  refine ⟨?_, step_nil, fun s rest => step_cons s .quiet rest⟩
  intro s rest w i hd
  rw [step_cons]
  exact hostWrite_cmd_of_legal hd _

end Sys2Proof.Machine
end

section
/-! PROOFS. Scope: the invariants of every step (10_state.md rules R22, R27 to R33, R40; 43_otp.md rule R188;
70_reset_and_hazards.md rule R241) and what a host read shows (10_state.md rule R43). -/

namespace Sys2Proof.Machine

/-! ### What the cases of a step leave alone -/

/-- A write to an operand register writes none of CMD, STATUS, the results, the buffers and SEQ (R64 case 3). -/
@[simp] theorem writeReg_frame (r : HostReg) (v : Word) (s : State) :
    (writeReg r v s).cmd = s.cmd ∧ (writeReg r v s).status = s.status ∧ (writeReg r v s).digest = s.digest ∧
    (writeReg r v s).trunc = s.trunc ∧ (writeReg r v s).code = s.code ∧ (writeReg r v s).otpStr = s.otpStr ∧
    (writeReg r v s).mem = s.mem ∧ (writeReg r v s).seq = s.seq := by
  cases r <;> simp only [writeReg, and_self]

/-- The start of a command sets BUSY and leaves CMD, the results and the buffers (R110). -/
@[simp] theorem startOf_frame (i : Instr) (s : State) :
    (startOf i s).cmd = s.cmd ∧ (startOf i s).status = s.status.started ∧ (startOf i s).digest = s.digest ∧
    (startOf i s).trunc = s.trunc ∧ (startOf i s).code = s.code ∧ (startOf i s).otpStr = s.otpStr ∧
    (startOf i s).mem = s.mem := by
  cases i <;> simp [startOf]

/-- The start of a command puts SEQ at a first phase, with PASS, BLK and T at their values of rest (R110). -/
theorem startOf_seq (i : Instr) (s : State) : ∃ p, p ≠ .idle ∧ (startOf i s).seq = ⟨p, .plain, 0, 0⟩ := by
  cases i
  case hash => exact ⟨.init, by decide, rfl⟩
  all_goals exact ⟨.keysel, by decide, rfl⟩

/-- What a step keeps, case by case of what a step can do: a property that does not depend on the block's inputs and output
holds after the step if the core's step, a reset, and, while not BUSY, each kind of write gives it (R12, R64, R110, R113). -/
theorem step_keeps {P : State → Prop} {s t : State} (h : step s = .next t)
    (env : ∀ u ok sec rd pe, P u → P (u.envTo ok sec rd pe)) (same : P s) (core : P (coreStep s))
    (reset : P (resetBlock s))
    (reg : s.status.busy = false → ∀ r v, P (writeReg r v s))
    (buffer : s.status.busy = false → ∀ a off v, target a = .buffer off → P { s with mem := memWriteWord s.mem off v })
    (error : s.status.busy = false → ∀ word e, P (raise e (clearForAccept word s)))
    (start : s.status.busy = false → ∀ i, checkOf i (clearForAccept (encode i) s) = none →
      P (startOf i (clearForAccept (encode i) s))) : P t := by
  rcases step_cases h with ⟨ok, sec, rd, pe, rfl⟩ | ⟨pe, rfl⟩ | ⟨pe, -, rfl⟩ | ⟨hb, r, v, pe, rfl⟩ |
    ⟨hb, a, off, v, pe, ht, rfl⟩ | ⟨hb, v, pe, -, ⟨i, -, hi⟩ | ⟨why, -, rfl⟩⟩
  · exact env _ _ _ _ _ same
  · exact env _ _ _ _ _ core
  · exact env _ _ _ _ _ reset
  · exact env _ _ _ _ _ (reg hb r v)
  · exact env _ _ _ _ _ (buffer hb a off v ht)
  · rcases exec_cases hi with ⟨-, rfl⟩ | ⟨-, e, -, rfl⟩ | ⟨-, hc, rfl⟩
    · exact env _ _ _ _ _ same
    · exact env _ s.tOk s.tSec s.rdata pe (error hb _ e)
    · have hs := env _ s.tOk s.tSec s.rdata pe (start hb i (by cases i <;> exact hc))
      cases i <;> exact hs
  · have he : acceptIllegal v (s.envTo s.tOk s.tSec s.rdata pe) =
        (raise .illegalCmd (clearForAccept v s)).envTo s.tOk s.tSec s.rdata pe :=
      accept_error _ _ _ _ .illegalCmd (by simpa using hb) rfl
    rw [he]
    exact env _ _ _ _ _ (error hb v .illegalCmd)

/-! ### The results -/

/-- Whether the results are consistent depends on them, STATUS and DIG alone. -/
theorem resultInv_congr {s t : State} (h : SameResults s t) (hd : t.dig = s.dig) (hs : ResultInv s) : ResultInv t := by
  obtain ⟨hst, hdg, htr, hco, hot⟩ := h
  obtain ⟨dc, oc, tr, ov⟩ := hs
  refine ⟨?_, ?_, ?_, ?_⟩ <;> simpa only [hst, hdg, htr, hco, hot, hd, OtpCleared]

/-- Results that are all 0 and not flagged valid are consistent (R110, R241). -/
theorem resultInv_of_cleared {s : State} (hcv : s.status.cv = false) (hd : s.digest = Vector.replicate 5 0)
    (ho : OtpCleared s) : ResultInv s := by
  obtain ⟨htrunc, -⟩ := id ho
  exact ⟨fun _ => hd, fun _ => ho, by rw [htrunc]; decide, fun h => by rw [hcv] at h; cases h⟩

/-- The truncated value is below 2^31: the top bit of its first byte is masked (R178, R188). -/
theorem toNat_dtValue_lt (tag : Vector Byte 20) : (dtValue tag).toNat < 2 ^ 31 := by
  have hmask (x : Byte) : (x &&& 0x7F).toNat ≤ 127 := by
    rw [BitVec.toNat_and]; exact Nat.and_le_right
  have h0 := hmask (tag[(dtOffset tag).toNat]'(by omega))
  have h1 := (tag[(dtOffset tag).toNat + 1]'(by omega)).isLt
  have h2 := (tag[(dtOffset tag).toNat + 2]'(by omega)).isLt
  have h3 := (tag[(dtOffset tag).toNat + 3]'(by omega)).isLt
  simp only [dtValue, BitVec.toNat_ofNat]
  omega

/-- The code is the value's remainder by 10^digits as a number: the remainder fits a word (R179, R188). -/
theorem toNat_reduceCode (value : Word) (digits : Nat) :
    (reduceCode value digits).toNat = value.toNat % 10 ^ digits := by
  rw [reduceCode, BitVec.toNat_ofNat]
  exact Nat.mod_eq_of_lt ((Nat.mod_le _ _).trans_lt value.isLt)

/-- A running HOTP or TOTP has a digit count from 1 to 9 (R207, R214). -/
theorem OperandsLegal.dig_of_isOtp {s : State} (h : OperandsLegal s) (ho : s.isOtp = true) : 1 ≤ s.dig ∧ s.dig ≤ 9 := by
  rw [isOtp_iff] at ho
  rcases h with ⟨h1, -⟩ | ⟨h2, -⟩ | ⟨-, -, hd⟩
  · simp [h1] at ho
  · simp [h2] at ho
  · exact hd

/-- FINISH publishes consistent results: of HASH and HMAC no OTP result, so those stay as they are; of HOTP and TOTP what the
derivation's registers hold (R114, R182 to R184). -/
theorem resultInv_stepFinish {s : State} (hf : s.seq.phase = .finish) (he : EngineInv s) (hr : ResultInv s) :
    ResultInv (stepFinish s) := by
  obtain ⟨-, hotp⟩ : EngineAt s .finish := hf ▸ he.engine
  cases ho : s.isOtp with
  | false =>
    obtain ⟨-, oc, tr, ov⟩ := hr
    refine ⟨?_, ?_, ?_, ?_⟩
    · simp [Status.finished]
    all_goals simpa [Status.finished, ho, OtpCleared]
  | true =>
    obtain ⟨hv, hc, hstr⟩ := hotp ho
    have hd := (he.operands (by simp [hf])).dig_of_isOtp ho
    have hcode : s.tcode.toNat = s.tval.toNat % 10 ^ s.dig := by rw [hc, toNat_reduceCode]
    refine ⟨?_, ?_, ?_, fun _ => ?_⟩
    · simp [Status.finished]
    · simp [Status.finished, ho]
    · simpa [ho, hv] using toNat_dtValue_lt s.tag
    · simp only [stepFinish_fields, stepFinish_operands, ho, if_true]
      exact ⟨hd, hcode ▸ Nat.mod_lt _ (by positivity), hcode, by rw [hstr]⟩

/-- A core step keeps the results consistent: FINISH alone writes them (R114). -/
theorem resultInv_coreStep {s : State} (he : EngineInv s) (hr : ResultInv s) : ResultInv (coreStep s) := by
  by_cases hf : s.seq.phase = .finish
  · rw [coreStep_finish s hf]; exact resultInv_stepFinish hf he hr
  · obtain ⟨hst, hd, ht, hc, ho, -⟩ := coreStep_notFinish s hf
    exact resultInv_congr ⟨hst, hd, ht, hc, ho⟩ (by simp) hr

/-- Settles O47: an accept step and a reset clear the results with their flags, FINISH publishes consistent ones, and every other
step leaves them. -/
theorem stepKeepsTheResultsConsistent : Obligations.StepKeepsTheResultsConsistent := by
  intro s t _ he hr h
  refine step_keeps h ?env hr (resultInv_coreStep he hr) (resultInv_of_cleared rfl rfl ⟨rfl, rfl, rfl⟩) ?reg ?buffer
    ?error ?start
  case env => exact fun u _ _ _ _ => resultInv_congr ⟨rfl, rfl, rfl, rfl, rfl⟩ rfl
  case reg => exact fun _ r v => resultInv_congr ⟨by simp, by simp, by simp, by simp, by simp⟩ (by simp [State.dig]) hr
  case buffer => exact fun _ _ _ _ _ => resultInv_congr (s := s) ⟨rfl, rfl, rfl, rfl, rfl⟩ rfl hr
  case error => exact fun _ _ _ => resultInv_of_cleared rfl rfl ⟨rfl, rfl, rfl⟩
  case start =>
    exact fun _ i _ => resultInv_of_cleared (by simp [Status.started, Status.clear]) (by simp) (by simp [OtpCleared])

/-! ### STATUS -/

/-- Whether STATUS is consistent depends on it and SEQ alone. -/
theorem statusInv_congr {s t : State} (hst : t.status = s.status) (hq : t.seq = s.seq) (hs : StatusInv s) :
    StatusInv t := by
  obtain ⟨hb, he, hv⟩ := hs
  refine ⟨?_, ?_, ?_⟩ <;> simpa only [hst, hq]

/-- STATUS and SEQ by their values. -/
theorem statusInv_of_eq {s : State} {f : Status} {q : Seq} (hst : s.status = f) (hq : s.seq = q)
    (busy : f.busy = true ↔ q.phase ≠ .idle) (err : f.err = true ↔ f.errCode ≠ 0) (values : f.word ∈ statusValues) :
    StatusInv s := by
  subst hst hq
  exact ⟨busy, err, values⟩

/-- Of the nine values of STATUS only 0x001 has BUSY set (R22). -/
theorem eq_started_of_busy (f : Status) (hv : f.word ∈ statusValues) (hb : f.busy = true) : f = Status.clear.started := by
  obtain ⟨busy, done, err, dv, cv, errCode⟩ := f
  revert busy done err dv cv errCode
  decide

/-- FINISH makes of 0x001 the value 0x00A or 0x01A (R22, R114). -/
theorem statusInv_stepFinish {s : State} (hf : s.seq.phase = .finish) (hs : StatusInv s) : StatusInv (stepFinish s) := by
  have hstart : s.status = Status.clear.started := eq_started_of_busy _ hs.values (hs.busy_iff.mpr (by simp [hf]))
  have hst : (stepFinish s).status = Status.clear.started.finished s.isOtp := by simp only [stepFinish_fields, hstart]
  have hq : (stepFinish s).seq = Seq.rest := by simp only [stepFinish_fields]
  cases ho : s.isOtp <;> rw [ho] at hst <;> exact statusInv_of_eq hst hq (by decide) (by decide) (by decide)

/-- A core step keeps STATUS consistent: it goes to IDLE and clears BUSY in FINISH alone (R22, R113, R114). -/
theorem statusInv_coreStep {s : State} (hs : StatusInv s) : StatusInv (coreStep s) := by
  by_cases hf : s.seq.phase = .finish
  · rw [coreStep_finish s hf]; exact statusInv_stepFinish hf hs
  · obtain ⟨hst, -⟩ := coreStep_notFinish s hf
    exact ⟨busy_iff_coreStep s hs.busy_iff, by rw [hst]; exact hs.err_iff, by rw [hst]; exact hs.values⟩

/-- An idle block whose command ends with an error has STATUS 0x106 to 0x506 (R22, R205, R212). -/
theorem statusInv_raise {s : State} (hi : s.seq.phase = .idle) (word : Word) (e : Err) :
    StatusInv (raise e (clearForAccept word s)) := by
  refine statusInv_of_eq (f := Status.clear.raised e) (q := s.seq) (by simp) (by simp) ?_ ?_ ?_
  · rw [hi]; exact iff_of_false (by simp [Status.raised, Status.clear]) (by simp)
  all_goals cases e <;> decide

/-- A started command has STATUS 0x001 (R22, R110). -/
theorem statusInv_startOf (i : Instr) (word : Word) (s : State) : StatusInv (startOf i (clearForAccept word s)) := by
  obtain ⟨p, hp, hq⟩ := startOf_seq i (clearForAccept word s)
  exact statusInv_of_eq (f := Status.clear.started) (by simp) hq (iff_of_true rfl hp) (by decide) (by decide)

/-- Settles O44: FINISH, the accept step and a reset write STATUS and SEQ together, and every other step leaves STATUS and
does not change whether PHASE is IDLE. -/
theorem stepKeepsStatusConsistent : Obligations.StepKeepsStatusConsistent := by
  intro s t hs h
  refine step_keeps h ?env hs (statusInv_coreStep hs) ?reset ?reg ?buffer ?error ?start
  case env => exact fun u _ _ _ _ => statusInv_congr rfl rfl
  case reset => exact statusInv_of_eq (f := Status.clear) (q := Seq.rest) rfl rfl (by decide) (by decide) (by decide)
  case reg => exact fun _ r v => statusInv_congr (by simp) (by simp) hs
  case buffer => exact fun _ _ _ _ _ => statusInv_congr (s := s) rfl rfl hs
  case error => exact fun hb word e => statusInv_raise (hs.idle hb) word e
  case start => exact fun _ i _ => statusInv_startOf i (encode i) s

/-! ### SEQ -/

/-- Whether SEQ is in its ranges depends on SEQ alone. -/
theorem sequencerInv_congr {s t : State} (hq : t.seq = s.seq) (hs : SequencerInv s) : SequencerInv t := by
  obtain ⟨hr, ht, hb⟩ := hs
  refine ⟨?_, ?_, ?_⟩ <;> simpa only [hq]

/-- SEQ at rest is in its ranges (R40). -/
theorem sequencerInv_of_rest {s : State} (hq : s.seq = Seq.rest) : SequencerInv s :=
  ⟨fun _ => hq, fun _ => by rw [hq]; rfl, by rw [hq]; decide⟩

/-- Off IDLE the ranges of SEQ are those of T and BLK (R40). -/
theorem sequencerInv_of_running {s : State} (hi : s.seq.phase ≠ .idle) (ht : s.seq.phase ≠ .round → s.seq.t = 0)
    (hb : s.seq.blk ≤ 17) : SequencerInv s := ⟨fun h => absurd h hi, ht, hb⟩

/-- The message of a running command's INNER pass is at most the MSG buffer (R160, R209). -/
theorem length_msel_le {s : State} (hl : OperandsLegal s) (ho : s.op ≠ 1) : s.msel.length ≤ 1024 := by
  rw [State.msel]
  split
  · rename_i h2
    rcases hl with ⟨h1, -⟩ | ⟨-, -, hm⟩ | ⟨h34, -⟩
    · exact absurd h1 ho
    · simpa using hm
    · simp [h2] at h34
  · simp

/-- A command other than HASH has a legal key length (R209, R213). -/
theorem OperandsLegal.keyLen_le {s : State} (hl : OperandsLegal s) (ho : s.op ≠ 1) : s.keyLen.toNat ≤ 256 := by
  rcases hl with ⟨h1, -⟩ | ⟨-, hk, -⟩ | ⟨-, hk, -⟩
  · exact absurd h1 ho
  · exact hk
  · exact hk

/-- HASH has a legal message length (R209, R213). -/
theorem OperandsLegal.msgLen_le {s : State} (hl : OperandsLegal s) (ho : s.op = 1) : s.msgLen.toNat ≤ 1024 := by
  rcases hl with ⟨-, hm⟩ | ⟨h2, -⟩ | ⟨h34, -⟩
  · exact hm
  · simp [h2] at ho
  · simp [ho] at h34

/-- The hardware forms streams of at most 1088 bytes (R142). -/
theorem length_stream_le {s : State} (hl : OperandsLegal s) (hr : PassReady s) : s.stream.length ≤ 1088 := by
  cases hp : s.seq.pass <;> simp only [State.stream, hp]
  case plain =>
    have := hl.msgLen_le ((passReady_plain s hp).mp hr)
    rw [length_msg]; omega
  case keyhash =>
    have := hl.keyLen_le ((passReady_keyhash s hp).mp hr).1
    rw [length_key]; omega
  case inner =>
    have := length_msel_le hl ((passReady_inner s hp).mp hr).1
    simp; omega
  case outer => simp

/-- A pass has at most 18 blocks (R142). -/
theorem nb_le {s : State} (hl : OperandsLegal s) (hr : PassReady s) : s.nb ≤ 18 := by
  have := length_stream_le hl hr
  simp only [State.nb, numBlocks]; omega

/-- ADD counts BLK up to the last block of the pass at most (R139, R142). -/
theorem afterAdd_blk_le {q : Seq} {nb : Nat} (hq : q.blk ≤ 17) (hnb : nb ≤ 18) : (q.afterAdd nb).blk ≤ 17 := by
  unfold Seq.afterAdd
  split
  · show q.blk + 1 ≤ 17
    omega
  · exact hq

/-- A round leaves T at 0 when it leaves the rounds (R138). -/
theorem afterRound_t (q : Seq) (hp : q.phase = .round) (h : q.afterRound.phase ≠ .round) : q.afterRound.t = 0 := by
  unfold Seq.afterRound at h ⊢
  split
  · rename_i ht
    rw [dif_pos ht] at h
    exact absurd hp h
  · rfl

/-- A core step other than ROUND and ADD leaves or clears each of T and BLK (R113). -/
theorem coreStep_t_blk (s : State) (hr : s.seq.phase ≠ .round) (ha : s.seq.phase ≠ .add) :
    ((coreStep s).seq.t = s.seq.t ∨ (coreStep s).seq.t = 0) ∧
      ((coreStep s).seq.blk = s.seq.blk ∨ (coreStep s).seq.blk = 0) := by
  cases hp : s.seq.phase
  case round => exact absurd hp hr
  case add => exact absurd hp ha
  case idle => rw [coreStep_idle s hp]; simp
  case keysel => rw [coreStep_keysel s hp, stepKeysel]; split <;> simp
  case init => rw [coreStep_init s hp]; simp
  case load => rw [coreStep_load s hp]; simp
  case passend => rw [coreStep_passend s hp, stepPassend]; split <;> simp
  case trunc => rw [coreStep_trunc s hp]; simp
  case reduce => rw [coreStep_reduce s hp]; simp
  case render => rw [coreStep_render s hp]; simp
  case finish => rw [coreStep_finish s hp]; simp [Seq.rest]

/-- A core step keeps SEQ in its ranges: ROUND counts T and ADD counts BLK, each up to its last value (R40, R113, R142). -/
theorem sequencerInv_coreStep {s : State} (he : EngineInv s) (hs : SequencerInv s) : SequencerInv (coreStep s) := by
  by_cases hi : s.seq.phase = .idle
  · rwa [coreStep_idle s hi]
  by_cases hf : s.seq.phase = .finish
  · rw [coreStep_finish s hf]; exact sequencerInv_of_rest (by simp)
  obtain ⟨-, -, -, -, -, hrun⟩ := coreStep_notFinish s hf
  by_cases hr : s.seq.phase = .round
  · have hq : (coreStep s).seq = s.seq.afterRound := by rw [coreStep_round s hr]; simp
    exact sequencerInv_of_running (hrun hi) (hq ▸ afterRound_t s.seq hr) (by simpa [hq] using hs.block)
  by_cases ha : s.seq.phase = .add
  · have hq : (coreStep s).seq = s.seq.afterAdd s.nb := by rw [coreStep_add s ha]; simp
    obtain ⟨hready, -⟩ : EngineAt s .add := ha ▸ he.engine
    exact sequencerInv_of_running (hrun hi) (fun _ => by simpa [hq] using hs.t hr)
      (hq ▸ afterAdd_blk_le hs.block (nb_le (he.operands hi) hready))
  · obtain ⟨ht, hb⟩ := coreStep_t_blk s hr ha
    refine sequencerInv_of_running (hrun hi) (fun _ => ?_) ?_
    · rcases ht with h | h
      · rw [h]; exact hs.t hr
      · exact h
    · have := hs.block
      omega

/-- Settles O45: SEQ moves in a core step, starts with BLK and T at 0, and rests after a reset. -/
theorem stepKeepsTheSequencerInRange : Obligations.StepKeepsTheSequencerInRange := by
  intro s t _ he hs h
  refine step_keeps h ?env hs (sequencerInv_coreStep he hs) (sequencerInv_of_rest rfl) ?reg ?buffer ?error ?start
  case env => exact fun u _ _ _ _ => sequencerInv_congr rfl
  case reg => exact fun _ r v => sequencerInv_congr (by simp) hs
  case buffer => exact fun _ _ _ _ _ => sequencerInv_congr (s := s) rfl hs
  case error => exact fun _ _ _ => sequencerInv_congr (by simp) hs
  case start =>
    intro _ i _
    obtain ⟨p, hp, hq⟩ := startOf_seq i (clearForAccept (encode i) s)
    exact sequencerInv_of_running (by rw [hq]; exact hp) (fun _ => by rw [hq]) (by rw [hq]; exact Nat.zero_le _)

/-! ### The buffers -/

/-- Settles O48: the host writes whole buffer words (`inBuffer_of_target`), which keeps the form, a reset empties the list, and
no other step writes the buffers. -/
theorem stepKeepsTheMemoryCanonical : Obligations.StepKeepsTheMemoryCanonical := by
  intro s t hs h
  refine step_keeps (P := fun u => memWf u.mem) h ?env hs ?core ?reset ?reg ?buffer ?error ?start
  case env => exact fun u _ _ _ _ hu => hu
  case core => simpa using hs
  case reset => exact ⟨.nil, nofun⟩
  case reg => exact fun _ r v => by simpa using hs
  case buffer => exact fun _ a off v ht => memWf_memWriteWord s.mem off v hs (inBuffer_of_target a off ht).2
  case error => exact fun _ _ _ => by simpa using hs
  case start => exact fun _ i _ => by simpa using hs

/-! ### What a host read shows -/

/-- The word a read drives is a function of the host-visible registers and the buffers (R43, R63). -/
theorem readWord_congr {s t : State} (h : SameVisible s t) (a : WordIndex) : readWord a t = readWord a s := by
  unfold readWord
  split
  · exact h.regs _
  · simp only [memWord, h.bytes]
  · rfl

/-- Settles O24: a read drives a word that the visible state determines (`readWord_congr`), and changes nothing of the block. -/
theorem hostReadsHideTheHiddenRegisters : Obligations.HostReadsHideTheHiddenRegisters := by
  intro s t a rest h
  have h' : SameVisible { s with pending := rest } { t with pending := rest } := ⟨h.regs, h.bytes⟩
  exact ⟨_, _, step_cons s (.read a) rest, step_cons t (.read a) rest, congrArg some (readWord_congr h' a).symm, rfl, rfl⟩

end Sys2Proof.Machine
end

section
/-! PROOFS. Scope: the host port: the address map, what a read drives and what a write stores (20_memory.md R61 to R65, R70 to
R72), and the operands while BUSY (70_reset_and_hazards.md R248). -/

namespace Sys2Proof.Machine

/-! ### The address map -/

/-- The byte offset of a register (R61). -/
def HostReg.offset : HostReg → Nat
  | .cmd => 0x000
  | .status => 0x004
  | .keyLen => 0x008
  | .msgLen => 0x00C
  | .ctrHi => 0x010
  | .ctrLo => 0x014
  | .stepHi => 0x018
  | .stepLo => 0x01C
  | .digest i => 0x020 + 4 * i.val
  | .trunc => 0x034
  | .code => 0x038
  | .otpStr j => 0x040 + 4 * j.val

/-- The result registers (R27 to R30). -/
def resultRegs : List HostReg :=
  [.digest 0, .digest 1, .digest 2, .digest 3, .digest 4, .trunc, .code, .otpStr 0, .otpStr 1, .otpStr 2]

/-- The word index of a register, a quarter of its offset, names it (R60, R61). -/
theorem target_ofNat_offset (r : HostReg) : target (BitVec.ofNat 9 (r.offset / 4)) = .reg r := by
  cases r with
  | digest i => revert i; decide
  | otpStr j => revert j; decide
  | _ => rfl

/-- A register's offset names that register (R61). -/
theorem target_of_offset {a : WordIndex} {r : HostReg} (h : 4 * a.toNat = r.offset) : target a = .reg r := by
  have ha : BitVec.ofNat 9 (r.offset / 4) = a := by
    rw [← h, Nat.mul_div_cancel_left _ (by decide), BitVec.ofNat_toNat, BitVec.setWidth_eq]
  exact ha ▸ target_ofNat_offset r

/-- The offsets 0x020 to 0x048 name the result registers, but for the reserved 0x03C (R61). -/
theorem target_of_resultOffset (a : WordIndex) (hlo : 0x020 ≤ 4 * a.toNat) (hhi : 4 * a.toNat ≤ 0x048)
    (hne : 4 * a.toNat ≠ 0x03C) : ∃ r ∈ resultRegs, target a = .reg r := by
  revert a; decide

/-- The reserved offsets name nothing (R61, R70). -/
theorem target_of_reservedOffset (a : WordIndex)
    (h : 4 * a.toNat = 0x03C ∨ (0x04C ≤ 4 * a.toNat ∧ 4 * a.toNat ≤ 0x0FC) ∨
      (0x200 ≤ 4 * a.toNat ∧ 4 * a.toNat ≤ 0x3FC)) : target a = .reserved := by
  revert a; decide

/-- The offsets 0x100 to 0x1FC and from 0x400 on name the words of the two buffers (R31, R32, R61). -/
theorem target_of_bufferOffset (a : WordIndex)
    (h : (0x100 ≤ 4 * a.toNat ∧ 4 * a.toNat ≤ 0x1FC) ∨ 0x400 ≤ 4 * a.toNat) : target a = .buffer (4 * a.toNat) := by
  have ha := a.isLt
  refine target_of_inBuffer a ?_
  simp only [inBuffer, keyBase, msgBase, Config.keyCap, Config.msgCap]
  omega

/-! ### What a read drives -/

theorem readWord_of_reg {a : WordIndex} {r : HostReg} (h : target a = .reg r) (s : State) :
    readWord a s = readReg s r := by simp only [readWord, h]

theorem readWord_of_buffer {a : WordIndex} {offset : Nat} (h : target a = .buffer offset) (s : State) :
    readWord a s = memWord s.mem offset := by simp only [readWord, h]

theorem readWord_of_reserved {a : WordIndex} (h : target a = .reserved) (s : State) : readWord a s = 0 := by
  simp only [readWord, h]

/-- With a host read pending the step drives the word of the address map and does nothing else (R63). -/
theorem step_read (s : State) (a : WordIndex) (rest : List Event) :
    step { s with pending := .read a :: rest } =
      .next { s with rdata := some (readWord a { s with pending := rest }), pending := rest } := rfl

/-- A running command's result registers read 0: STATUS is 0x001, with no valid flag (R22, R241). -/
theorem readReg_result_of_busy {s : State} (hb : s.status.busy = true) (hs : StatusInv s) (hr : ResultInv s)
    {r : HostReg} (h : r ∈ resultRegs) : readReg s r = 0 := by
  have hst : s.status = Status.clear.started := eq_started_of_busy _ hs.values hb
  have hd : s.digest = Vector.replicate 5 0 := hr.digest_cleared (by rw [hst]; rfl)
  obtain ⟨ht, hc, ho⟩ : OtpCleared s := hr.otp_cleared (by rw [hst]; rfl)
  cases r with
  | digest i => simp [readReg, hd]
  | otpStr j => simp [readReg, ho]
  | trunc => exact ht
  | code => exact hc
  | _ => simp [resultRegs] at h

/-- While BUSY every read from 0x020 to 0x048 drives 0, the reserved 0x03C included (R61, R70, R241). -/
theorem readWord_result_of_busy {s : State} (hb : s.status.busy = true) (hs : StatusInv s) (hr : ResultInv s)
    (a : WordIndex) (hlo : 0x020 ≤ 4 * a.toNat) (hhi : 4 * a.toNat ≤ 0x048) : readWord a s = 0 := by
  by_cases h3c : 4 * a.toNat = 0x03C
  · exact readWord_of_reserved (target_of_reservedOffset a (.inl h3c)) s
  · obtain ⟨r, hmem, ht⟩ := target_of_resultOffset a hlo hhi h3c
    rw [readWord_of_reg ht, readReg_result_of_busy hb hs hr hmem]

/-- Settles O17: the word read is that of the target the address map names, and a read writes h_rdata alone (`step_read`). -/
theorem hostReadFollowsTheAddressMap : Obligations.HostReadFollowsTheAddressMap := by
  intro s a rest
  have hreg (r : HostReg) (h : 4 * a.toNat = r.offset) : readWord a { s with pending := rest } = readReg s r :=
    (readWord_of_reg (target_of_offset h) _).trans (by cases r <;> rfl)
  refine ⟨_, step_read s a rest, hreg .cmd, hreg .status, hreg .keyLen, hreg .msgLen, hreg .ctrHi, hreg .ctrLo,
    hreg .stepHi, hreg .stepLo, fun i => hreg (.digest i), hreg .trunc, hreg .code, fun j => hreg (.otpStr j),
    fun h => ?buffer, fun h => readWord_of_reserved (target_of_reservedOffset a h) _, fun hlo hhi hb hs hr => ?busy⟩
  case buffer => rw [readWord_of_buffer (target_of_bufferOffset a h), memWord, toNat_be32]
  case busy =>
    exact readWord_result_of_busy hb (statusInv_congr rfl rfl hs)
      (resultInv_congr (s := s) ⟨rfl, rfl, rfl, rfl, rfl⟩ rfl hr) a hlo hhi

/-! ### What a write stores -/

theorem hostWrite_of_reserved {a : WordIndex} (h : target a = .reserved) (v : Word) (s : State) :
    hostWrite a v s = .next s := by
  simp only [hostWrite, h, ite_self]

/-- A write to a register other than CMD of an idle block (R64 cases 3 and 5). -/
theorem hostWrite_reg_of_idle {a : WordIndex} {r : HostReg} (h : target a = .reg r) (hr : r ≠ .cmd) (v : Word)
    {s : State} (hb : s.status.busy = false) : hostWrite a v s = .next (writeReg r v s) := by
  simp only [hostWrite, hb, Bool.false_eq_true, if_false, h]

/-- A write to a buffer word of an idle block (R64 case 4). -/
theorem hostWrite_buffer_of_idle {a : WordIndex} {offset : Nat} (h : target a = .buffer offset) (v : Word) {s : State}
    (hb : s.status.busy = false) : hostWrite a v s = .next { s with mem := memWriteWord s.mem offset v } := by
  simp only [hostWrite, hb, Bool.false_eq_true, if_false, h]

/-- STATUS and the result registers store nothing (R72). -/
theorem writeReg_readOnly {r : HostReg} (h : r = .status ∨ r ∈ resultRegs) (v : Word) (s : State) :
    writeReg r v s = s := by
  cases r with
  | status | digest _ | trunc | code | otpStr _ => rfl
  | _ => simp [resultRegs] at h

/-- A write to STATUS or a result register is ignored, by BUSY or by the register itself (R64, R71, R72). -/
theorem hostWrite_readOnly {a : WordIndex} {r : HostReg} (ht : target a = .reg r) (h : r = .status ∨ r ∈ resultRegs)
    (v : Word) (s : State) : hostWrite a v s = .next s := by
  cases hb : s.status.busy with
  | true => exact hostWrite_of_busy a v s hb
  | false =>
    have hr : r ≠ .cmd := by rintro rfl; simp [resultRegs] at h
    rw [hostWrite_reg_of_idle ht hr v hb, writeReg_readOnly h]

/-- Settles O18: a reserved offset names nothing (`target_of_reservedOffset`), so a read drives 0 and a write stores nothing. -/
theorem reservedAddressesReadZeroAndIgnoreWrites : Obligations.ReservedAddressesReadZeroAndIgnoreWrites := by
  intro s a v rest h
  have ht := target_of_reservedOffset a h
  constructor
  · rw [step_read, readWord_of_reserved ht]
  · rw [step_cons]
    exact hostWrite_of_reserved ht v _

/-- Settles O19: the offset names STATUS or a result register, which a write leaves (`hostWrite_readOnly`). -/
theorem readOnlyRegistersIgnoreWrites : Obligations.ReadOnlyRegistersIgnoreWrites := by
  intro s a v rest h
  rw [step_cons]
  by_cases hst : 4 * a.toNat = 0x004
  · exact hostWrite_readOnly (r := .status) (target_of_offset hst) (.inl rfl) v _
  · obtain ⟨r, hr, ht⟩ := target_of_resultOffset a (by omega) (by omega) (by omega)
    exact hostWrite_readOnly ht (.inr hr) v _

/-- Settles O20: each of the six indices names its operand register, and `writeReg` stores the word there. -/
theorem operandRegistersStoreTheWord : Obligations.OperandRegistersStoreTheWord := by
  intro s v rest hb
  have hwrite (a : WordIndex) (r : HostReg) (ht : target a = .reg r) (hr : r ≠ .cmd) :
      step { s with pending := .write a v :: rest } = .next (writeReg r v { s with pending := rest }) :=
    (step_cons s _ rest).trans (hostWrite_reg_of_idle ht hr v hb)
  exact ⟨hwrite 2 .keyLen rfl (by decide), hwrite 3 .msgLen rfl (by decide), hwrite 4 .ctrHi rfl (by decide),
    hwrite 5 .ctrLo rfl (by decide), hwrite 6 .stepHi rfl (by decide), hwrite 7 .stepLo rfl (by decide)⟩

/-- With a write of a buffer word pending an idle block stores its four bytes and does nothing else (R64 case 4). -/
theorem step_write_buffer (s : State) (a : WordIndex) (v : Word) (rest : List Event) (hb : s.status.busy = false)
    (h : (0x100 ≤ 4 * a.toNat ∧ 4 * a.toNat ≤ 0x1FC) ∨ 0x400 ≤ 4 * a.toNat) :
    step { s with pending := .write a v :: rest } =
      .next { s with mem := memWriteWord s.mem (4 * a.toNat) v, pending := rest } :=
  (step_cons s _ rest).trans (hostWrite_buffer_of_idle (target_of_bufferOffset a h) v hb)

/-- Byte i of a word write is the word's digit i to the base 256, the first the most significant (R10, R64 case 4, R65). -/
theorem toNat_memGet_memWriteWord (m : List Host.Cell) (off : Nat) (v : Word) (hm : Rising m) (i : Nat) (hi : i < 4) :
    (memGet (memWriteWord m off v) (off + i)).toNat = v.toNat / 2 ^ (24 - 8 * i) % 256 := by
  rw [memGet_memWriteWord m off _ v hm, if_pos (by omega), Nat.add_sub_cancel_left, toNat_wordByte]

/-- Settles O21: `memGet_memWriteWord` says what each byte reads as after the write. -/
theorem bufferWriteStoresFourBytes : Obligations.BufferWriteStoresFourBytes := by
  intro s a v rest hm hb h
  have hv := v.isLt
  have hbyte := toNat_memGet_memWriteWord s.mem (4 * a.toNat) v hm.1
  refine ⟨_, step_write_buffer s a v rest hb h, ?_, hbyte 1 (by omega), hbyte 2 (by omega), ?_, fun x hx => ?_⟩
  · exact (hbyte 0 (by omega)).trans (Nat.mod_eq_of_lt (by omega))
  · exact (hbyte 3 (by omega)).trans (by rw [Nat.pow_zero, Nat.div_one])
  · rw [memGet_memWriteWord _ _ _ _ hm.1, if_neg (by omega)]

/-- Settles O22: the word of the written memory at that offset is the written one (`memWord_memWriteWord`). -/
theorem bufferWordReadsBack : Obligations.BufferWordReadsBack := by
  intro s a v rest hm hb h
  have hread : readWord a { s with mem := memWriteWord s.mem (4 * a.toNat) v, pending := rest } = v := by
    rw [readWord_of_buffer (target_of_bufferOffset a h)]
    exact memWord_memWriteWord _ _ v hm.1
  have hwrite := step_write_buffer s a v (.read a :: rest) hb h
  have hstep := step_read { s with mem := memWriteWord s.mem (4 * a.toNat) v } a rest
  exact ⟨_, runsTo_succ 1 _ _ _ hwrite (runsTo_succ 0 _ _ _ hstep (runsTo_zero _)), congrArg some hread, rfl⟩

/-! ### While BUSY -/

/-- Settles O15: the accept step leaves a busy block as it is (`exec_of_busy`). -/
theorem commandWhileBusyIsIgnored : Obligations.CommandWhileBusyIsIgnored :=
  fun s i hb => exec_of_busy i s hb

/-- While BUSY a step other than a reset does nothing to the block or is the core's own (R71, R113). -/
theorem step_cases_of_busy {s t : State} (hb : s.status.busy = true) (hr : NoResetNext s) (h : step s = .next t) :
    (∃ ok sec rd pe, t = s.envTo ok sec rd pe) ∨ (∃ pe, t = (coreStep s).envTo s.tOk s.tSec s.rdata pe) := by
  have hidle (hf : s.status.busy = false) : False := by rw [hb] at hf; cases hf
  rcases step_cases h with henv | hcore | ⟨_, hreset, -⟩ | ⟨hf, -⟩ | ⟨hf, -⟩ | ⟨hf, -⟩
  · exact .inl henv
  · exact .inr hcore
  · exact absurd hreset hr
  all_goals exact (hidle hf).elim

/-- Settles O23: a write is ignored, a read drives h_rdata alone, and the core's own steps write no operand
(`step_cases_of_busy`, `coreStep_frame`). -/
theorem operandsAreFrozenWhileBusy : Obligations.OperandsAreFrozenWhileBusy := by
  intro s hb
  refine ⟨fun a v rest => ?_, fun a rest => ⟨_, step_read s a rest⟩, fun hr t h => ?_⟩
  · rw [step_cons]
    exact hostWrite_of_busy a v _ hb
  · rcases step_cases_of_busy hb hr h with ⟨ok, sec, rd, pe, rfl⟩ | ⟨pe, rfl⟩
    · exact ⟨rfl, ⟨rfl, rfl, rfl, rfl, fun _ => rfl⟩, rfl, rfl⟩
    · refine ⟨?_, ⟨?_, ?_, ?_, ?_, fun _ => ?_⟩, ?_, ?_⟩ <;> simp only [envTo_fields, coreStep_frame]

end Sys2Proof.Machine
end

section
/-! PROOFS. Scope: the command word: its fields, the decoder against the encoder and against the opcode table
(30_encoding.md R90 to R94, R98). -/

namespace Sys2Proof

/-! ### The fields -/

theorem toNat_opField (w : Word) : (opField w).toNat = w.toNat % 2 ^ 4 := by
  simp [opField]

theorem toNat_digField (w : Word) : (digField w).toNat = w.toNat / 2 ^ 4 % 2 ^ 4 := by
  simp [digField, Nat.shiftRight_eq_div_pow]

theorem toNat_zeroField (w : Word) : (zeroField w).toNat = w.toNat / 2 ^ 8 % 2 ^ 24 := by
  simp [zeroField, Nat.shiftRight_eq_div_pow]

/-- A word is its three fields: no bit lies outside them (R90). -/
theorem word_ext_fields {v w : Word} (hz : zeroField v = zeroField w) (hd : digField v = digField w)
    (ho : opField v = opField w) : v = w := by
  replace hz := congrArg BitVec.toNat hz
  replace hd := congrArg BitVec.toNat hd
  replace ho := congrArg BitVec.toNat ho
  rw [toNat_zeroField, toNat_zeroField] at hz
  rw [toNat_digField, toNat_digField] at hd
  rw [toNat_opField, toNat_opField] at ho
  apply BitVec.eq_of_toNat_eq
  omega

/-- A mask acts on each field by itself (R90, R91). -/
theorem fields_and (v w : Word) :
    zeroField (v &&& w) = zeroField v &&& zeroField w ∧ digField (v &&& w) = digField v &&& digField w ∧
    opField (v &&& w) = opField v &&& opField w :=
  ⟨BitVec.extractLsb'_and, BitVec.extractLsb'_and, BitVec.extractLsb'_and⟩

/-- ZERO of a command's word is 0 (R91). -/
theorem zeroField_encode (i : Instr) : zeroField (encode i) = 0 := by
  cases i with
  | hash | hmac => rfl
  | hotp d | totp d => revert d; decide

/-! ### The decoder and the encoder -/

/-- A command's word decodes to the command (R93, R98). -/
theorem decode_encode (i : Instr) : decode (encode i) = .legal i := by
  cases i with
  | hash | hmac => rfl
  | hotp d | totp d => revert d; decide

/-- A word that decodes to a command has ZERO 0 and the command's DIG and OP (R93). -/
theorem fields_of_decode {w : Word} {i : Instr} (h : decode w = .legal i) :
    zeroField w = 0 ∧ digField w = digField (encode i) ∧ opField w = opField (encode i) := by
  unfold decode at h
  split_ifs at h with hz h1 hd h2 hd h3 h4 <;> cases h
  · exact ⟨not_not.mp hz, not_not.mp hd, h1⟩
  · exact ⟨not_not.mp hz, not_not.mp hd, h2⟩
  · exact ⟨not_not.mp hz, by simp, by simpa using h3⟩
  · exact ⟨not_not.mp hz, by simp, by simpa using h4⟩

/-- Settles O5: a command's word decodes to it (`decode_encode`), and a word that decodes to a command has the three
fields of the command's word, so it is that word (`fields_of_decode`, `word_ext_fields`). -/
theorem decodeAndEncodeAgree : Obligations.DecodeAndEncodeAgree := by
  intro w i
  constructor
  · intro h
    obtain ⟨hz, hd, ho⟩ := fields_of_decode h
    exact word_ext_fields (hz.trans (zeroField_encode i).symm) hd ho
  · rintro rfl
    exact decode_encode i

/-! ### The opcode table -/

/-- A command's word lies in the rows of its mnemonic and in no other (R91). -/
theorem selects_encode (i : Instr) {r : OpcodeRow} (hr : r ∈ opcodeTable) :
    r.selects (encode i) = true ↔ r.mnemonic = i.mnemonic := by
  cases i with
  | hash => exact Laws.EncodeMatchesRow.hash r hr
  | hmac => exact Laws.EncodeMatchesRow.hmac r hr
  | hotp d => exact Laws.EncodeMatchesRow.hotp d r hr
  | totp d => exact Laws.EncodeMatchesRow.totp d r hr

/-- Every command has a row (R91). -/
theorem exists_row (i : Instr) : ∃ r ∈ opcodeTable, r.mnemonic = i.mnemonic := by
  cases i <;> simp [opcodeTable, Instr.mnemonic]

/-- The mask of the rows of HOTP and TOTP keeps ZERO and OP (R91). -/
theorem fields_of_and_mask {w m : Word} (h : w &&& 0xFFFFFF0F = m) :
    zeroField w = zeroField m ∧ opField w = opField m := by
  obtain ⟨hz, -, ho⟩ := fields_and w 0xFFFFFF0F
  rw [h] at hz ho
  exact ⟨(hz.trans BitVec.and_allOnes).symm, (ho.trans BitVec.and_allOnes).symm⟩

/-- A row selects only words of commands: the rows of HASH and HMAC the one word, the rows of HOTP and TOTP those that may
differ in DIG (R91). -/
theorem exists_encode_of_selects {r : OpcodeRow} {w : Word} (hr : r ∈ opcodeTable) (h : r.selects w = true) :
    ∃ i, w = encode i := by
  have hsel : w &&& r.mask = r.matchBits := by simpa [OpcodeRow.selects] using h
  simp only [opcodeTable, List.mem_cons, List.not_mem_nil, or_false] at hr
  rcases hr with rfl | rfl | rfl | rfl
  case inl => exact ⟨.hash, BitVec.and_allOnes.symm.trans hsel⟩
  case inr.inl => exact ⟨.hmac, BitVec.and_allOnes.symm.trans hsel⟩
  case inr.inr.inl =>
    obtain ⟨hz, ho⟩ := fields_of_and_mask hsel
    exact ⟨.hotp (digField w), word_ext_fields (hz.trans (zeroField_encode _).symm) (by simp) (by rw [ho]; simp; rfl)⟩
  case inr.inr.inr =>
    obtain ⟨hz, ho⟩ := fields_of_and_mask hsel
    exact ⟨.totp (digField w), word_ext_fields (hz.trans (zeroField_encode _).symm) (by simp) (by rw [ho]; simp; rfl)⟩

/-- Settles O6: a row selects words of commands only (`exists_encode_of_selects`), and of those the ones of its mnemonic
(`selects_encode`). -/
theorem decodeFollowsTheOpcodeTable : Obligations.DecodeFollowsTheOpcodeTable := by
  refine ⟨fun w r hr => ⟨fun h => ?_, ?_⟩, fun w => ⟨fun h => ?_, ?_⟩⟩
  · obtain ⟨i, rfl⟩ := exists_encode_of_selects hr h
    exact ⟨i, decode_encode i, ((selects_encode i hr).mp h).symm⟩
  · rintro ⟨i, hd, hi⟩
    rw [(decodeAndEncodeAgree w i).mp hd, selects_encode i hr, hi]
  · cases hd : decode w with
    | illegal why => exact ⟨why, rfl⟩
    | legal i =>
      obtain ⟨r, hr, hi⟩ := exists_row i
      have hsel := (selects_encode i hr).mpr hi
      rw [← (decodeAndEncodeAgree w i).mp hd, h r hr] at hsel
      cases hsel
  · rintro ⟨why, hd⟩ r hr
    by_contra hsel
    obtain ⟨i, rfl⟩ := exists_encode_of_selects hr (by simpa using hsel)
    rw [decode_encode] at hd
    cases hd

/-- Settles O4: the decoder is evaluated at each word. -/
theorem writtenOutWordsDecode : Obligations.WrittenOutWordsDecode := by
  unfold Obligations.WrittenOutWordsDecode
  decide

end Sys2Proof
end

section
/-! PROOFS. Scope: the lines LOADKEY and LOADMSG (30_encoding.md R99). -/

namespace Sys2Proof.Machine

/-! ### The sequence in a buffer -/

/-- The bytes of a read, one by one, give the sequence read (R66). -/
theorem memRead_eq {m : List Host.Cell} {base : Nat} {x : List Byte}
    (h : ∀ k < x.length, memGet m (base + k) = x.getD k 0) : memRead m base x.length = x := by
  refine List.ext_getElem (by simp) fun k hk hx => ?_
  simp [memRead, h k hx, hx]

/-- What is read depends on the bytes read alone (R66). -/
theorem memRead_congr {m m' : List Host.Cell} {base n : Nat} (h : ∀ k < n, memGet m (base + k) = memGet m' (base + k)) :
    memRead m base n = memRead m' base n :=
  List.map_congr_left fun k hk => h k (List.mem_range.mp hk)

@[simp] theorem length_loadWords (base : Nat) (x : List Byte) : (loadWords base x).length = (x.length + 3) / 4 := by
  simp [loadWords, wrLine, List.length_flatMap]

/-- A write line at an operand register's offset stores the word there (R64 case 3, R97). -/
theorem step_wrLine_reg (s : State) (r : HostReg) (hr : r ≠ .cmd) (v : Word) (pe : List Event)
    (hb : s.status.busy = false) :
    step { s with pending := wrLine r.offset v ++ pe } = .next (writeReg r v { s with pending := pe }) :=
  hostWrite_reg_of_idle (target_ofNat_offset r) hr v hb

/-- A loading line, for a sequence that fits the buffer: the buffer holds the sequence, the register takes the word, and
no byte outside the buffer changes (R99). -/
theorem runsTo_loadLine (x : List Byte) {base cap : Nat} (h4 : base % 4 = 0 ∧ cap % 4 = 0)
    (hin : ∀ a, base ≤ a → a < base + cap → inBuffer a) (hx : x.length ≤ cap) (r : HostReg) (hr : r ≠ .cmd) (v : Word)
    (s : State) (pe : List Event) (hb : s.status.busy = false) (hm : memWf s.mem) :
    ∃ m, memWf m ∧ memRead m base x.length = x ∧
      (∀ a, a < base ∨ base + cap ≤ a → memGet m a = memGet s.mem a) ∧
      RunsTo (loadWords base x ++ wrLine r.offset v).length
        { s with pending := loadWords base x ++ wrLine r.offset v ++ pe }
        (writeReg r v { s with mem := m, pending := pe }) := by
  obtain ⟨m, hwf, hget, hrun⟩ := runsTo_loadWords x base h4.1 ((x.length + 3) / 4) 0 s (wrLine r.offset v ++ pe) hb hm
    fun j hj i hi => hin _ (by omega) (by omega)
  refine ⟨m, hwf, memRead_eq fun k hk => ?_, fun a ha => ?_, ?_⟩
  · rw [hget, if_pos (by omega), Nat.add_sub_cancel_left]
  · rw [hget, if_neg (by omega)]
  · have hlast := step_wrLine_reg { s with mem := m } r hr v pe hb
    rw [List.length_append, length_loadWords, List.append_assoc, loadWords, List.range_eq_range']
    exact runsTo_add _ 1 _ _ _ hrun (runsTo_succ 0 _ _ _ hlast (runsTo_zero _))

/-- LOADKEY, for at most 256 bytes (R99). -/
theorem runsTo_loadKeyLine (x : List Byte) (hx : x.length ≤ 256) (s : State) (pe : List Event)
    (hb : s.status.busy = false) (hm : memWf s.mem) :
    ∃ m, memWf m ∧ memRead m keyBase x.length = x ∧
      (∀ a, a < keyBase ∨ keyBase + Config.keyCap ≤ a → memGet m a = memGet s.mem a) ∧
      RunsTo (loadKeyLine x).length { s with pending := loadKeyLine x ++ pe }
        { s with mem := m, keyLen := BitVec.ofNat 32 x.length, pending := pe } :=
  runsTo_loadLine x (by decide) (fun _ h1 h2 => .inl ⟨h1, h2⟩) hx .keyLen (by decide) _ s pe hb hm

/-- LOADMSG, for at most 1024 bytes (R99). -/
theorem runsTo_loadMsgLine (x : List Byte) (hx : x.length ≤ 1024) (s : State) (pe : List Event)
    (hb : s.status.busy = false) (hm : memWf s.mem) :
    ∃ m, memWf m ∧ memRead m msgBase x.length = x ∧
      (∀ a, a < msgBase ∨ msgBase + Config.msgCap ≤ a → memGet m a = memGet s.mem a) ∧
      RunsTo (loadMsgLine x).length { s with pending := loadMsgLine x ++ pe }
        { s with mem := m, msgLen := BitVec.ofNat 32 x.length, pending := pe } :=
  runsTo_loadLine x (by decide) (fun _ h1 h2 => .inr ⟨h1, h2⟩) hx .msgLen (by decide) _ s pe hb hm

/-- The length register takes the length of any sequence a buffer holds (R99). -/
theorem toNat_ofNat_length (x : List Byte) (hx : x.length ≤ 1024) : (BitVec.ofNat 32 x.length).toNat = x.length := by
  rw [BitVec.toNat_ofNat]
  exact Nat.mod_eq_of_lt (by omega)

/-- Settles O25: the lines leave the sequence and its length, and the bytes of the other buffer lie outside their words
(`runsTo_loadKeyLine`, `runsTo_loadMsgLine`). -/
theorem loadLinesLeaveTheSequence : Obligations.LoadLinesLeaveTheSequence := by
  intro s x rest hm hb
  refine ⟨fun hx => ?_, fun hx => ?_⟩
  · obtain ⟨m, -, hread, hget, hrun⟩ := runsTo_loadKeyLine x hx s rest hb hm
    have hlen := toNat_ofNat_length x (by omega)
    refine ⟨_, hrun, ?_, hlen, memRead_congr fun k _ => hget _ (.inr ?_), rfl⟩
    · simpa only [State.key, hlen] using hread
    · simp only [keyBase, msgBase, Config.keyCap]; omega
  · obtain ⟨m, -, hread, hget, hrun⟩ := runsTo_loadMsgLine x hx s rest hb hm
    have hlen := toNat_ofNat_length x hx
    refine ⟨_, hrun, ?_, hlen, fun hk => memRead_congr fun k hk' => hget _ (.inl ?_), rfl⟩
    · simpa only [State.msg, hlen] using hread
    · simp only [keyBase, msgBase] at *; omega

end Sys2Proof.Machine
end

section
/-! PROOFS. Scope: a command from its accept step to FINISH (40_lifecycle.md R110 to R115; 41_sha1.md R136 to R141;
42_hmac.md R155 to R165; 43_otp.md R181 to R186). -/

namespace Sys2Proof.Machine

/-! ### Runs of core steps -/

theorem iterate_coreStep_add (m n : Nat) (s : State) : coreStep^[m + n] s = coreStep^[n] (coreStep^[m] s) := by
  rw [Nat.add_comm, Function.iterate_add_apply]

/-- What a function of the state keeps over every core step it keeps over a run of them. -/
theorem iterate_coreStep_keeps {α : Type} (f : State → α) (h : ∀ s, f (coreStep s) = f s) (n : Nat) (s : State) :
    f (coreStep^[n] s) = f s := by
  induction n generalizing s with
  | zero => rfl
  | succ n ih => rw [Function.iterate_succ_apply, ih, h]

/-- No run of core steps writes CMD, the operands or the buffers (R112). -/
@[simp] theorem iterate_coreStep_operands (n : Nat) (s : State) :
    (coreStep^[n] s).op = s.op ∧ (coreStep^[n] s).isOtp = s.isOtp ∧ (coreStep^[n] s).dig = s.dig ∧
    (coreStep^[n] s).key = s.key ∧ (coreStep^[n] s).msg = s.msg ∧ (coreStep^[n] s).ctr = s.ctr ∧
    (coreStep^[n] s).msel = s.msel := by
  refine ⟨?_, ?_, ?_, ?_, ?_, ?_, ?_⟩ <;> exact iterate_coreStep_keeps _ (by simp) n s

/-- Up to FINISH no core step writes STATUS or a result (R114). -/
theorem sameResults_of_finish (n : Nat) (s : State) (h : s.status.busy = true ↔ s.seq.phase ≠ .idle)
    (hf : (coreStep^[n] s).seq.phase = .finish) : SameResults s (coreStep^[n] s) := by
  have hbusy : (coreStep^[n] s).status.busy = true := (busy_iff_iterate n s h).mpr (by rw [hf]; simp)
  suffices hs : ∀ k ≤ n, SameResults s (coreStep^[k] s) from hs n le_rfl
  intro k hk
  induction k with
  | zero => exact ⟨rfl, rfl, rfl, rfl, rfl⟩
  | succ k ih =>
    obtain ⟨hst, hd, ht, hc, ho⟩ := ih (by omega)
    have hnext := (busy_iff_iterate (k + 1) s h).mp (busy_before n (k + 1) s h hk hbusy)
    rw [Function.iterate_succ_apply'] at hnext ⊢
    have hne : (coreStep^[k] s).seq.phase ≠ .finish := fun hfin => hnext (by simp [coreStep_finish _ hfin, Seq.rest])
    obtain ⟨hst', hd', ht', hc', ho', -⟩ := coreStep_notFinish _ hne
    exact ⟨hst'.trans hst, hd'.trans hd, ht'.trans ht, hc'.trans hc, ho'.trans ho⟩

/-! ### The passes -/

/-- A pass from INIT through PASSEND: `passSteps NB` core steps end in the PASSEND of a state that has SHA1 of the pass's
stream in H, and PASS, K0 and IDIG as before (R134, R136 to R140). -/
theorem iterate_passSteps (s : State) (hp : s.seq.phase = .init) :
    ∃ t, coreStep^[passSteps s.nb] s = stepPassend t ∧ t.seq.pass = s.seq.pass ∧ d20 t.h = sha1 s.stream ∧
      t.k0 = s.k0 ∧ t.idig = s.idig ∧ t.isOtp = s.isOtp := by
  obtain ⟨w, r, h⟩ := iterate_pass s hp
  refine ⟨s.engineTo (chain s.padded s.nb) w r { s.seq with t := 0, blk := s.nb - 1, phase := .passend }, ?_, rfl,
    by rw [engineTo_h, sha1, State.padded, State.nb], rfl, rfl, rfl⟩
  rw [passSteps, show 2 + 82 * s.nb = 82 * s.nb + 1 + 1 by omega, Function.iterate_succ_apply', h]
  exact coreStep_passend _ rfl

/-- The PLAIN pass: TAG takes SHA1 of the message (R140). -/
theorem iterate_plainPass (s : State) (hp : s.seq.phase = .init) (hq : s.seq.pass = .plain) :
    (coreStep^[passSteps s.nb] s).seq.phase = .finish ∧ (coreStep^[passSteps s.nb] s).tag = sha1 s.msg := by
  obtain ⟨t, h, hpass, hh, -⟩ := iterate_passSteps s hp
  have hstream : s.stream = s.msg := by simp only [State.stream, hq]
  rw [h, stepPassend, hpass, hq]
  simp [hh, hstream]

/-- The KEYHASH pass: K0 takes SHA1 of the key and zeros (R162). -/
theorem iterate_keyhashPass (s : State) (hp : s.seq.phase = .init) (hq : s.seq.pass = .keyhash) :
    (coreStep^[passSteps s.nb] s).seq.phase = .init ∧ (coreStep^[passSteps s.nb] s).seq.pass = .inner ∧
    (coreStep^[passSteps s.nb] s).k0 = fill64 (sha1 s.key).toList := by
  obtain ⟨t, h, hpass, hh, -⟩ := iterate_passSteps s hp
  have hstream : s.stream = s.key := by simp only [State.stream, hq]
  rw [h, stepPassend, hpass, hq]
  simp [hh, hstream]

/-- The INNER pass: IDIG takes the inner digest (R163). -/
theorem iterate_innerPass (s : State) (hp : s.seq.phase = .init) (hq : s.seq.pass = .inner) :
    (coreStep^[passSteps s.nb] s).seq.phase = .init ∧ (coreStep^[passSteps s.nb] s).seq.pass = .outer ∧
    (coreStep^[passSteps s.nb] s).k0 = s.k0 ∧
    (coreStep^[passSteps s.nb] s).idig = sha1 (xorEach s.k0.toList ipadByte ++ s.msel) := by
  obtain ⟨t, h, hpass, hh, hk, -⟩ := iterate_passSteps s hp
  have hstream : s.stream = xorEach s.k0.toList ipadByte ++ s.msel := by simp only [State.stream, hq]
  rw [h, stepPassend, hpass, hq]
  simp [hh, hk, hstream]

/-- The OUTER pass: TAG takes the outer digest (R164). -/
theorem iterate_outerPass (s : State) (hp : s.seq.phase = .init) (hq : s.seq.pass = .outer) :
    (coreStep^[passSteps s.nb] s).seq.phase = (if s.isOtp then .trunc else .finish) ∧
    (coreStep^[passSteps s.nb] s).tag = sha1 (xorEach s.k0.toList opadByte ++ s.idig.toList) := by
  obtain ⟨t, h, hpass, hh, -, -, ho⟩ := iterate_passSteps s hp
  have hstream : s.stream = xorEach s.k0.toList opadByte ++ s.idig.toList := by simp only [State.stream, hq]
  rw [h, stepPassend, hpass, hq]
  simp [hh, ho, hstream]

/-! ### The keyed commands -/

/-- From KEYSEL to the INNER pass, by way of the KEYHASH pass for a long key: K0 holds the normalised key (R156, R161,
R162). -/
theorem iterate_keysel (s : State) (hp : s.seq.phase = .keysel) :
    (coreStep^[1 + keyhashSteps s] s).seq.phase = .init ∧ (coreStep^[1 + keyhashSteps s] s).seq.pass = .inner ∧
    (coreStep^[1 + keyhashSteps s] s).k0 = normKey64 s.key := by
  have hone : coreStep^[1] s = stepKeysel s := coreStep_keysel s hp
  rw [iterate_coreStep_add, hone, stepKeysel, keyhashSteps]
  by_cases hlong : 64 < s.keyLen.toNat
  · have hnb : (stepKeyselLong s).nb = numBlocks s.keyLen.toNat := by simp [State.nb, State.stream]
    rw [if_pos hlong, if_pos hlong, ← hnb]
    obtain ⟨hphase, hpass, hk0⟩ := iterate_keyhashPass (stepKeyselLong s) (by simp) (by simp)
    exact ⟨hphase, hpass, by simpa [normKey64, hlong] using hk0⟩
  · rw [if_neg hlong, if_neg hlong]
    simp [normKey64, hlong]

/-- The core steps of a keyed command from KEYSEL to the end of its OUTER pass (R115). -/
def keyedSteps (s : State) : Nat :=
  1 + keyhashSteps s + passSteps (numBlocks (64 + s.msel.length)) + passSteps 2

/-- From KEYSEL to the end of the OUTER pass: TAG holds HMAC of the key and the selected message (R157, R158, R161 to
R164). -/
theorem iterate_keyed (s : State) (hp : s.seq.phase = .keysel) :
    (coreStep^[keyedSteps s] s).seq.phase = (if s.isOtp then .trunc else .finish) ∧
    (coreStep^[keyedSteps s] s).tag = hmac64 s.key s.msel := by
  obtain ⟨hinit, hinner, hk0⟩ := iterate_keysel s hp
  obtain ⟨-, hotp, -, -, -, -, hmsel⟩ := iterate_coreStep_operands (1 + keyhashSteps s) s
  rw [keyedSteps, iterate_coreStep_add, iterate_coreStep_add]
  generalize coreStep^[1 + keyhashSteps s] s = t at *
  have hnb : t.nb = numBlocks (64 + s.msel.length) := by simp [State.nb, State.stream, hinner, hmsel]
  obtain ⟨hinit', houter, hk0', hidig⟩ := iterate_innerPass t hinit hinner
  have hotp' : (coreStep^[passSteps t.nb] t).isOtp = t.isOtp := by simp only [iterate_coreStep_operands]
  rw [← hnb]
  generalize coreStep^[passSteps t.nb] t = u at *
  have hnb' : u.nb = 2 := by simp [State.nb, State.stream, houter, numBlocks]
  obtain ⟨hphase, htag⟩ := iterate_outerPass u hinit' houter
  rw [← hnb']
  refine ⟨by rw [hphase, hotp', hotp], ?_⟩
  rw [htag, hk0', hidig, hk0, hmsel, hmac64, hmacOfNormKey]

/-- The three core steps from TRUNC to FINISH (R182 to R184). -/
theorem iterate_derivation (s : State) (hp : s.seq.phase = .trunc) :
    coreStep^[3] s = stepRender (stepReduce (stepTrunc s)) := by
  have hreduce : coreStep (stepTrunc s) = stepReduce (stepTrunc s) := coreStep_reduce _ (by simp)
  have hrender : coreStep (stepReduce (stepTrunc s)) = stepRender (stepReduce (stepTrunc s)) :=
    coreStep_render _ (by simp)
  rw [← hrender, ← hreduce, ← coreStep_trunc s hp]
  rfl

/-! ### The registers at FINISH -/

/-- No run of core steps changes what the command is to publish (R112, R115). -/
theorem commandTag_iterate (n : Nat) (s : State) : (coreStep^[n] s).commandTag = s.commandTag :=
  iterate_coreStep_keeps _ (fun s => commandTag_congr (by simp) (by simp) (by simp) (by simp)) n s

/-- HASH, from its start to FINISH. -/
theorem engineAt_finish_hash (s : State) (hp : s.seq.phase = .init) (hq : s.seq.pass = .plain) (hop : s.op = 1) :
    (coreStep^[passSteps s.nb] s).seq.phase = .finish ∧ EngineAt (coreStep^[passSteps s.nb] s) .finish := by
  obtain ⟨hphase, htag⟩ := iterate_plainPass s hp hq
  refine ⟨hphase, ?_, fun hotp => ?_⟩
  · rw [htag, commandTag_iterate, commandTag_hash s hop]
  · simp [isOtp_of_hash s hop] at hotp

/-- HMAC, from its start to FINISH. -/
theorem engineAt_finish_hmac (s : State) (hp : s.seq.phase = .keysel) (hop : s.op = 2) :
    (coreStep^[keyedSteps s] s).seq.phase = .finish ∧ EngineAt (coreStep^[keyedSteps s] s) .finish := by
  obtain ⟨hphase, htag⟩ := iterate_keyed s hp
  have hotp : s.isOtp = false := by simp [State.isOtp, hop]
  refine ⟨by simpa [hotp] using hphase, ?_, fun h => ?_⟩
  · rw [commandTag_iterate, commandTag_keyed s (by simp [hop])]
    exact htag
  · simp [hotp] at h

/-- HOTP and TOTP, from their start to FINISH. -/
theorem engineAt_finish_otp (s : State) (hp : s.seq.phase = .keysel) (hotp : s.isOtp = true) :
    (coreStep^[keyedSteps s + 3] s).seq.phase = .finish ∧ EngineAt (coreStep^[keyedSteps s + 3] s) .finish := by
  obtain ⟨hphase, htag⟩ := iterate_keyed s hp
  have hop : s.op ≠ 1 := by
    rcases (isOtp_iff s).mp hotp with h | h <;> simp [h]
  have hcommand := commandTag_iterate (keyedSteps s + 3) s
  rw [iterate_coreStep_add] at hcommand ⊢
  rw [iterate_derivation _ (by simpa [hotp] using hphase)] at hcommand ⊢
  refine ⟨by simp, ?_, fun _ => ⟨by simp, by simp, by simp⟩⟩
  rw [hcommand, commandTag_keyed s hop]
  simpa using htag

/-! ### What FINISH publishes -/

/-- HMAC at block size 64 has a value for every key, the machine's (R155, R156, R159). -/
theorem hmac_eq_hmac64 (key msg : List Byte) : hmac 64 key msg = some (hmac64 key msg) := by
  have hnorm : normKey 64 key = some (normKey64 key).toList := by
    rw [normKey, normKey64]
    by_cases h : key.length ≤ 64
    · rw [if_pos h, if_neg (by omega), toList_fill64 _ h]
    · rw [if_neg h, if_pos (by decide), if_pos (by omega), toList_fill64 _ (by simp), Vector.length_toList]
  rw [hmac, hnorm]
  rfl

/-- A 64-bit number is its two words, the upper first (R25, R26). -/
theorem append_extractLsb' (c : Quad) : c.extractLsb' 32 32 ++ c.extractLsb' 0 32 = c := by
  rw [BitVec.extractLsb'_append_extractLsb'_eq_extractLsb' (by decide)]
  simp

/-! ### From the accept step to the end -/

/-- The command, written to CMD, brings the block to rest in u: by its accept step and the core steps after it. -/
def Completes (i : Instr) (s u : State) : Prop :=
  ∃ t n, exec i s = .next t ∧ (t.status.busy = true ↔ t.seq.phase ≠ .idle) ∧ coreStep^[n] t = u ∧ u.seq.phase = .idle

/-- The state of a command that passed its checks and starts (R110). -/
def State.start (i : Instr) (s : State) : State := startOf i (clearForAccept (encode i) s)

theorem exec_of_check_none {i : Instr} {s : State} (hb : s.status.busy = false)
    (hc : checkOf i (clearForAccept (encode i) s) = none) : exec i s = .next (s.start i) := by
  rw [exec_eq_accept]
  cases i <;> exact congrArg Host.Outcome.next (accept_ok _ _ _ s hb hc)

theorem exec_of_check_some {i : Instr} {s : State} {e : Err} (hb : s.status.busy = false)
    (hc : checkOf i (clearForAccept (encode i) s) = some e) :
    exec i s = .next (raise e (clearForAccept (encode i) s)) := by
  rw [exec_eq_accept]
  cases i <;> exact congrArg Host.Outcome.next (accept_error _ _ _ s e hb hc)

/-- A started command has the operands of the state it was written in (R112), and its own OP and DIG. -/
@[simp] theorem start_operands (i : Instr) (s : State) :
    (s.start i).key = s.key ∧ (s.start i).msg = s.msg ∧ (s.start i).op = opField (encode i) ∧
    (s.start i).dig = (digField (encode i)).toNat := by
  cases i <;> simp [State.start, startOf, State.op, State.dig]

theorem start_status (i : Instr) (s : State) : (s.start i).status = Status.clear.started ∧ OtpCleared (s.start i) := by
  simp [State.start, OtpCleared]

/-- A started command that reaches FINISH completes, with STATUS and the OTP results as its start left them up to there. -/
theorem completes_of_finish {i : Instr} {s : State} (hb : s.status.busy = false)
    (hc : checkOf i (clearForAccept (encode i) s) = none) (n : Nat)
    (hf : (coreStep^[n] (s.start i)).seq.phase = .finish) :
    Completes i s (stepFinish (coreStep^[n] (s.start i))) ∧
      (coreStep^[n] (s.start i)).status = Status.clear.started ∧ OtpCleared (coreStep^[n] (s.start i)) := by
  have hbusy : (s.start i).status.busy = true ↔ (s.start i).seq.phase ≠ .idle :=
    (statusInv_startOf i (encode i) s).busy_iff
  obtain ⟨hst, -, htr, hco, hot⟩ := sameResults_of_finish n _ hbusy hf
  obtain ⟨hstart, hcl⟩ := start_status i s
  refine ⟨⟨s.start i, n + 1, exec_of_check_none hb hc, hbusy, ?_, by simp [Seq.rest]⟩, hst.trans hstart, ?_⟩
  · rw [Function.iterate_succ_apply', coreStep_finish _ hf]
  · rwa [OtpCleared, htr, hco, hot]

/-- FINISH of HASH publishes the digest of the message (R114). -/
theorem digestPublished_stepFinish {s : State} (hst : s.status = Status.clear.started) (hcl : OtpCleared s)
    (he : EngineAt s .finish) (hop : s.op = 1) : DigestPublished s.msg (stepFinish s) := by
  obtain ⟨htag, -⟩ := he
  have hotp : s.isOtp = false := isOtp_of_hash s hop
  refine ⟨?_, ?_, ?_⟩
  · simp only [stepFinish_fields, htag, commandTag_hash s hop]
  · simpa [OtpCleared, hotp] using hcl
  · simp only [stepFinish_fields, hst, hotp]
    decide

/-- FINISH of HMAC publishes the tag of key and message (R114). -/
theorem tagPublished_stepFinish {s : State} (hst : s.status = Status.clear.started) (hcl : OtpCleared s)
    (he : EngineAt s .finish) (hop : s.op = 2) : TagPublished s.key s.msg (stepFinish s) := by
  obtain ⟨htag, -⟩ := he
  have hotp : s.isOtp = false := by simp [State.isOtp, hop]
  have hmsel : s.msel = s.msg := by rw [State.msel, if_pos hop]
  refine ⟨_, hmac_eq_hmac64 _ _, ?_, ?_, ?_⟩
  · simp only [stepFinish_fields, htag, commandTag_keyed s (by simp [hop]), hmsel]
  · simpa [OtpCleared, hotp] using hcl
  · simp only [stepFinish_fields, hst, hotp]
    decide

/-- FINISH of HOTP and TOTP publishes the code of the secret and the counter (R114, R181). -/
theorem otpPublished_stepFinish {s : State} (hst : s.status = Status.clear.started) (he : EngineAt s .finish)
    (hotp : s.isOtp = true) : OtpPublished s.key s.ctr.toNat s.dig (stepFinish s) := by
  obtain ⟨htag, hderived⟩ := he
  obtain ⟨hval, hcode, hstr⟩ := hderived hotp
  obtain ⟨hop1, hop2⟩ : s.op ≠ 1 ∧ s.op ≠ 2 := by
    rcases (isOtp_iff s).mp hotp with h | h <;> simp [h]
  have hmsel : s.msel = ctrBytes s.ctr := by rw [State.msel, if_neg hop2]
  refine ⟨_, s.tag, counterBytes_ctrBytes s.ctr, ?_, ?_, ?_, ?_, ?_, ?_⟩
  · rw [hmac_eq_hmac64, htag, commandTag_keyed s hop1, hmsel]
  · simp only [stepFinish_fields]
  · simp only [stepFinish_fields, hotp, if_true, hval]
  · simp only [stepFinish_fields, hotp, if_true, hcode, hval, toNat_reduceCode]
  · simp only [stepFinish_fields, hotp, if_true, hstr]
  · simp only [stepFinish_fields, hst, hotp]
    decide

/-! ### What each command completes with -/

/-- HASH completes and publishes the digest of the message (R141). -/
theorem completes_hash {s : State} (hb : s.status.busy = false) (hm : s.msgLen.toNat ≤ 1024) :
    ∃ u, Completes .hash s u ∧ DigestPublished s.msg u := by
  obtain ⟨hphase, he⟩ := engineAt_finish_hash (s.start .hash) rfl rfl rfl
  have hcheck : checkOf .hash (clearForAccept (encode .hash) s) = none :=
    (checkOf_eq_none .hash _).mpr (by simpa using hm)
  obtain ⟨hrun, hst, hcl⟩ := completes_of_finish hb hcheck _ hphase
  exact ⟨_, hrun, by simpa using digestPublished_stepFinish hst hcl he (by simp only [iterate_coreStep_operands]; rfl)⟩

/-- HMAC completes and publishes the tag of key and message (R165). -/
theorem completes_hmac {s : State} (hb : s.status.busy = false) (hk : s.keyLen.toNat ≤ 256)
    (hm : s.msgLen.toNat ≤ 1024) :
    ∃ u, Completes .hmac s u ∧ TagPublished s.key s.msg u := by
  obtain ⟨hphase, he⟩ := engineAt_finish_hmac (s.start .hmac) rfl rfl
  have hcheck : checkOf .hmac (clearForAccept (encode .hmac) s) = none :=
    (checkOf_eq_none .hmac _).mpr (by simpa using ⟨hk, hm⟩)
  obtain ⟨hrun, hst, hcl⟩ := completes_of_finish hb hcheck _ hphase
  exact ⟨_, hrun, by simpa using tagPublished_stepFinish hst hcl he (by simp only [iterate_coreStep_operands]; rfl)⟩

/-- A command that is HOTP or TOTP completes and publishes the code of the secret and the counter it starts with (R181,
R185, R186). -/
theorem completes_otp {i : Instr} {d : BitVec 4} (hi : i = .hotp d ∨ i = .totp d) {s : State}
    (hb : s.status.busy = false) (hc : checkOf i (clearForAccept (encode i) s) = none) :
    ∃ u, Completes i s u ∧ OtpPublished s.key (s.start i).ctr.toNat d.toNat u := by
  have hfields : (s.start i).isOtp = true ∧ (s.start i).dig = d.toNat ∧ (s.start i).seq.phase = .keysel := by
    rcases hi with rfl | rfl <;> simp [State.isOtp] <;> rfl
  obtain ⟨hotp, hdig, hkeysel⟩ := hfields
  obtain ⟨hphase, he⟩ := engineAt_finish_otp (s.start i) hkeysel hotp
  obtain ⟨hrun, hst, -⟩ := completes_of_finish hb hc _ hphase
  have hpub := otpPublished_stepFinish hst he (by simpa only [iterate_coreStep_operands] using hotp)
  simp only [iterate_coreStep_operands, start_operands, hdig] at hpub
  exact ⟨_, hrun, hpub⟩

/-- A command whose check fails completes in its accept step, with the error in STATUS and no results (R110, R212). -/
theorem completes_error {i : Instr} {s : State} {e : Err} (hs : StatusInv s) (hb : s.status.busy = false)
    (hc : checkOf i (clearForAccept (encode i) s) = some e) :
    ∃ u, Completes i s u ∧ u.status = Status.clear.raised e ∧ OtpCleared u := by
  have hi := hs.idle hb
  exact ⟨_, ⟨_, 0, exec_of_check_some hb hc, (statusInv_raise hi _ e).busy_iff, rfl, by simpa using hi⟩, by simp,
    by simp [OtpCleared]⟩

end Sys2Proof.Machine
end

section
/-! PROOFS. Scope: host programs with core steps between their lines (30_encoding.md R97 to R100). -/

namespace Sys2Proof.Machine

/-! ### Interleavings -/

theorem Interleaves.nil {events : List Event} (h : Interleaves [] events) : ∃ k, events = List.replicate k .quiet := by
  refine ⟨events.length, List.eq_replicate_of_mem fun e he => ?_⟩
  have := List.filter_eq_nil_iff.mp h e he
  simpa using this

/-- The first line of a program comes after some core steps. -/
theorem Interleaves.cons {e : Event} {program events : List Event} (h : Interleaves (e :: program) events) :
    ∃ k rest, events = List.replicate k .quiet ++ e :: rest ∧ Interleaves program rest := by
  obtain ⟨quiets, rest, rfl, hquiets, -, hrest⟩ := List.filter_eq_cons_iff.mp h
  refine ⟨quiets.length, rest, ?_, hrest⟩
  rw [← List.eq_replicate_of_mem fun e he => by simpa using hquiets e he]

/-- A program in two parts comes interleaved in two parts. -/
theorem Interleaves.append {p q events : List Event} (h : Interleaves (p ++ q) events) :
    ∃ es fs, events = es ++ fs ∧ Interleaves p es ∧ Interleaves q fs :=
  List.filter_eq_append_iff.mp h

/-! ### Events carried out -/

/-- A host carries the events out from s: they end in u and return the values. -/
def Carries (events : List Event) (s u : State) (values : List Word) : Prop :=
  ∃ fuel, runProgram fuel events s = some (u, values)

theorem Carries.nil {s : State} (hp : s.pending = []) : Carries [] s s [] := by
  refine ⟨0, ?_⟩
  rw [runProgram, ← hp]
  exact hostRun_nil 0 s hp

theorem Carries.append {p q : List Event} {s t u : State} {vs ws : List Word} (hp : Carries p s t vs)
    (hq : Carries q t u ws) : Carries (p ++ q) s u (vs ++ ws) := by
  obtain ⟨n, hn⟩ := hp
  obtain ⟨m, hm⟩ := hq
  exact ⟨n + m, hostRun_append n m { s with pending := p } t q vs (u, ws) hn hm⟩

/-- One event that ends before those that follow. -/
theorem Carries.single {e : Event} {s t : State} (h : step { s with pending := [e] } = .next t) (ht : t.pending = []) :
    Carries [e] s t (valueRead { s with pending := [e] } t).toList := by
  refine ⟨1, ?_⟩
  rw [runProgram, hostRun_step 0 _ t e [] rfl h, hostRun_nil 0 t ht]
  simp

theorem iterate_coreStep_pending (n : Nat) (s : State) (pe : List Event) :
    coreStep^[n] { s with pending := pe } = { coreStep^[n] s with pending := pe } := by
  induction n generalizing s with
  | zero => rfl
  | succ n ih => rw [Function.iterate_succ_apply, coreStep_pending, ih, Function.iterate_succ_apply]

/-- Core steps between two lines are the block's own steps (R97). -/
theorem Carries.quiets {events : List Event} {s u : State} {vs : List Word} (k : Nat)
    (h : Carries events (coreStep^[k] s) u vs) : Carries (List.replicate k .quiet ++ events) s u vs := by
  induction k generalizing s with
  | zero => exact h
  | succ k ih =>
    have hfirst : Carries [.quiet] s { coreStep s with pending := [] } [] :=
      Carries.single (e := .quiet) (congrArg Host.Outcome.next (coreStep_pending s [])) rfl
    have hrest : Carries events (coreStep^[k] { coreStep s with pending := [] }) u vs := by
      rw [iterate_coreStep_pending]
      exact h
    exact hfirst.append (ih hrest)

/-- In an idle block core steps between two lines change nothing (R97, R219). -/
theorem Carries.quiets_of_idle {events : List Event} {s u : State} {vs : List Word} (k : Nat) (hi : s.seq.phase = .idle)
    (h : Carries events s u vs) : Carries (List.replicate k .quiet ++ events) s u vs :=
  Carries.quiets k (by rwa [Function.iterate_fixed (coreStep_idle s hi)])

/-- A block that is at rest after n core steps was busy up to a first count m at which it came to rest as it is after n. -/
theorem exists_first_rest {n : Nat} {s : State} (h : s.status.busy = true ↔ s.seq.phase ≠ .idle)
    (hi : (coreStep^[n] s).seq.phase = .idle) :
    ∃ m, (∀ k < m, (coreStep^[k] s).status.busy = true) ∧ (coreStep^[m] s).status.busy = false ∧
      coreStep^[m] s = coreStep^[n] s := by
  classical
  have hex : ∃ k, (coreStep^[k] s).seq.phase = .idle := ⟨n, hi⟩
  have hrest := Nat.find_spec hex
  refine ⟨Nat.find hex, fun k hk => (busy_iff_iterate k s h).mpr (Nat.find_min hex hk), ?_, ?_⟩
  · rw [Bool.eq_false_iff, Ne, busy_iff_iterate _ s h, not_not]
    exact hrest
  · obtain ⟨d, hd⟩ := Nat.exists_eq_add_of_le (Nat.find_min' hex hi)
    rw [hd, iterate_coreStep_add, Function.iterate_fixed (coreStep_idle _ hrest)]

/-- Core steps after the last line of a program change nothing in an idle block. -/
theorem Carries.trailing_quiets {s : State} (k : Nat) (hi : s.seq.phase = .idle) (hp : s.pending = []) :
    Carries (List.replicate k .quiet) s s [] := by
  have h := Carries.quiets_of_idle k hi (Carries.nil hp)
  rwa [List.append_nil] at h

/-- WAIT lasts until the block is at rest, and reads STATUS then (R99). -/
theorem Carries.wait {n : Nat} {s : State} (h : s.status.busy = true ↔ s.seq.phase ≠ .idle)
    (hi : (coreStep^[n] s).seq.phase = .idle) :
    Carries [.wait] s (hostRead statusIndex { coreStep^[n] s with pending := [] }) [(coreStep^[n] s).status.word] := by
  obtain ⟨m, hbusy, hidle, hend⟩ := exists_first_rest h hi
  have hpe (k : Nat) := iterate_coreStep_pending k s [.wait]
  have hrun := hostRun_wait m { s with pending := [.wait] } [] rfl (by simpa only [hpe] using hbusy)
    (by simpa only [hpe] using hidle) 0 _ (hostRun_nil 0 _ rfl)
  simp only [hpe, hend] at hrun
  exact ⟨m + 1 + 0, hrun⟩

/-! ### Programs, however interleaved -/

/-- However core steps come between the lines of the program, it ends in u and returns the values. -/
def Answers (program : List Event) (s u : State) (values : List Word) : Prop :=
  ∀ events, Interleaves program events → Carries events s u values

theorem Answers.append {p q : List Event} {s t u : State} {vs ws : List Word} (hp : Answers p s t vs)
    (hq : Answers q t u ws) : Answers (p ++ q) s u (vs ++ ws) := by
  intro events h
  obtain ⟨es, fs, rfl, hes, hfs⟩ := h.append
  exact (hp es hes).append (hq fs hfs)

theorem Answers.nil {s : State} (hi : s.seq.phase = .idle) : Answers [] s { s with pending := [] } [] := by
  intro events h
  obtain ⟨k, rfl⟩ := h.nil
  exact Carries.trailing_quiets (s := { s with pending := [] }) k hi rfl

/-- One line between rest and rest. -/
theorem Answers.single {e : Event} {s t : State} (hi : s.seq.phase = .idle) (ht : t.seq.phase = .idle)
    (h : step { s with pending := [e] } = .next t) (hp : t.pending = []) :
    Answers [e] s t (valueRead { s with pending := [e] } t).toList := by
  intro events hev
  obtain ⟨k, rest, rfl, hrest⟩ := hev.cons
  obtain ⟨j, rfl⟩ := hrest.nil
  have hend := Carries.trailing_quiets j ht hp
  simpa using Carries.quiets_of_idle k hi ((Carries.single h hp).append hend)

/-! ### The lines of a program -/

/-- A write to anything but CMD leaves an idle block idle, whatever events come after it (R64 cases 3 to 5). -/
theorem step_write_of_idle {s : State} {a : WordIndex} (ha : a ≠ 0) (v : Word) (hb : s.status.busy = false) :
    ∃ t : State, t.status = s.status ∧ t.seq = s.seq ∧
      ∀ pe, step { s with pending := .write a v :: pe } = .next { t with pending := pe } := by
  cases ht : target a with
  | reg r =>
    have hr : r ≠ .cmd := fun h => ha (target_eq_cmd a (h ▸ ht))
    refine ⟨writeReg r v s, by simp, by simp, fun pe => ?_⟩
    refine (hostWrite_reg_of_idle (s := { s with pending := pe }) ht hr v hb).trans ?_
    cases r <;> rfl
  | buffer offset =>
    exact ⟨{ s with mem := memWriteWord s.mem offset v }, rfl, rfl, fun pe => hostWrite_buffer_of_idle ht v hb⟩
  | reserved => exact ⟨s, rfl, rfl, fun pe => hostWrite_of_reserved ht v _⟩

/-- Lines that write anything but CMD answer nothing and end, however interleaved, where they end run one after another. -/
theorem Answers.of_writes {program : List Event} {s u : State} (hp : ∀ e ∈ program, ∃ a v, e = .write a v ∧ a ≠ 0)
    (hi : s.seq.phase = .idle) (hb : s.status.busy = false)
    (hrun : RunsTo program.length { s with pending := program } u) : Answers program s u [] := by
  induction program generalizing s with
  | nil =>
    rw [← Host.Outcome.next.inj hrun]
    exact Answers.nil hi
  | cons e program ih =>
    obtain ⟨a, v, rfl, ha⟩ := hp e (by simp)
    obtain ⟨t, hst, hseq, hstep⟩ := step_write_of_idle ha v hb
    have hti : t.seq.phase = .idle := by rw [hseq]; exact hi
    obtain ⟨t', ht', hrest⟩ := (runsTo_succ_iff _ _ _).mp hrun
    obtain rfl := Host.Outcome.next.inj ((hstep program).symm.trans ht')
    have hfirst : Answers [.write a v] s { t with pending := [] } [] := Answers.single hi hti (hstep []) rfl
    have hrest' : Answers program { t with pending := [] } u [] :=
      ih (s := { t with pending := [] }) (fun e he => hp e (by simp [he])) hti (by rw [hst]; exact hb) hrest
    exact hfirst.append hrest'

/-- Reads answer the words of the address map and leave the block as it is (R63, R97). -/
theorem Answers.reads (as : List WordIndex) {s : State} (hi : s.seq.phase = .idle) :
    ∃ u, Answers (as.map .read) s u (as.map fun a => readWord a s) := by
  induction as generalizing s with
  | nil => exact ⟨_, Answers.nil hi⟩
  | cons a as ih =>
    have hread (b : WordIndex) : readWord b { s with pending := [] } = readWord b s :=
      readWord_congr ⟨fun r => by cases r <;> rfl, fun _ => rfl⟩ b
    have hkept (b : WordIndex) : readWord b (hostRead a { s with pending := [] }) = readWord b s :=
      readWord_congr ⟨fun r => by cases r <;> rfl, fun _ => rfl⟩ b
    have hfirst : Answers [.read a] s (hostRead a { s with pending := [] }) [readWord a s] := by
      have h := Answers.single (e := .read a) hi (t := hostRead a { s with pending := [] }) hi rfl rfl
      simpa [valueRead, hread] using h
    obtain ⟨u, hu⟩ := ih (s := hostRead a { s with pending := [] }) hi
    simp only [hkept] at hu
    exact ⟨u, hfirst.append hu⟩

/-- A command and its WAIT: however many core steps come before, between and after them, the host reads STATUS of the
state the command completes with (R98, R99). -/
theorem Answers.command {i : Instr} {s u : State} (hi : s.seq.phase = .idle) (h : Completes i s u) :
    Answers (commandLine i ++ waitLine) s (hostRead statusIndex { u with pending := [] }) [u.status.word] := by
  obtain ⟨t, n, hexec, hbusy, hn, hu⟩ := h
  intro events hev
  obtain ⟨k, after, rfl, hafter⟩ := hev.cons
  obtain ⟨j, last, rfl, hlast⟩ := hafter.cons
  obtain ⟨l, rfl⟩ := hlast.nil
  have hwrite : Carries (commandLine i) s { t with pending := [] } [] := by
    refine Carries.single ?_ rfl
    rw [step_cons]
    exact (hostWrite_cmd_of_legal (Sys2Proof.decode_encode i) _).trans (exec_pending i s t [] hexec)
  have hend : coreStep^[n] (coreStep^[j] t) = u := by
    rw [← iterate_coreStep_add, Nat.add_comm, iterate_coreStep_add, hn, Function.iterate_fixed (coreStep_idle u hu)]
  have hwait := Carries.wait (n := n) (busy_iff_iterate j t hbusy) (by rw [hend]; exact hu)
  rw [hend] at hwait
  have hrest := Carries.trailing_quiets (s := hostRead statusIndex { u with pending := [] }) l (by simpa using hu) rfl
  have htail : Carries (List.replicate j .quiet ++ .wait :: List.replicate l .quiet) { t with pending := [] }
      (hostRead statusIndex { u with pending := [] }) [u.status.word] :=
    Carries.quiets j (by rw [iterate_coreStep_pending]; exact hwait.append hrest)
  exact Carries.quiets_of_idle k hi (hwrite.append htail)

end Sys2Proof.Machine
end

section
/-! PROOFS. Scope: the source's entry points as host programs (30_encoding.md R100). -/

namespace Sys2Proof.Machine

/-! ### The lines that set the operands -/

/-- Where a host program starts: the block is idle and meets the STATUS and memory invariants. -/
structure HostReady (s : State) : Prop where
  mem    : memWf s.mem
  status : StatusInv s
  idle   : s.status.busy = false

theorem HostReady.phase {s : State} (h : HostReady s) : s.seq.phase = .idle := h.status.idle h.idle

/-- Whether a host program can start depends on STATUS, SEQ and the buffers alone. -/
theorem HostReady.congr {s t : State} (h : HostReady s) (hm : memWf t.mem) (hst : t.status = s.status)
    (hq : t.seq = s.seq) : HostReady t :=
  ⟨hm, statusInv_congr hst hq h.status, hst ▸ h.idle⟩

/-- A write line at an offset other than CMD's is a write to another word index (R97). -/
theorem write_of_mem_wrLine {offset : Nat} (hlo : 4 ≤ offset) (hhi : offset < 0x800) {v : Word} {e : Event}
    (h : e ∈ wrLine offset v) : ∃ a v, e = .write a v ∧ a ≠ 0 := by
  rw [wrLine, List.mem_singleton] at h
  refine ⟨_, _, h, fun h0 => ?_⟩
  have := congrArg BitVec.toNat h0
  simp only [BitVec.ofNat_eq_ofNat, BitVec.toNat_ofNat] at this
  omega

/-- The word writes of a sequence in the address map's upper part are not writes to CMD (R99). -/
theorem write_of_mem_loadWords {base : Nat} {x : List Byte} (hlo : 4 ≤ base)
    (hhi : base + 4 * ((x.length + 3) / 4) ≤ 0x800) {e : Event} (h : e ∈ loadWords base x) : ∃ a v, e = .write a v ∧ a ≠ 0 := by
  obtain ⟨j, hj, he⟩ := List.mem_flatMap.mp h
  rw [List.mem_range] at hj
  exact write_of_mem_wrLine (by omega) (by omega) he

/-- LOADKEY in a program (R99). -/
theorem Answers.loadKey {x : List Byte} (hx : x.length ≤ 256) {s : State} (hs : HostReady s) :
    ∃ t, HostReady t ∧ t.key = x ∧ t.tOk = s.tOk ∧ t.tSec = s.tSec ∧ Answers (loadKeyLine x) s t [] := by
  obtain ⟨m, hwf, hread, -, hrun⟩ := runsTo_loadKeyLine x hx s [] hs.idle hs.mem
  rw [List.append_nil] at hrun
  have hload := Answers.of_writes (fun e he => ?writes) hs.phase hs.idle hrun
  refine ⟨_, ?ready, ?key, ?clock, ?time, hload⟩
  case clock | time => rfl
  case ready => exact hs.congr hwf rfl rfl
  case key => simpa only [State.key, toNat_ofNat_length x (by omega : x.length ≤ 1024)] using hread
  case writes =>
    rcases List.mem_append.mp he with h | h
    · exact write_of_mem_loadWords (by decide) (by simp only [keyBase]; omega) h
    · exact write_of_mem_wrLine (by decide) (by decide) h

/-- LOADMSG in a program: it leaves the key (R99). -/
theorem Answers.loadMsg {x : List Byte} (hx : x.length ≤ 1024) {s : State} (hs : HostReady s) :
    ∃ t, HostReady t ∧ t.msg = x ∧ (s.keyLen.toNat ≤ 256 → t.key = s.key) ∧ Answers (loadMsgLine x) s t [] := by
  obtain ⟨m, hwf, hread, hget, hrun⟩ := runsTo_loadMsgLine x hx s [] hs.idle hs.mem
  rw [List.append_nil] at hrun
  have hload := Answers.of_writes (fun e he => ?writes) hs.phase hs.idle hrun
  refine ⟨_, ?ready, ?msg, ?key, hload⟩
  case ready => exact hs.congr hwf rfl rfl
  case msg => simpa only [State.msg, toNat_ofNat_length x hx] using hread
  case key => exact fun hk => memRead_congr fun k hk' => hget _ (.inl (by simp only [keyBase, msgBase] at *; omega))
  case writes =>
    rcases List.mem_append.mp he with h | h
    · exact write_of_mem_loadWords (by decide) (by simp only [msgBase]; omega) h
    · exact write_of_mem_wrLine (by decide) (by decide) h

/-- A write line of an operand register in a program (R64 case 3). -/
theorem Answers.operandLine (r : HostReg) (hr : r ≠ .cmd) (v : Word) {s : State} (hs : HostReady s) :
    HostReady (writeReg r v { s with pending := [] }) ∧
      Answers (wrLine r.offset v) s (writeReg r v { s with pending := [] }) [] := by
  have hready : HostReady (writeReg r v { s with pending := [] }) :=
    hs.congr (by simpa using hs.mem) (by simp) (by simp)
  exact ⟨hready, Answers.single hs.phase hready.phase (step_wrLine_reg s r hr v [] hs.idle) (by cases r <;> rfl)⟩

/-- SETCTR in a program (R99). -/
theorem Answers.setCtr (c : Quad) {s : State} (hs : HostReady s) :
    ∃ t, HostReady t ∧ t.key = s.key ∧ t.ctr = c ∧ Answers (setCtrLine c) s t [] := by
  obtain ⟨hready, hhi⟩ := Answers.operandLine .ctrHi (by decide) (c.extractLsb' 32 32) hs
  obtain ⟨hready', hlo⟩ := Answers.operandLine .ctrLo (by decide) (c.extractLsb' 0 32) hready
  exact ⟨_, hready', rfl, append_extractLsb' c, hhi.append hlo⟩

/-- SETSTEP in a program (R99). -/
theorem Answers.setStep (p : Quad) {s : State} (hs : HostReady s) :
    ∃ t, HostReady t ∧ t.key = s.key ∧ t.step64 = p ∧ t.tOk = s.tOk ∧ t.tSec = s.tSec ∧
      Answers (setStepLine p) s t [] := by
  obtain ⟨hready, hhi⟩ := Answers.operandLine .stepHi (by decide) (p.extractLsb' 32 32) hs
  obtain ⟨hready', hlo⟩ := Answers.operandLine .stepLo (by decide) (p.extractLsb' 0 32) hready
  exact ⟨_, hready', rfl, append_extractLsb' p, rfl, rfl, hhi.append hlo⟩

/-! ### The reads of the results -/

/-- WAIT's last read leaves what the host can read as it is (R63, R99). -/
theorem readWord_afterWait (u : State) (a : WordIndex) :
    readWord a (hostRead statusIndex { u with pending := [] }) = readWord a u :=
  readWord_congr ⟨fun r => by cases r <;> rfl, fun _ => rfl⟩ a

/-- Lines that set the operands, a command, its WAIT and reads: STATUS and what is read are those of the state the command
completes with (R97 to R99). -/
theorem Answers.results {load : List Event} {i : Instr} {s t u : State} (hload : Answers load s t [])
    (hi : t.seq.phase = .idle) (h : Completes i t u) (as : List WordIndex) :
    ∃ q, Answers (load ++ commandLine i ++ waitLine ++ as.map .read) s q
      (u.status.word :: as.map fun a => readWord a u) := by
  have hcommand := Answers.command hi h
  obtain ⟨-, -, -, -, -, hu⟩ := h
  obtain ⟨q, hq⟩ := Answers.reads as (s := hostRead statusIndex { u with pending := [] }) (by simpa using hu)
  simp only [readWord_afterWait] at hq
  rw [List.append_assoc load]
  exact ⟨q, (hload.append hcommand).append hq⟩

/-- The word indices of DIGEST0 to DIGEST4 (R27, R61). -/
def digestIndices : List WordIndex := [8, 9, 10, 11, 12]

theorem readDigestLines_eq : readDigestLines = digestIndices.map .read := rfl

theorem readWord_digestIndices (s : State) : (digestIndices.map fun a => readWord a s) = s.digest.toList := by
  refine List.ext_getElem (by simp [digestIndices]) fun i hi _ => ?_
  rw [digestIndices, List.length_map] at hi
  simp only [List.length_cons, List.length_nil] at hi
  interval_cases i <;> rfl

/-- The word indices of OTP_STR0 to OTP_STR2 (R30, R61). -/
def otpStrIndices : List WordIndex := [16, 17, 18]

theorem readOtpStrLines_eq : readOtpStrLines = otpStrIndices.map .read := rfl

theorem readWord_otpStrIndices (s : State) : (otpStrIndices.map fun a => readWord a s) = s.otpStr.toList := by
  refine List.ext_getElem (by simp [otpStrIndices]) fun i hi _ => ?_
  rw [otpStrIndices, List.length_map] at hi
  simp only [List.length_cons, List.length_nil] at hi
  interval_cases i <;> rfl

/-! ### `hash` and `hmac` -/

/-- `hash(S)` reads 0x00A and the digest (R100). -/
theorem answers_hashProgram {s : State} (hs : HostReady s) {msg : List Byte} (hm : msg.length ≤ 1024) :
    ∃ q, Answers (hashProgram msg) s q (0x00A :: (digestWords (sha1 msg)).toList) := by
  obtain ⟨t, ht, hmsg, -, hload⟩ := Answers.loadMsg hm hs
  obtain ⟨u, hu, hdigest, -, hst⟩ := completes_hash ht.idle (by rw [← length_msg, hmsg]; exact hm)
  have hq := Answers.results hload ht.phase hu digestIndices
  rwa [readWord_digestIndices, hdigest, hst, hmsg] at hq

/-- `hmac(K, M, 64)` reads 0x00A and the tag (R100). -/
theorem answers_hmacProgram {s : State} (hs : HostReady s) {key msg : List Byte} (hk : key.length ≤ 256)
    (hm : msg.length ≤ 1024) :
    ∃ q tag, hmac 64 key msg = some tag ∧ Answers (hmacProgram key msg) s q (0x00A :: (digestWords tag).toList) := by
  obtain ⟨t₁, ht₁, hkey₁, -, -, hload₁⟩ := Answers.loadKey hk hs
  obtain ⟨t, ht, hmsg, hkept, hload⟩ := Answers.loadMsg hm ht₁
  have hkey : t.key = key := (hkept (by rw [← length_key, hkey₁]; exact hk)).trans hkey₁
  obtain ⟨u, hu, tag, htag, hdigest, -, hst⟩ := completes_hmac ht.idle (by rw [← length_key, hkey]; exact hk)
    (by rw [← length_msg, hmsg]; exact hm)
  obtain ⟨q, hq⟩ := Answers.results (hload₁.append hload) ht.phase hu digestIndices
  rw [readWord_digestIndices, hdigest, hst] at hq
  rw [hkey, hmsg] at htag
  exact ⟨q, tag, htag, hq⟩

/-- Settles O59: the loading lines leave the operands, the command completes with its function of them, and the reads
show it (`answers_hashProgram`, `answers_hmacProgram`). -/
theorem hashAndHmacProgramsReadTheirResults : Obligations.HashAndHmacProgramsReadTheirResults := by
  intro s key msg hmem hst hidle hk hm
  have hs : HostReady s := ⟨hmem, hst, hidle⟩
  refine ⟨fun events hev => ?_, fun events hev => ?_⟩
  · obtain ⟨q, hq⟩ := answers_hashProgram hs hm
    obtain ⟨fuel, hrun⟩ := hq events hev
    exact ⟨fuel, q, hrun⟩
  · obtain ⟨q, tag, htag, hq⟩ := answers_hmacProgram hs hk hm
    obtain ⟨fuel, hrun⟩ := hq events hev
    exact ⟨fuel, q, tag, htag, hrun⟩

/-! ### HOTP and `generateTotp` -/

/-- The HOTP program reads 0x01A and the code of its secret and counter (R100, R175, R181). -/
theorem answers_hotpProgram {s : State} (hs : HostReady s) {secret : List Byte} (hk : secret.length ≤ 256) (c : Quad)
    {d : BitVec 4} (hd : 1 ≤ d.toNat ∧ d.toNat ≤ 9) :
    ∃ bytes tag code q, CounterBytes bytes c.toNat ∧ hmac 64 secret bytes = some tag ∧
      code.toNat = (dtValue tag).toNat % 10 ^ d.toNat ∧ Answers (hotpProgram secret c d) s q [0x01A, code] := by
  obtain ⟨t₁, ht₁, hkey₁, -, -, hload₁⟩ := Answers.loadKey hk hs
  obtain ⟨t, ht, hkey, hctr, hload⟩ := Answers.setCtr c ht₁
  rw [hkey₁] at hkey
  have hlen : t.keyLen.toNat ≤ 256 := by rw [← length_key, hkey]; exact hk
  have hcheck : checkOf (.hotp d) (clearForAccept (encode (.hotp d)) t) = none :=
    (checkOf_eq_none (.hotp d) _).mpr ⟨hd, by simpa using hlen⟩
  obtain ⟨u, hu, bytes, tag, hbytes, htag, -, -, hcode, -, hst⟩ := completes_otp (.inl rfl) ht.idle hcheck
  obtain ⟨q, hq⟩ := Answers.results (hload₁.append hload) ht.phase hu [14]
  rw [hst] at hq
  rw [hkey] at htag
  have hstart : (t.start (.hotp d)).ctr = t.ctr := rfl
  rw [hstart, hctr] at hbytes
  exact ⟨bytes, tag, u.code, q, hbytes, htag, hcode, hq⟩

/-- The lines of `generateTotp` before its command (R100). -/
theorem answers_totpOperands {s : State} (hs : HostReady s) {secret : List Byte} (hk : secret.length ≤ 256)
    {period : Quad} (hp : period ≠ 0) :
    ∃ t, HostReady t ∧ t.key = secret ∧ t.keyLen.toNat ≤ 256 ∧ t.step64 = period ∧ (t.stepHi ≠ 0 ∨ t.stepLo ≠ 0) ∧
      t.tOk = s.tOk ∧ t.tSec = s.tSec ∧ Answers (loadKeyLine secret ++ setStepLine period) s t [] := by
  obtain ⟨t₁, ht₁, hkey₁, hok₁, hsec₁, hload₁⟩ := Answers.loadKey hk hs
  obtain ⟨t, ht, hkey, hstep, hok, hsec, hload⟩ := Answers.setStep period ht₁
  rw [hkey₁] at hkey
  refine ⟨t, ht, hkey, by rw [← length_key, hkey]; exact hk, hstep, ?_, hok.trans hok₁, hsec.trans hsec₁,
    hload₁.append hload⟩
  by_contra hzero
  obtain ⟨hhi, hlo⟩ : t.stepHi = 0 ∧ t.stepLo = 0 := by simpa using hzero
  rw [State.step64, hhi, hlo] at hstep
  exact hp hstep.symm

/-- TOTP starts with the floor of the time by the step length in CTR (R176). -/
theorem toNat_ctr_start_totp (d : BitVec 4) (s : State) :
    (s.start (.totp d)).ctr.toNat = s.tSec.toNat / s.step64.toNat := by
  have hctr : (s.start (.totp d)).ctr = BitVec.ofNat 64 (totpCtr s.tSec.toNat s.step64.toNat) := append_extractLsb' _
  rw [hctr, BitVec.toNat_ofNat, totpCtr]
  exact Nat.mod_eq_of_lt ((Nat.div_le_self _ _).trans_lt s.tSec.isLt)

/-- With a good clock `generateTotp` reads 0x01A at WAIT, in a state that shows the code at the counter of the time (R100,
R176, R181). -/
theorem answers_totpProgram {s : State} (hs : HostReady s) {secret : List Byte} (hk : secret.length ≤ 256)
    {period : Quad} (hp : period ≠ 0) {d : BitVec 4} (hd : 1 ≤ d.toNat ∧ d.toNat ≤ 9) (hok : s.tOk = true) (hsec : s.tSec.msb = false) :
    ∃ u, OtpPublished secret (s.tSec.toNat / period.toNat) d.toNat u ∧ u.seq.phase = .idle ∧
      Answers (totpProgram secret d period) s u [0x01A] := by
  obtain ⟨t, ht, hkey, hlen, hstep, hne, hok', hsec', hload⟩ := answers_totpOperands hs hk hp
  have hcheck : checkOf (.totp d) (clearForAccept (encode (.totp d)) t) = none :=
    (checkOf_eq_none (.totp d) _).mpr (by simpa [hok', hsec'] using ⟨hd, hlen, hne, hok, hsec⟩)
  obtain ⟨u, hu, hpub⟩ := completes_otp (.inr rfl) ht.idle hcheck
  have hq := hload.append (Answers.command ht.phase hu)
  obtain ⟨-, -, -, -, -, hidle⟩ := hu
  rw [hkey, toNat_ctr_start_totp, hstep, hsec'] at hpub
  obtain ⟨bytes, tag, hbytes, htag, hdigest, htrunc, hcode, hstr, hst⟩ := hpub
  rw [hst, ← List.append_assoc] at hq
  exact ⟨_, ⟨bytes, tag, hbytes, htag, by simpa using hdigest, by simpa using htrunc, by simpa using hcode,
    by simpa using hstr, by simpa using hst⟩, by simpa using hidle, hq⟩

/-- The last check of TOTP is the clock's (R213). -/
theorem checkOf_totp_clock {s : State} {d : BitVec 4} (hd : 1 ≤ d.toNat ∧ d.toNat ≤ 9) (hk : s.keyLen.toNat ≤ 256)
    (hne : s.stepHi ≠ 0 ∨ s.stepLo ≠ 0) (hbad : s.tOk = false ∨ s.tSec.msb = true) :
    checkOf (.totp d) s = some .clock := by
  have hdigits : digitsBad d = false := decide_eq_false (by omega)
  have hlen : s.keyTooLong = false := decide_eq_false (not_lt.mpr hk)
  have hstep : s.stepIsZero = false := by simpa [State.stepIsZero, imp_iff_not_or] using hne
  have hclock : s.clockBad = true := by simpa [State.clockBad] using hbad
  simp [checkOf, totpCheck, hdigits, hlen, hstep, hclock]

/-- With a bad clock `generateTotp` reads 0x106 at WAIT, in a state without OTP results (R100, R206). -/
theorem answers_totpProgram_clockBad {s : State} (hs : HostReady s) {secret : List Byte} (hk : secret.length ≤ 256)
    {period : Quad} (hp : period ≠ 0) {d : BitVec 4} (hd : 1 ≤ d.toNat ∧ d.toNat ≤ 9)
    (hbad : s.tOk = false ∨ s.tSec.msb = true) :
    ∃ u, OtpCleared u ∧ Answers (totpProgram secret d period) s u [0x106] := by
  obtain ⟨t, ht, -, hlen, -, hne, hok, hsec, hload⟩ := answers_totpOperands hs hk hp
  have hcheck : checkOf (.totp d) (clearForAccept (encode (.totp d)) t) = some .clock :=
    checkOf_totp_clock hd (by simpa using hlen) (by simpa using hne) (by simpa [hok, hsec] using hbad)
  obtain ⟨u, hu, hst, hcl⟩ := completes_error ht.status ht.idle hcheck
  have hq := hload.append (Answers.command ht.phase hu)
  rw [hst, ← List.append_assoc] at hq
  exact ⟨_, by simpa [OtpCleared] using hcl, hq⟩

/-! ### The answer of `generateTotp` -/

/-- With ERR = 0 the host reads the result and answers it (R100). -/
theorem totpOutcome_words {events reads : List Event} {s u q : State} {w : Word} {values : List Word}
    (h : Carries events s u [w]) (hw : afterWait w = .readResult) (hr : Carries reads u q values) :
    ∃ fuel, totpOutcome fuel events reads s = some (q, .words values) := by
  obtain ⟨n, hn⟩ := h
  obtain ⟨m, hm⟩ := hr
  have hn' : runProgram (n + m) events s = some (u, [w]) := hostRun_mono n _ _ _ (by omega) hn
  have hm' : runProgram (n + m) reads u = some (q, values) := hostRun_mono m _ _ _ (by omega) hm
  exact ⟨n + m, by simp [totpOutcome, hn', hm', hw]⟩

/-- With error CLOCK the host answers `ClockError` (R100, R206). -/
theorem totpOutcome_clockError {events reads : List Event} {s u : State} {w : Word} (h : Carries events s u [w])
    (hw : afterWait w = .clockError) : ∃ fuel, totpOutcome fuel events reads s = some (u, .clockError) := by
  obtain ⟨n, hn⟩ := h
  exact ⟨n, by simp [totpOutcome, hn, hw]⟩

/-- The reads of a result, one after another. -/
theorem carries_reads (as : List WordIndex) {s : State} (hi : s.seq.phase = .idle) :
    ∃ u, Carries (as.map .read) s u (as.map fun a => readWord a s) := by
  obtain ⟨u, hu⟩ := Answers.reads as hi
  exact ⟨u, hu _ (List.filter_eq_self.mpr (by simp))⟩

/-- The bytes of OTP_STR0 to OTP_STR2, in order, are the string field (R30, R65). -/
theorem flatMap_stringWords (field : Vector Byte 12) :
    ((stringWords field).toList.flatMap fun v => [wordByte v 0, wordByte v 1, wordByte v 2, wordByte v 3]) =
      field.toList := by
  simp only [stringWords, Vector.toList_ofFn, List.ofFn_succ, List.ofFn_zero, List.flatMap_cons, List.flatMap_nil]
  simp only [wordByte_be32At _ _ _ (show 0 < 4 by decide), wordByte_be32At _ _ _ (show 1 < 4 by decide),
    wordByte_be32At _ _ _ (show 2 < 4 by decide), wordByte_be32At _ _ _ (show 3 < 4 by decide)]
  refine List.ext_getElem (by simp) fun i hi hi' => ?_
  have h12 : i < 12 := by simpa using hi'
  interval_cases i <;> simp [List.getD]

/-- The string of a code in the words of OTP_STR0 to OTP_STR2 (R30, R180, R184). -/
theorem decimalString_renderField {digits : Nat} (hd : digits ≤ 12) (code : Nat) :
    decimalString digits (stringWords (renderField code digits)).toList = render code digits := by
  have hlen : (render code digits).length = digits := by simp [render]
  rw [decimalString, flatMap_stringWords]
  refine List.ext_getElem (by simp [hlen, hd]) fun i hi hi' => ?_
  simp [renderField, hi']

/-- Settles O60: the loading lines leave the operands, the command completes with the code or the error, and what the
host reads after WAIT is the state it completes with. -/
theorem otpProgramsAnswerTheCode : Obligations.OtpProgramsAnswerTheCode := by
  intro s secret d hmem hst hidle hk hd1 hd9
  have hs : HostReady s := ⟨hmem, hst, hidle⟩
  refine ⟨fun c events hev => ?hotp, fun period events hp hok hsec hev => ?totp, fun period events hp hbad hev => ?clock⟩
  case hotp =>
    obtain ⟨bytes, tag, code, q, hbytes, htag, hcode, hq⟩ := answers_hotpProgram hs hk c ⟨hd1, hd9⟩
    obtain ⟨fuel, hrun⟩ := hq events hev
    exact ⟨bytes, tag, code, fuel, q, hbytes, htag, hcode, hrun⟩
  case totp =>
    obtain ⟨u, hpublished, hu, hq⟩ := answers_totpProgram hs hk hp ⟨hd1, hd9⟩ hok hsec
    obtain ⟨bytes, tag, hbytes, htag, -, -, hcode, hstr, -⟩ := hpublished
    obtain ⟨q, hstring⟩ := carries_reads otpStrIndices hu
    obtain ⟨q', hnumber⟩ := carries_reads [14] hu
    rw [readWord_otpStrIndices, hstr] at hstring
    obtain ⟨fuel, hrun⟩ := totpOutcome_words (hq events hev) (by decide) hstring
    obtain ⟨fuel', hrun'⟩ := totpOutcome_words (hq events hev) (by decide) hnumber
    exact ⟨bytes, tag, u.code, hbytes, htag, hcode, ⟨fuel, q, _, hrun, decimalString_renderField (by omega) _⟩,
      fuel', q', hrun'⟩
  case clock =>
    obtain ⟨u, hcl, hq⟩ := answers_totpProgram_clockBad hs hk hp ⟨hd1, hd9⟩ hbad
    obtain ⟨fuel, hrun⟩ := totpOutcome_clockError (hq events hev) (by decide)
    exact ⟨fuel, u, hrun, hcl⟩

end Sys2Proof.Machine
end

section
/-! PROOFS. Scope: the registers of a running command against the functions of its operands (40_lifecycle.md R113 to R117;
41_sha1.md R134 to R140, R143; 42_hmac.md R161 to R164; 70_reset_and_hazards.md R245). -/

namespace Sys2Proof.Machine

/-! ### The core steps of a pass -/

section
variable {s : State} {h : Vector Word 5} {w : Vector Word 80} {r : Work} {q : Seq} (hq : q.pass = s.seq.pass)
include hq

/-! What a phase of a pass needs, after a step that writes the hash engine's registers and leaves PASS: the stream is the
same. -/

theorem engineAt_engineTo_load : EngineAt (s.engineTo h w r q) .load ↔
    PassReady s ∧ q.blk < s.nb ∧ h = chain s.padded q.blk := by
  simp only [EngineAt, passReady_engineTo s h w r q hq, engineTo_nb s h w r q hq, engineTo_padded s h w r q hq,
    engineTo_h, engineTo_seq]

theorem engineAt_engineTo_round : EngineAt (s.engineTo h w r q) .round ↔
    PassReady s ∧ q.blk < s.nb ∧ h = chain s.padded q.blk ∧ w = schedule (blockWords s.padded q.blk) ∧
      r = rounds w q.t.val (workOf h) := by
  simp only [EngineAt, passReady_engineTo s h w r q hq, engineTo_nb s h w r q hq, engineTo_padded s h w r q hq,
    engineTo_h, engineTo_w, engineTo_work, engineTo_seq]

theorem engineAt_engineTo_add : EngineAt (s.engineTo h w r q) .add ↔
    PassReady s ∧ q.blk < s.nb ∧ h = chain s.padded q.blk ∧
      r = rounds (schedule (blockWords s.padded q.blk)) 80 (workOf h) := by
  simp only [EngineAt, passReady_engineTo s h w r q hq, engineTo_nb s h w r q hq, engineTo_padded s h w r q hq,
    engineTo_h, engineTo_work, engineTo_seq]

theorem engineAt_engineTo_passend : EngineAt (s.engineTo h w r q) .passend ↔
    PassReady s ∧ h = chain s.padded s.nb := by
  simp only [EngineAt, passReady_engineTo s h w r q hq, engineTo_nb s h w r q hq, engineTo_padded s h w r q hq,
    engineTo_h]

end

/-- INIT starts the chain of the pass's stream (R134, R136). -/
theorem engineAt_stepInit {s : State} (hr : PassReady s) : EngineAt (stepInit s) .load := by
  rw [stepInit_engineTo]
  exact (engineAt_engineTo_load (by rfl)).mpr ⟨hr, s.nb_pos, by rw [chain]⟩

/-- LOAD takes the block's schedule and a copy of H, before round 0 (R133, R137). -/
theorem engineAt_stepLoad {s : State} (h : EngineAt s .load) : EngineAt (stepLoad s) .round := by
  obtain ⟨hr, hblk, hh⟩ := h
  rw [stepLoad_engineTo]
  exact (engineAt_engineTo_round (by rfl)).mpr ⟨hr, hblk, hh, rfl, by rw [Fin.val_zero, rounds]⟩

/-- ROUND applies round T; after round 79 all eighty are applied (R133, R138). -/
theorem engineAt_stepRound {s : State} (hp : s.seq.phase = .round) (h : EngineAt s .round) :
    EngineAt (stepRound s) s.seq.afterRound.phase := by
  obtain ⟨hr, hblk, hh, hw, hwork⟩ := h
  rw [stepRound_engineTo, hwork]
  by_cases ht : s.seq.t.val < 79
  · rw [afterRound_of_lt s.seq s.seq.t.val (by omega) rfl, hp]
    exact (engineAt_engineTo_round (by rfl)).mpr
      ⟨hr, hblk, hh, hw, (rounds_succ s.w s.seq.t.val (by omega) (workOf s.h)).symm⟩
  · rw [afterRound_last s.seq (Fin.ext (by simp only; omega)), rounds_last s.w s.seq.t ht]
    exact (engineAt_engineTo_add (by rfl)).mpr ⟨hr, hblk, hh, by rw [hw]⟩

/-- ADD completes the block in H: the next block follows, or the chain is whole (R134, R139). -/
theorem engineAt_stepAdd {s : State} (h : EngineAt s .add) : EngineAt (stepAdd s) (s.seq.afterAdd s.nb).phase := by
  obtain ⟨hr, hblk, hh, hwork⟩ := h
  have hchain : addWork s.h s.work = chain s.padded (s.seq.blk + 1) := by rw [chain_succ, compress, hwork, hh]
  rw [stepAdd_engineTo, hchain]
  by_cases hlt : s.seq.blk + 1 < s.nb
  · rw [afterAdd_of_lt s.seq s.nb _ rfl hlt]
    exact (engineAt_engineTo_load (by rfl)).mpr ⟨hr, hlt, rfl⟩
  · rw [afterAdd_last s.seq s.nb hlt]
    exact (engineAt_engineTo_passend (by rfl)).mpr ⟨hr, by rw [show s.nb = s.seq.blk + 1 by omega]⟩

/-! ### The end of a pass -/

/-- At the end of a pass H serialises to SHA1 of the pass's stream (R134, R140). -/
theorem d20_eq_sha1 {s : State} (hh : s.h = chain s.padded s.nb) : d20 s.h = sha1 s.stream := by
  rw [sha1, hh, State.padded, State.nb]

/-- The PLAIN pass leaves the digest of the message (R140). -/
theorem engineAt_stepPassendPlain {s : State} (hq : s.seq.pass = .plain) (h : EngineAt s .passend) :
    EngineAt (stepPassendPlain s) .finish := by
  obtain ⟨hr, hh⟩ := h
  have hop : s.op = 1 := (passReady_plain s hq).mp hr
  have htag : (stepPassendPlain s).commandTag = s.commandTag :=
    commandTag_congr (by simp) (by simp) (by simp) (by simp)
  refine ⟨?_, fun hotp => ?_⟩
  · rw [htag, commandTag_hash s hop]
    simp [d20_eq_sha1 hh, State.stream, hq]
  · simp [isOtp_of_hash s hop] at hotp

/-- The KEYHASH pass leaves the normalised key in K0 (R156, R162). -/
theorem engineAt_stepPassendKeyhash {s : State} (hq : s.seq.pass = .keyhash) (h : EngineAt s .passend) :
    EngineAt (stepPassendKeyhash s) .init := by
  obtain ⟨hr, hh⟩ := h
  obtain ⟨hop, hlong⟩ := (passReady_keyhash s hq).mp hr
  show PassReady (stepPassendKeyhash s)
  rw [passReady_inner _ (by simp)]
  exact ⟨by simpa using hop, by simp [d20_eq_sha1 hh, State.stream, hq, normKey64, hlong]⟩

/-- The INNER pass leaves the inner digest in IDIG (R163). -/
theorem engineAt_stepPassendInner {s : State} (hq : s.seq.pass = .inner) (h : EngineAt s .passend) :
    EngineAt (stepPassendInner s) .init := by
  obtain ⟨hr, hh⟩ := h
  obtain ⟨hop, hk0⟩ := (passReady_inner s hq).mp hr
  show PassReady (stepPassendInner s)
  rw [passReady_outer _ (by simp)]
  exact ⟨by simpa using hop, by simpa using hk0, by simp [d20_eq_sha1 hh, State.stream, hq, hk0]⟩

/-- The OUTER pass leaves the tag (R158, R164). -/
theorem engineAt_stepPassendOuter {s : State} (hq : s.seq.pass = .outer) (h : EngineAt s .passend) :
    EngineAt (stepPassendOuter s) (if s.isOtp then .trunc else .finish) := by
  obtain ⟨hr, hh⟩ := h
  obtain ⟨hop, hk0, hidig⟩ := (passReady_outer s hq).mp hr
  have htag : (stepPassendOuter s).tag = (stepPassendOuter s).commandTag := by
    rw [commandTag_congr (s := s) (by simp) (by simp) (by simp) (by simp), commandTag_keyed s hop, hmac64, hmacOfNormKey]
    simp [d20_eq_sha1 hh, State.stream, hq, hk0, hidig]
  cases hotp : s.isOtp with
  | true => exact ⟨by simpa using hotp, htag⟩
  | false => exact ⟨htag, fun h => by simp [hotp] at h⟩

/-- PASSEND, whichever pass ends (R113). -/
theorem engineAt_stepPassend {s : State} (h : EngineAt s .passend) :
    EngineAt (stepPassend s) (stepPassend s).seq.phase := by
  cases hq : s.seq.pass <;> simp only [stepPassend, hq]
  case plain => simpa using engineAt_stepPassendPlain hq h
  case keyhash => simpa using engineAt_stepPassendKeyhash hq h
  case inner => simpa using engineAt_stepPassendInner hq h
  case outer => simpa using engineAt_stepPassendOuter hq h

/-! ### The other core steps -/

/-- KEYSEL leaves a long key to the KEYHASH pass and normalises a short one itself (R156, R161). -/
theorem engineAt_stepKeysel {s : State} (hop : s.op ≠ 1) : EngineAt (stepKeysel s) (stepKeysel s).seq.phase := by
  by_cases hlong : 64 < s.keyLen.toNat
  · rw [stepKeysel, if_pos hlong, show (stepKeyselLong s).seq.phase = .init by simp]
    show PassReady (stepKeyselLong s)
    rw [passReady_keyhash _ (by simp)]
    exact ⟨by simpa using hop, by simpa using hlong⟩
  · rw [stepKeysel, if_neg hlong, show (stepKeyselShort s).seq.phase = .init by simp]
    show PassReady (stepKeyselShort s)
    rw [passReady_inner _ (by simp)]
    exact ⟨by simpa using hop, by simp [normKey64, hlong]⟩

/-- A core step leaves the engine's registers as the next phase needs them (R115, R143, R245). -/
theorem engineAt_coreStep {s : State} (h : EngineAt s s.seq.phase) : EngineAt (coreStep s) (coreStep s).seq.phase := by
  have htag : (coreStep s).commandTag = s.commandTag := commandTag_iterate 1 s
  cases hp : s.seq.phase <;> rw [hp] at h
  case idle =>
    rw [coreStep_idle s hp, hp]
    trivial
  case keysel =>
    rw [coreStep_keysel s hp]
    exact engineAt_stepKeysel h
  case init =>
    rw [coreStep_init s hp]
    exact engineAt_stepInit h
  case load =>
    rw [coreStep_load s hp]
    exact engineAt_stepLoad h
  case round =>
    rw [coreStep_round s hp]
    exact engineAt_stepRound hp h
  case add =>
    rw [coreStep_add s hp]
    exact engineAt_stepAdd h
  case passend =>
    rw [coreStep_passend s hp]
    exact engineAt_stepPassend h
  case trunc =>
    obtain ⟨hotp, ht⟩ := h
    rw [coreStep_trunc s hp] at htag ⊢
    exact ⟨by simpa using hotp, by simpa [htag] using ht, by simp⟩
  case reduce =>
    obtain ⟨hotp, ht, hv⟩ := h
    rw [coreStep_reduce s hp] at htag ⊢
    exact ⟨by simpa using hotp, by simpa [htag] using ht, by simpa using hv, by simp⟩
  case render =>
    obtain ⟨hotp, ht, hv, hc⟩ := h
    rw [coreStep_render s hp] at htag ⊢
    exact ⟨by simpa [htag] using ht, fun _ => ⟨by simpa using hv, by simpa using hc, by simp⟩⟩
  case finish =>
    rw [coreStep_finish s hp]
    simp [Seq.rest, EngineAt]

/-! ### Every step -/

/-- A core step keeps the operands legal and the engine on the functions. -/
theorem engineInv_coreStep {s : State} (he : EngineInv s) : EngineInv (coreStep s) := by
  refine ⟨fun hne => (operandsLegal_coreStep s).mpr (he.operands fun hi => hne ?_), engineAt_coreStep he.engine⟩
  rwa [coreStep_idle s hi]

/-- A started command other than HASH has an OP other than 1 (R90, R110). -/
theorem op_start_ne_one {i : Instr} (hi : i ≠ .hash) (s : State) : (s.start i).op ≠ 1 := by
  cases i
  case hash => exact absurd rfl hi
  case hmac => exact show (2 : BitVec 4) ≠ 1 by decide
  all_goals simp

/-- A started command passed the checks of its operands, and its first phase needs nothing of the engine (R110, R213,
R214, R245). -/
theorem engineInv_start {i : Instr} {s : State} (hc : checkOf i (clearForAccept (encode i) s) = none) :
    EngineInv (s.start i) := by
  have hcheck := (checkOf_eq_none i _).mp hc
  have hop (hi : i ≠ .hash) := op_start_ne_one hi s
  cases i <;> simp only [clearForAccept_fields] at hcheck
  case hash => exact ⟨fun _ => .inl ⟨rfl, hcheck⟩, (passReady_plain (s.start .hash) rfl).mpr rfl⟩
  case hmac => exact ⟨fun _ => .inr (.inl ⟨rfl, hcheck⟩), hop nofun⟩
  case hotp d =>
    obtain ⟨hd, hk⟩ := hcheck
    exact ⟨fun _ => .inr (.inr ⟨.inl (by simp), hk, by simpa using hd⟩), hop nofun⟩
  case totp d =>
    obtain ⟨hd, hk, -⟩ := hcheck
    exact ⟨fun _ => .inr (.inr ⟨.inr (by simp), hk, by simpa using hd⟩), hop nofun⟩

/-- Settles O46: the core's step keeps the registers on the functions phase by phase (`engineAt_coreStep`), a command starts
with legal operands, and every other step leaves the running command alone or leaves none running. -/
theorem stepKeepsTheEngineOnTheFunctions : Obligations.StepKeepsTheEngineOnTheFunctions := by
  intro s t hs he h
  refine step_keeps h ?env he (engineInv_coreStep he) (engineInv_of_idle _ rfl) ?reg ?buffer ?error ?start
  case env => exact fun u ok sec rd pe hu => (engineInv_envTo u ok sec rd pe).mpr hu
  case reg => exact fun hb r v => engineInv_of_idle _ (by simpa using hs.idle hb)
  case buffer => exact fun hb _ _ _ _ => engineInv_of_idle _ (hs.idle hb)
  case error => exact fun hb _ _ => engineInv_of_idle _ (by simpa using hs.idle hb)
  case start => exact fun _ _ hc => engineInv_start hc

end Sys2Proof.Machine
end

section
/-! PROOFS. Scope: how many core steps a running command has left, and what its end publishes (40_lifecycle.md R114 to R117;
60_exceptions.md R214; 70_reset_and_hazards.md R245, R250). -/

namespace Sys2Proof.Machine

/-! ### The core steps left -/

/-- The core steps from the PASSEND of a pass to idle, that PASSEND not counted (R113, R115). -/
def State.stepsAfter (s : State) : Pass → Nat
  | .plain => 1
  | .keyhash => passSteps (numBlocks (64 + s.msel.length)) + (passSteps 2 + if s.isOtp then 4 else 1)
  | .inner => passSteps 2 + if s.isOtp then 4 else 1
  | .outer => if s.isOtp then 4 else 1

/-- The core steps a running command has left to idle when it is at a phase (R113, R115). -/
def State.stepsAt (s : State) : Phase → Nat
  | .idle => 0
  | .keysel => 1 + keyhashSteps s + s.stepsAfter .keyhash
  | .init => passSteps s.nb + s.stepsAfter s.seq.pass
  | .load => 82 * (s.nb - s.seq.blk) + 1 + s.stepsAfter s.seq.pass
  | .round => 80 - s.seq.t.val + 1 + 82 * (s.nb - s.seq.blk - 1) + 1 + s.stepsAfter s.seq.pass
  | .add => 1 + 82 * (s.nb - s.seq.blk - 1) + 1 + s.stepsAfter s.seq.pass
  | .passend => 1 + s.stepsAfter s.seq.pass
  | .trunc => 4
  | .reduce => 3
  | .render => 2
  | .finish => 1

/-- The core steps left to idle (R115). -/
def State.stepsLeft (s : State) : Nat := s.stepsAt s.seq.phase

/-- No core step changes how many steps follow a pass. -/
@[simp] theorem stepsAfter_coreStep (s : State) : (coreStep s).stepsAfter = s.stepsAfter := by
  funext p
  cases p <;> simp [State.stepsAfter]

/-! The blocks of each pass (R115, R135, R160). -/

theorem nb_inner {s : State} (h : s.seq.pass = .inner) : s.nb = numBlocks (64 + s.msel.length) := by
  simp [State.nb, State.stream, h]

theorem nb_outer {s : State} (h : s.seq.pass = .outer) : s.nb = 2 := by simp [State.nb, State.stream, h, numBlocks]

theorem nb_keyhash {s : State} (h : s.seq.pass = .keyhash) : s.nb = numBlocks s.keyLen.toNat := by
  simp [State.nb, State.stream, h]

theorem nb_plain {s : State} (h : s.seq.pass = .plain) : s.nb = numBlocks s.msgLen.toNat := by
  simp [State.nb, State.stream, h]

/-- INIT, LOAD, ROUND and ADD leave the stream of the pass, and so its blocks (R135 to R139). -/
theorem nb_coreStep {s : State}
    (h : s.seq.phase = .init ∨ s.seq.phase = .load ∨ s.seq.phase = .round ∨ s.seq.phase = .add) :
    (coreStep s).nb = s.nb := by
  rcases h with hp | hp | hp | hp
  · rw [coreStep_init s hp, stepInit_engineTo, engineTo_nb]
    rfl
  · rw [coreStep_load s hp, stepLoad_engineTo, engineTo_nb]
    rfl
  · rw [coreStep_round s hp, stepRound_engineTo, engineTo_nb]
    simp
  · rw [coreStep_add s hp, stepAdd_engineTo, engineTo_nb]
    simp

/-- KEYSEL starts the first pass of a keyed command (R113). -/
theorem stepsLeft_stepKeysel {s : State} (hp : s.seq.phase = .keysel) : s.stepsLeft = (stepKeysel s).stepsLeft + 1 := by
  rw [stepKeysel]
  by_cases hlong : 64 < s.keyLen.toNat
  · have hnb : (stepKeyselLong s).nb = numBlocks s.keyLen.toNat := by rw [nb_keyhash (by simp)]; simp
    simp only [if_pos hlong, State.stepsLeft, State.stepsAt, State.stepsAfter, keyhashSteps, hp, hnb, stepKeyselLong_fields,
      stepKeyselLong_operands, stepKeyselLong_msel]
    omega
  · have hnb : (stepKeyselShort s).nb = numBlocks (64 + s.msel.length) := by rw [nb_inner (by simp)]; simp
    simp only [if_neg hlong, State.stepsLeft, State.stepsAt, State.stepsAfter, keyhashSteps, hp, hnb, stepKeyselShort_fields,
      stepKeyselShort_operands]
    omega

/-- PASSEND goes on as the pass's table row says (R113). -/
theorem stepsLeft_stepPassend {s : State} (hp : s.seq.phase = .passend) :
    s.stepsLeft = (stepPassend s).stepsLeft + 1 := by
  cases hq : s.seq.pass <;> simp only [stepPassend, hq]
  case plain => simp [State.stepsLeft, State.stepsAt, State.stepsAfter, hp, hq]
  case keyhash =>
    have hnb : (stepPassendKeyhash s).nb = numBlocks (64 + s.msel.length) := by rw [nb_inner (by simp)]; simp
    simp only [State.stepsLeft, State.stepsAt, State.stepsAfter, hp, hq, hnb, stepPassendKeyhash_fields,
      stepPassendKeyhash_operands]
    omega
  case inner =>
    have hnb : (stepPassendInner s).nb = 2 := nb_outer (by simp)
    simp only [State.stepsLeft, State.stepsAt, State.stepsAfter, hp, hq, hnb, stepPassendInner_fields,
      stepPassendInner_operands]
    omega
  case outer => cases hotp : s.isOtp <;> simp [State.stepsLeft, State.stepsAt, State.stepsAfter, hp, hq, hotp]

/-- Each core step of a running command takes one of the steps left (R113, R115). -/
theorem stepsLeft_coreStep {s : State} (he : EngineInv s) (hi : s.seq.phase ≠ .idle) :
    s.stepsLeft = (coreStep s).stepsLeft + 1 := by
  cases hp : s.seq.phase
  case idle => exact absurd hp hi
  case keysel => rw [coreStep_keysel s hp]; exact stepsLeft_stepKeysel hp
  case passend => rw [coreStep_passend s hp]; exact stepsLeft_stepPassend hp
  case init =>
    have hnb := nb_coreStep (.inl hp)
    have hseq : (coreStep s).seq = { s.seq with blk := 0, phase := .load } := by rw [coreStep_init s hp]; simp
    simp only [State.stepsLeft, State.stepsAt, passSteps, hp, hseq, hnb, stepsAfter_coreStep]
    omega
  case load =>
    have hnb := nb_coreStep (.inr (.inl hp))
    obtain ⟨-, hblk, -⟩ : EngineAt s .load := hp ▸ he.engine
    have hseq : (coreStep s).seq = { s.seq with t := 0, phase := .round } := by rw [coreStep_load s hp]; simp
    simp only [State.stepsLeft, State.stepsAt, hp, hseq, hnb, stepsAfter_coreStep, Fin.val_zero]
    omega
  case round =>
    have hnb := nb_coreStep (.inr (.inr (.inl hp)))
    have hseq : (coreStep s).seq = s.seq.afterRound := by rw [coreStep_round s hp]; simp
    by_cases ht : s.seq.t.val < 79
    · rw [afterRound_of_lt s.seq s.seq.t.val (by omega) rfl] at hseq
      simp only [State.stepsLeft, State.stepsAt, hp, hseq, hnb, stepsAfter_coreStep]
      omega
    · rw [afterRound_last s.seq (Fin.ext (by simp only; omega))] at hseq
      simp only [State.stepsLeft, State.stepsAt, hp, hseq, hnb, stepsAfter_coreStep]
      omega
  case add =>
    have hnb := nb_coreStep (.inr (.inr (.inr hp)))
    have hseq : (coreStep s).seq = s.seq.afterAdd s.nb := by rw [coreStep_add s hp]; simp
    by_cases hlt : s.seq.blk + 1 < s.nb
    · rw [afterAdd_of_lt s.seq s.nb _ rfl hlt] at hseq
      simp only [State.stepsLeft, State.stepsAt, hp, hseq, hnb, stepsAfter_coreStep]
      omega
    · rw [afterAdd_last s.seq s.nb hlt] at hseq
      simp only [State.stepsLeft, State.stepsAt, hp, hseq, stepsAfter_coreStep]
      omega
  case trunc => rw [coreStep_trunc s hp]; simp [State.stepsLeft, State.stepsAt, hp]
  case reduce => rw [coreStep_reduce s hp]; simp [State.stepsLeft, State.stepsAt, hp]
  case render => rw [coreStep_render s hp]; simp [State.stepsLeft, State.stepsAt, hp]
  case finish => rw [coreStep_finish s hp]; simp [State.stepsLeft, State.stepsAt, hp, Seq.rest]

/-- The last of the steps left is FINISH, with the engine's registers on the functions of the operands (R114, R115). -/
theorem iterate_stepsLeft {s : State} (he : EngineInv s) (hi : s.seq.phase ≠ .idle) :
    ∃ n, s.stepsLeft = n + 1 ∧ (coreStep^[n] s).seq.phase = .finish ∧ EngineInv (coreStep^[n] s) := by
  induction hn : s.stepsLeft generalizing s with
  | zero =>
    have := stepsLeft_coreStep he hi
    omega
  | succ n ih =>
    by_cases hf : s.seq.phase = .finish
    · have hone : s.stepsLeft = 1 := by simp [State.stepsLeft, State.stepsAt, hf]
      exact ⟨0, by omega, hf, he⟩
    · have hstep := stepsLeft_coreStep he hi
      obtain ⟨-, -, -, -, -, hrun⟩ := coreStep_notFinish s hf
      obtain ⟨m, rfl, hfin, hinv⟩ := ih (engineInv_coreStep he) (hrun hi) (by omega)
      exact ⟨m + 1, rfl, by rwa [Function.iterate_succ_apply], by rwa [Function.iterate_succ_apply]⟩

/-- A running command left alone ends after the steps left and no fewer, by the FINISH of a state with the same STATUS and
results and with the engine's registers on the functions of the operands (R115). -/
theorem endsAfter_stepsLeft {s : State} (hst : StatusInv s) (he : EngineInv s) (hb : s.status.busy = true)
    (hp : s.pending = []) :
    ∃ n, EndsAfter s.stepsLeft s (stepFinish (coreStep^[n] s)) ∧ SameResults s (coreStep^[n] s) ∧
      EngineAt (coreStep^[n] s) .finish := by
  obtain ⟨n, hn, hf, hinv⟩ := iterate_stepsLeft he (hst.busy_iff.mp hb)
  exact ⟨n, hn ▸ endsAfter_finish n s _ hp hst.busy_iff rfl hf, sameResults_of_finish n s hst.busy_iff hf,
    hf ▸ hinv.engine⟩

/-! ### The bound -/

/-- The message of the INNER pass of HOTP and TOTP is the eight bytes of the counter (R160, R175). -/
theorem length_msel_of_isOtp {s : State} (hotp : s.isOtp = true) : s.msel.length = 8 := by
  have hop : s.op ≠ 2 := by rcases (isOtp_iff s).mp hotp with h | h <;> simp [h]
  rw [State.msel, if_neg hop, length_ctrBytes]

/-- What follows the KEYHASH pass takes longest for HMAC of the longest message (R115, R142). -/
theorem stepsAfter_keyhash_le {s : State} (hl : OperandsLegal s) (hop : s.op ≠ 1) : s.stepsAfter .keyhash ≤ 1645 := by
  have hmsel := length_msel_le hl hop
  cases hotp : s.isOtp with
  | true => simp [State.stepsAfter, passSteps, numBlocks, hotp, length_msel_of_isOtp hotp]
  | false =>
    simp only [State.stepsAfter, passSteps, numBlocks, hotp, Bool.false_eq_true, if_false]
    omega

/-- The KEYHASH pass of a legal key has at most five blocks (R142). -/
theorem passSteps_keyLen_le {s : State} (hl : OperandsLegal s) (hop : s.op ≠ 1) :
    passSteps (numBlocks s.keyLen.toNat) ≤ 412 := by
  have hkey := hl.keyLen_le hop
  simp only [passSteps, numBlocks]
  omega

/-- A whole pass and what follows it take at most 2057 steps (R115, R142). -/
theorem passSteps_add_stepsAfter_le {s : State} (hl : OperandsLegal s) (hr : PassReady s) :
    passSteps s.nb + s.stepsAfter s.seq.pass ≤ 2057 := by
  cases hq : s.seq.pass
  case keyhash =>
    obtain ⟨hop, -⟩ := (passReady_keyhash s hq).mp hr
    have hafter := stepsAfter_keyhash_le hl hop
    have hpass := passSteps_keyLen_le hl hop
    rw [nb_keyhash hq]
    omega
  all_goals
    have hnb := nb_le hl hr
    have htail : (if s.isOtp = true then 4 else 1) ≤ 4 := by split <;> omega
    simp only [State.stepsAfter, passSteps]
    omega

/-- No running command has more than 2058 core steps left: HMAC of the longest key and message has, at KEYSEL (R115). -/
theorem stepsLeft_le {s : State} (he : EngineInv s) (hi : s.seq.phase ≠ .idle) : s.stepsLeft ≤ 2058 := by
  have hl := he.operands hi
  have hat := he.engine
  have hpass (hr : PassReady s) : 2 + 82 * s.nb + s.stepsAfter s.seq.pass ≤ 2057 := passSteps_add_stepsAfter_le hl hr
  cases hp : s.seq.phase <;> rw [hp] at hat <;> simp only [State.stepsLeft, hp, State.stepsAt, passSteps]
  case keysel =>
    have hafter := stepsAfter_keyhash_le hl hat
    have hkey := passSteps_keyLen_le hl hat
    rw [keyhashSteps]
    split_ifs <;> omega
  case init =>
    have := hpass hat
    omega
  case load | round | add =>
    obtain ⟨hr, hblk, -⟩ := hat
    have := hpass hr
    omega
  case passend =>
    obtain ⟨hr, -⟩ := hat
    have := hpass hr
    omega
  all_goals omega

/-- Settles O56: the command ends after the steps left (`endsAfter_stepsLeft`), at most 2058 (`stepsLeft_le`), and FINISH makes
of STATUS 0x001 a STATUS that is done, valid and without error. -/
theorem busyBlockEndsWithin2058Steps : Obligations.BusyBlockEndsWithin2058Steps := by
  intro s hst he _ hb hp
  obtain ⟨n, hends, ⟨hstatus, -, -, -, -⟩, -⟩ := endsAfter_stepsLeft hst he hb hp
  have hstart : s.status = Status.clear.started := eq_started_of_busy _ hst.values hb
  refine ⟨_, _, stepsLeft_le he (hst.busy_iff.mp hb), hends, ?_⟩
  simp [hstatus, hstart, Status.finished, Status.started, Status.clear]

/-! ### What the end publishes -/

/-- A step other than a reset after which a busy block is not busy is FINISH (R113, R114). -/
theorem step_ends_cases {s t : State} (hb : s.status.busy = true) (hr : NoResetNext s) (h : step s = .next t)
    (ht : t.status.busy = false) :
    s.seq.phase = .finish ∧ ∃ pe, t = (stepFinish s).envTo s.tOk s.tSec s.rdata pe := by
  rcases step_cases_of_busy hb hr h with ⟨ok, sec, rd, pe, rfl⟩ | ⟨pe, rfl⟩
  · simp [hb] at ht
  · have hf : s.seq.phase = .finish := by
      by_contra hne
      obtain ⟨hst, -⟩ := coreStep_notFinish s hne
      simp [hst, hb] at ht
    exact ⟨hf, pe, by rw [coreStep_finish s hf]⟩

/-- Settles O51: the step is FINISH (`step_ends_cases`), of a state with STATUS 0x001, no results and the engine's registers on
the functions of the operands. -/
theorem endOfACommandPublishesItsFunction : Obligations.EndOfACommandPublishesItsFunction := by
  intro s t hst he hres hb hr h ht
  obtain ⟨-, -, hfrozen⟩ := operandsAreFrozenWhileBusy s hb
  obtain ⟨hcmd, hinputs, hctr⟩ := hfrozen hr t h
  obtain ⟨hf, pe, rfl⟩ := step_ends_cases hb hr h ht
  have hstart : s.status = Status.clear.started := eq_started_of_busy _ hst.values hb
  have hcl : OtpCleared s := hres.otp_cleared (by rw [hstart]; rfl)
  have hat : EngineAt s .finish := hf ▸ he.engine
  refine ⟨fun hop => ?hash, fun hop => ?hmac, fun hop => ?otp, ?ops, hcmd, hinputs, hctr⟩
  case hash => exact digestPublished_stepFinish hstart hcl hat hop
  case hmac => exact tagPublished_stepFinish hstart hcl hat hop
  case otp =>
    have hpub := otpPublished_stepFinish hstart hat ((isOtp_iff s).mpr hop)
    rw [toNat_ctr] at hpub
    exact hpub
  case ops =>
    rcases he.operands (by simp [hf]) with ⟨h1, -⟩ | ⟨h2, -⟩ | ⟨h34, -⟩
    · exact .inl h1
    · exact .inr (.inl h2)
    · exact .inr (.inr h34)

/-! ### What the outcome depends on -/

/-- FINISH publishes what the functions give: with the same STATUS and results before it, and the same operands as far as the
command reads them, the same after it (R114, R117). -/
theorem sameResults_stepFinish {s t : State} (hs : EngineAt s .finish) (ht : EngineAt t .finish) (h : SameResults s t)
    (hop : t.isOtp = s.isOtp) (hdig : t.dig = s.dig) (htag : t.commandTag = s.commandTag) :
    SameResults (stepFinish s) (stepFinish t) := by
  obtain ⟨hst, hd, htr, hco, hot⟩ := h
  obtain ⟨hs1, hs2⟩ := hs
  obtain ⟨ht1, ht2⟩ := ht
  have hsame : t.tag = s.tag := by rw [ht1, hs1, htag]
  cases hotp : s.isOtp with
  | false =>
    rw [hotp] at hop
    constructor <;> simp [hst, htr, hco, hot, hsame, hotp, hop]
  | true =>
    rw [hotp] at hop
    obtain ⟨hv, hc, hx⟩ := hs2 hotp
    obtain ⟨hv', hc', hx'⟩ := ht2 hop
    have htval : t.tval = s.tval := by rw [hv', hv, hsame]
    have htcode : t.tcode = s.tcode := by rw [hc', hc, htval, hdig]
    have htstr : t.tstr = s.tstr := by rw [hx', hx, htcode, hdig]
    constructor <;> simp [hst, hsame, htval, htcode, htstr, hotp, hop]

/-- STEP is its two words (R26). -/
theorem stepWords_congr {s t : State} (h : t.step64 = s.step64) : t.stepHi = s.stepHi ∧ t.stepLo = s.stepLo := by
  have hhi := congrArg (BitVec.extractLsb' 32 32) h
  have hlo := congrArg (BitVec.extractLsb' 0 32) h
  simp only [State.step64, BitVec.extractLsb'_append_eq_left, BitVec.extractLsb'_append_eq_right] at hhi hlo
  exact ⟨hhi, hlo⟩

/-- The accept step's checks read the command's operands alone (R96, R213). -/
theorem checkOf_congr {i : Instr} {s t : State} (h : SameOperands i s t) :
    checkOf i (clearForAccept (encode i) t) = checkOf i (clearForAccept (encode i) s) := by
  cases i
  case hash =>
    obtain ⟨hm, -⟩ := h
    simp [checkOf, hashCheck, State.msgTooLong, hm]
  case hmac =>
    obtain ⟨hk, -, hm, -⟩ := h
    simp [checkOf, hmacCheck, State.keyTooLong, State.msgTooLong, hk, hm]
  case hotp d =>
    obtain ⟨hk, -⟩ := h
    simp [checkOf, hotpCheck, State.keyTooLong, hk]
  case totp d =>
    obtain ⟨hk, -, hstep, hok, hsec⟩ := h
    obtain ⟨hhi, hlo⟩ := stepWords_congr hstep
    simp [checkOf, totpCheck, State.keyTooLong, State.stepIsZero, State.clockBad, hk, hhi, hlo, hok, hsec]

/-- TOTP starts with the floor of the time by the step length in CTR (R176). -/
theorem ctr_start_totp (d : BitVec 4) (s : State) :
    (s.start (.totp d)).ctr = BitVec.ofNat 64 (totpCtr s.tSec.toNat s.step64.toNat) := append_extractLsb' _

/-- A keyed command's INNER pass hashes the operand of R96: the message, or the counter it starts with (R160). -/
theorem msel_start_congr {i : Instr} {s t : State} (hi : i ≠ .hash) (h : SameOperands i s t) :
    (t.start i).msel = (s.start i).msel := by
  cases i
  case hash => exact absurd rfl hi
  case hmac =>
    obtain ⟨-, -, -, hmsg⟩ := h
    have hstart (u : State) : (u.start .hmac).msel = u.msg := if_pos rfl
    rw [hstart, hstart, hmsg]
  case hotp d =>
    obtain ⟨-, -, hctr⟩ := h
    have hstart (u : State) : (u.start (.hotp d)).ctr = u.ctr := by simp [State.start, startOf]
    simp [State.msel, hstart, hctr]
  case totp d =>
    obtain ⟨-, -, hstep, -, hsec⟩ := h
    simp [State.msel, ctr_start_totp, hstep, hsec]

/-- The operands of a keyed command are the key and others (R96). -/
theorem SameOperands.key {i : Instr} {s t : State} (hi : i ≠ .hash) (h : SameOperands i s t) :
    t.keyLen = s.keyLen ∧ t.key = s.key := by
  cases i
  case hash => exact absurd rfl hi
  all_goals
    obtain ⟨hlen, hkey, -⟩ := h
    exact ⟨hlen, hkey⟩

/-- A started command is to publish a function of its operands of R96 (R117). -/
theorem commandTag_start_congr {i : Instr} {s t : State} (h : SameOperands i s t) :
    (t.start i).commandTag = (s.start i).commandTag := by
  by_cases hi : i = .hash
  · subst hi
    obtain ⟨-, hmsg⟩ := h
    rw [commandTag_hash _ rfl, commandTag_hash _ rfl]
    simp [hmsg]
  · obtain ⟨-, hkey⟩ := h.key hi
    rw [commandTag_keyed _ (op_start_ne_one hi t), commandTag_keyed _ (op_start_ne_one hi s), msel_start_congr hi h]
    simp [hkey]

/-- HASH starts with the steps of its one pass left (R110, R115). -/
theorem stepsLeft_start_hash (s : State) : (s.start .hash).stepsLeft = passSteps (numBlocks s.msgLen.toNat) + 1 := by
  show passSteps (s.start .hash).nb + 1 = _
  rw [nb_plain rfl]
  rfl

/-- A keyed command starts with the steps from KEYSEL left (R110, R115). -/
theorem stepsLeft_start_keyed {i : Instr} (hi : i ≠ .hash) (s : State) :
    (s.start i).stepsLeft = 1 + keyhashSteps s + (s.start i).stepsAfter .keyhash := by
  cases i
  case hash => exact absurd rfl hi
  all_goals rfl

/-- How many steps a started command has left depends on its operands of R96 alone (R115, R117). -/
theorem stepsLeft_start_congr {i : Instr} {s t : State} (h : SameOperands i s t) :
    (t.start i).stepsLeft = (s.start i).stepsLeft := by
  by_cases hi : i = .hash
  · subst hi
    obtain ⟨hlen, -⟩ := h
    rw [stepsLeft_start_hash, stepsLeft_start_hash, hlen]
  · obtain ⟨hlen, -⟩ := h.key hi
    have hotp : (t.start i).isOtp = (s.start i).isOtp := by simp only [State.isOtp, start_operands]
    rw [stepsLeft_start_keyed hi, stepsLeft_start_keyed hi]
    simp only [keyhashSteps, State.stepsAfter, hlen, hotp, msel_start_congr hi h]

/-- A command that passed its checks ends after the steps left at its start, by the FINISH of a state with the engine's
registers on the functions of the operands (R110, R115). -/
theorem endsAfter_start {i : Instr} {s : State} (hp : s.pending = [])
    (hc : checkOf i (clearForAccept (encode i) s) = none) :
    ∃ n, EndsAfter (s.start i).stepsLeft (s.start i) (stepFinish (coreStep^[n] (s.start i))) ∧
      SameResults (s.start i) (coreStep^[n] (s.start i)) ∧ EngineAt (coreStep^[n] (s.start i)) .finish := by
  have hst : StatusInv (s.start i) := statusInv_startOf i (encode i) s
  refine endsAfter_stepsLeft hst (engineInv_start hc) ?_ ?_
  · rw [(start_status i s).1]
    rfl
  · cases i <;> simpa [State.start, startOf] using hp

/-- No started command shows a result (R110, R111). -/
theorem sameResults_start (i : Instr) (s t : State) : SameResults (s.start i) (t.start i) := by
  constructor <;> simp [State.start]

theorem SameResults.trans {s t u : State} (h : SameResults s t) (h' : SameResults t u) : SameResults s u :=
  ⟨h'.status.trans h.status, h'.digest.trans h.digest, h'.trunc.trans h.trunc, h'.code.trans h.code,
    h'.otpStr.trans h.otpStr⟩

theorem SameResults.symm {s t : State} (h : SameResults s t) : SameResults t s :=
  ⟨h.status.symm, h.digest.symm, h.trunc.symm, h.code.symm, h.otpStr.symm⟩

/-- Settles O57: the checks agree (`checkOf_congr`). A check that fails ends the command in the accept step, with the results
cleared; with all passed, both runs take the steps left at the start (`stepsLeft_start_congr`) to a FINISH that publishes the
functions of the same operands (`sameResults_stepFinish`). -/
theorem resultDependsOnTheOperandsAlone : Obligations.ResultDependsOnTheOperandsAlone := by
  intro i s₁ s₂ hb₁ hb₂ hp₁ hp₂ h
  have hcheck := checkOf_congr h
  cases hc : checkOf i (clearForAccept (encode i) s₁) with
  | some e =>
    have hends (u : State) : EndsAfter 0 (raise e (clearForAccept (encode i) u)) (raise e (clearForAccept (encode i) u)) :=
      ⟨runsTo_zero _, by simp [Status.raised, Status.clear], nofun⟩
    refine ⟨0, _, _, _, _, exec_of_check_some hb₁ hc, exec_of_check_some hb₂ (hcheck.trans hc), hends s₁, hends s₂, ?_, ?_⟩
    · simp [Status.raised]
    · constructor <;> simp
  | none =>
    have hc' := hcheck.trans hc
    obtain ⟨n, hends, hres, hat⟩ := endsAfter_start hp₁ hc
    obtain ⟨m, hends', hres', hat'⟩ := endsAfter_start hp₂ hc'
    rw [stepsLeft_start_congr h] at hends'
    refine ⟨_, _, _, _, _, exec_of_check_none hb₁ hc, exec_of_check_none hb₂ hc', hends, hends', ?_, ?_⟩
    · simp [Status.finished]
    · refine sameResults_stepFinish hat hat' ((hres.symm.trans (sameResults_start i s₁ s₂)).trans hres') ?_ ?_ ?_
      · simp only [iterate_coreStep_operands, State.isOtp, start_operands]
      · simp only [iterate_coreStep_operands, start_operands]
      · rw [commandTag_iterate, commandTag_iterate, commandTag_start_congr h]

end Sys2Proof.Machine
end

section
/-! PROOFS. Scope: what the accept step and the core steps write, and what every other step leaves (40_lifecycle.md R110 to
R114, R116). -/

namespace Sys2Proof.Machine

/-! ### The accept step -/

/-- The start of a command writes neither an operand nor a hidden register but SEQ, and CTR for TOTP alone (R110, R112). -/
theorem startOf_keeps (i : Instr) (s : State) :
    InputsKept s (startOf i s) ∧ (CtrKept s (startOf i s) ∨ ∃ d, i = .totp d) ∧
    (startOf i s).h = s.h ∧ (startOf i s).work = s.work ∧ (startOf i s).w = s.w ∧ (startOf i s).k0 = s.k0 ∧
    (startOf i s).idig = s.idig ∧ (startOf i s).tag = s.tag ∧ (startOf i s).toff = s.toff ∧
    (startOf i s).tval = s.tval ∧ (startOf i s).tcode = s.tcode ∧ (startOf i s).tstr = s.tstr := by
  refine ⟨⟨?_, ?_, ?_, ?_, fun a => ?_⟩, ?_, ?_⟩
  case refine_6 =>
    cases i
    case totp d => exact .inr ⟨d, rfl⟩
    all_goals exact .inl ⟨rfl, rfl⟩
  all_goals cases i <;> simp [startOf]

/-- Settles O16: a busy block stays as it is, an error writes STATUS and the results alone, and a start writes those, SEQ
and TOTP's counter (`startOf_keeps`). -/
theorem acceptStepKeepsTheInputs : Obligations.AcceptStepKeepsTheInputs := by
  intro s t i h
  rcases exec_cases h with ⟨-, rfl⟩ | ⟨-, e, -, rfl⟩ | ⟨hb, -, rfl⟩
  · exact ⟨⟨rfl, rfl, rfl, rfl, fun _ => rfl⟩, .inl ⟨rfl, rfl⟩, by simp⟩
  · exact ⟨⟨by simp, by simp, by simp, by simp, by simp⟩, .inl ⟨by simp, by simp⟩, by simp⟩
  · obtain ⟨⟨hk, hm, hhi, hlo, hbytes⟩, hctr, hhidden⟩ := startOf_keeps i (clearForAccept (encode i) s)
    simp only [clearForAccept_fields, CtrKept] at hk hm hhi hlo hbytes hctr hhidden
    exact ⟨⟨hk, hm, hhi, hlo, hbytes⟩, hctr.imp_right fun hi => ⟨hi, hb, by simp [Status.started]⟩, hhidden⟩

/-! ### The sequencer's table -/

/-- Settles O26: each core step writes SEQ as its row of the table says. -/
theorem sequencerFollowsItsTable : Obligations.SequencerFollowsItsTable := by
  intro s hp
  refine ⟨_, step_nil s hp, coreStep_idle s, fun h hl => ?keyselLong, fun h hl => ?keyselShort, fun h => ?init,
    fun h => ?load, fun h ht => ?round, fun h ht => ?lastRound, fun h hb => ?add, fun h hb => ?lastAdd,
    fun h hq => ?plain, fun h hq => ?keyhash, fun h hq => ?inner, fun h hq ho => ?outerOtp, fun h hq ho => ?outerHmac,
    fun h => ?trunc, fun h => ?reduce, fun h => ?render, fun h => ?finish⟩
  case keyselLong => rw [coreStep_keysel s h, stepKeysel, if_pos hl]; simp
  case keyselShort => rw [coreStep_keysel s h, stepKeysel, if_neg (by omega)]; simp
  case init => rw [coreStep_init s h]; simp
  case load => rw [coreStep_load s h]; simp
  case round =>
    have hseq : (coreStep s).seq = s.seq.afterRound := by rw [coreStep_round s h]; simp
    rw [hseq, afterRound_of_lt s.seq s.seq.t.val (by omega) rfl]
    exact ⟨rfl, h, rfl, rfl⟩
  case lastRound => rw [coreStep_round s h, ← afterRound_last s.seq (Fin.ext ht)]; simp
  case add => rw [coreStep_add s h, ← afterAdd_of_lt s.seq s.nb _ rfl hb]; simp
  case lastAdd => rw [coreStep_add s h, ← afterAdd_last s.seq s.nb (not_lt.mpr hb)]; simp
  case plain | keyhash | inner => rw [coreStep_passend s h, stepPassend, hq]; simp
  case outerOtp => rw [coreStep_passend s h, stepPassend, hq]; simp [(isOtp_iff s).mpr ho]
  case outerHmac => rw [coreStep_passend s h, stepPassend, hq]; simp [State.isOtp, ho]
  case trunc => rw [coreStep_trunc s h]; simp
  case reduce => rw [coreStep_reduce s h]; simp
  case render => rw [coreStep_render s h]; simp
  case finish => rw [coreStep_finish s h]; simp [Seq.rest]

/-! ### What writes the results -/

theorem SameResults.keptOrCleared {s t : State} (h : SameResults s t) : ResultsKeptOrCleared s t :=
  ⟨.inl h.digest, .inl h.trunc, .inl h.code, .inl h.otpStr⟩

theorem ResultsKeptOrCleared.refl (s : State) : ResultsKeptOrCleared s s :=
  ⟨.inl rfl, .inl rfl, .inl rfl, .inl rfl⟩

/-- A state without results, whatever it was before. -/
theorem keptOrCleared_of_cleared {s t : State} (hd : t.digest = Vector.replicate 5 0) (ho : OtpCleared t) :
    ResultsKeptOrCleared s t :=
  have ⟨ht, hc, hs⟩ := ho
  ⟨.inr hd, .inr ht, .inr hc, .inr hs⟩

/-- An accept step leaves the results of a busy block and clears those of an idle one (R71, R111). -/
theorem keptOrCleared_exec {i : Instr} {s t : State} (h : exec i s = .next t) : ResultsKeptOrCleared s t := by
  rcases exec_cases h with ⟨-, rfl⟩ | ⟨-, e, -, rfl⟩ | ⟨-, -, rfl⟩
  · exact .refl t
  · exact keptOrCleared_of_cleared (by simp) (by simp [OtpCleared])
  · exact keptOrCleared_of_cleared (by simp) (by simp [OtpCleared])

/-- The accept step of any word clears the results of an idle block (R94, R111). -/
theorem keptOrCleared_writeCmd {v : Word} {s t : State} (hb : s.status.busy = false) (h : writeCmd v s = .next t) :
    ResultsKeptOrCleared s t := by
  unfold writeCmd at h
  split at h
  · exact keptOrCleared_exec h
  · obtain rfl := Host.Outcome.next.inj h
    have hraise : acceptIllegal v s = raise .illegalCmd (clearForAccept v s) :=
      accept_error _ _ _ _ .illegalCmd hb rfl
    exact keptOrCleared_of_cleared (by simp [hraise]) (by simp [hraise, OtpCleared])

/-- A host write writes no result but to clear it, in the accept step (R64, R71, R72, R111). -/
theorem keptOrCleared_hostWrite {a : WordIndex} {v : Word} {s t : State} (h : hostWrite a v s = .next t) :
    ResultsKeptOrCleared s t := by
  cases hb : s.status.busy with
  | true =>
    obtain rfl := Host.Outcome.next.inj ((hostWrite_of_busy a v s hb).symm.trans h)
    exact .refl s
  | false =>
    cases ht : target a with
    | reserved =>
      obtain rfl := Host.Outcome.next.inj ((hostWrite_of_reserved ht v s).symm.trans h)
      exact .refl s
    | buffer offset =>
      obtain rfl := Host.Outcome.next.inj ((hostWrite_buffer_of_idle ht v hb).symm.trans h)
      exact SameResults.keptOrCleared ⟨rfl, rfl, rfl, rfl, rfl⟩
    | reg r =>
      by_cases hr : r = .cmd
      · obtain rfl := target_eq_cmd a (hr ▸ ht)
        exact keptOrCleared_writeCmd hb (hostWrite_cmd_of_idle v s hb ▸ h)
      · obtain rfl := Host.Outcome.next.inj ((hostWrite_reg_of_idle ht hr v hb).symm.trans h)
        exact SameResults.keptOrCleared ⟨by simp, by simp, by simp, by simp, by simp⟩

/-- When the next step is the core's own, it is (R113; log 1, log 10). -/
theorem step_of_coreStepNext {s : State} (h : CoreStepNext s) :
    ∃ pe, step s = .next ((coreStep s).envTo s.tOk s.tSec s.rdata pe) := by
  have henv (pe : List Event) : { coreStep s with pending := pe } = (coreStep s).envTo s.tOk s.tSec s.rdata pe := by
    simp only [State.envTo, coreStep_frame]
  rcases h with hnone | hquiet | ⟨hwait, hb⟩
  · refine ⟨s.pending, ?_⟩
    rw [← henv, step_nil s (List.head?_eq_none_iff.mp hnone)]
    simp only [← coreStep_pending]
  · obtain ⟨rest, hp⟩ := List.head?_eq_some_iff.mp hquiet
    refine ⟨rest, ?_⟩
    rw [← henv, ← coreStep_pending]
    simp only [step, hp, runEvent]
  · obtain ⟨rest, hp⟩ := List.head?_eq_some_iff.mp hwait
    refine ⟨.wait :: rest, ?_⟩
    simp only [← henv, step, hp, runEvent, hb, if_true, coreStep_pending]

/-- A step that is not the core's own writes no result but to clear it. -/
theorem keptOrCleared_of_not_coreStepNext {s t : State} (hn : ¬ CoreStepNext s) (h : step s = .next t) :
    ResultsKeptOrCleared s t := by
  cases hp : s.pending with
  | nil => exact absurd (.inl (by rw [hp]; rfl)) hn
  | cons e rest =>
    simp only [step, hp] at h
    have hhead : s.pending.head? = some e := by rw [hp]; rfl
    cases e <;> simp only [runEvent] at h
    case write a v =>
      obtain ⟨hd, ht, hc, ho⟩ := keptOrCleared_hostWrite h
      exact ⟨hd, ht, hc, ho⟩
    case quiet => exact absurd (.inr (.inl hhead)) hn
    case wait =>
      split at h
      case isTrue hb => exact absurd (.inr (.inr ⟨hhead, hb⟩)) hn
      case isFalse =>
        obtain rfl := Host.Outcome.next.inj h
        exact SameResults.keptOrCleared ⟨rfl, rfl, rfl, rfl, rfl⟩
    case reset =>
      obtain rfl := Host.Outcome.next.inj h
      exact keptOrCleared_of_cleared rfl ⟨rfl, rfl, rfl⟩
    case read | clock =>
      obtain rfl := Host.Outcome.next.inj h
      exact SameResults.keptOrCleared ⟨rfl, rfl, rfl, rfl, rfl⟩

/-- A core step other than FINISH leaves what the host sees (R112, R114). -/
theorem sameVisible_coreStep {s : State} (hf : s.seq.phase ≠ .finish) : SameVisible s (coreStep s) := by
  obtain ⟨hst, hd, ht, hc, ho, -⟩ := coreStep_notFinish s hf
  refine ⟨fun r => ?_, fun a => by simp⟩
  cases r <;> simp [readReg, hst, hd, ht, hc, ho]

/-- Settles O36: FINISH writes the registers its rule names (`stepFinish_fields`); a core step other than FINISH shows the host
nothing (`sameVisible_coreStep`); and every other step keeps or clears the results (`keptOrCleared_of_not_coreStepNext`). -/
theorem finishStepPublishes : Obligations.FinishStepPublishes := by
  refine ⟨fun s t h => ?writes, fun s hn hf => ?shows, fun s hp hf => ⟨_, step_nil s hp, ?publishes⟩⟩
  case writes =>
    by_cases hn : CoreStepNext s
    · by_cases hf : s.seq.phase = .finish
      · exact .inr ⟨hn, hf⟩
      · obtain ⟨pe, hstep⟩ := step_of_coreStepNext hn
        obtain rfl := Host.Outcome.next.inj (hstep.symm.trans h)
        obtain ⟨hst, hd, ht, hc, ho, -⟩ := coreStep_notFinish s hf
        exact .inl (SameResults.keptOrCleared ⟨hst, hd, ht, hc, ho⟩)
    · exact .inl (keptOrCleared_of_not_coreStepNext hn h)
  case shows =>
    obtain ⟨pe, hstep⟩ := step_of_coreStepNext hn
    obtain ⟨hregs, hbytes⟩ := sameVisible_coreStep hf
    exact ⟨_, hstep, fun r => by rw [← hregs r]; cases r <;> rfl, hbytes⟩
  case publishes =>
    rw [coreStep_finish s hf]
    refine ⟨fun hst => ?word, fun i => by simp [digestWords], fun hop => ?otp, fun hop => ?other, ?frame⟩
    case word =>
      have hstart : s.status = Status.clear.started := eq_started_of_busy _ hst.values (hst.busy_iff.mpr (by simp [hf]))
      simp only [stepFinish_fields, hstart, ← isOtp_iff]
      cases s.isOtp <;> decide
    case otp => simp [(isOtp_iff s).mpr hop, stringWords, Status.finished]
    case other =>
      have hotp : s.isOtp = false := by simpa [State.isOtp] using hop
      simp [hotp, Status.finished]
    case frame => rfl

/-! ### Idle -/

/-- Settles O50: at rest the core's step does nothing, and of the host's writes only that of CMD touches CMD, STATUS or a
result. -/
theorem resultsHoldUntilTheNextAccept : Obligations.ResultsHoldUntilTheNextAccept := by
  intro s t hs hb hr hw h
  rcases step_cases h with ⟨ok, sec, rd, pe, rfl⟩ | ⟨pe, rfl⟩ | ⟨pe, hreset, -⟩ | ⟨-, r, v, pe, rfl⟩ |
    ⟨-, a, off, v, pe, -, rfl⟩ | ⟨-, v, pe, hp, -⟩
  · exact ⟨rfl, rfl, rfl, rfl, rfl, rfl⟩
  · rw [coreStep_idle s (hs.idle hb)]
    exact ⟨rfl, rfl, rfl, rfl, rfl, rfl⟩
  · exact absurd hreset hr
  · exact ⟨by simp, by simp, by simp, by simp, by simp, by simp⟩
  · exact ⟨rfl, rfl, rfl, rfl, rfl, rfl⟩
  · exact absurd (by rw [hp]; rfl) (hw v)

end Sys2Proof.Machine
end

section
/-! PROOFS. Scope: the command HASH, the function SHA1 and the core steps of a pass (41_sha1.md R125 to R141; 42_hmac.md
R162 to R164; 40_lifecycle.md R110 to R115). -/

namespace Sys2Proof.Machine

/-! ### A command, from its accept step to its published result -/

/-- The start of a command leaves the cleared state with BUSY alone in STATUS and SEQ at the command's first phase (R110). -/
theorem begin_clearForAccept (word : Word) (phase : Phase) (s : State) :
    begin phase (clearForAccept word s) = startedState word phase s := rfl

/-- HASH passes its check when the message fits its buffer (R141). -/
theorem checkOf_hash_eq_none {s : State} (hm : s.msgLen.toNat ≤ 1024) :
    checkOf .hash (clearForAccept (encode .hash) s) = none :=
  (checkOf_eq_none .hash _).mpr (by simpa using hm)

/-- No run of core steps writes CMD, a length, STEP, CTR or a buffer byte (R112). -/
theorem iterate_coreStep_frame (n : Nat) (s : State) :
    (coreStep^[n] s).cmd = s.cmd ∧ InputsKept s (coreStep^[n] s) ∧ CtrKept s (coreStep^[n] s) := by
  refine ⟨?_, ⟨?_, ?_, ?_, ?_, fun a => ?_⟩, ?_, ?_⟩
  case refine_6 => exact iterate_coreStep_keeps (fun u => memGet u.mem a) (by simp) n s
  all_goals exact iterate_coreStep_keeps _ (by simp) n s

/-- Where a started command ends by FINISH, CMD holds its word, SEQ is at rest, and the inputs are those the command was
written with; CTR is the one it started with (R112, R114). -/
theorem stepFinish_start_frame (i : Instr) (s : State) (n : Nat) :
    (stepFinish (coreStep^[n] (s.start i))).cmd = encode i ∧ (stepFinish (coreStep^[n] (s.start i))).seq = Seq.rest ∧
    InputsKept s (stepFinish (coreStep^[n] (s.start i))) ∧
    CtrKept (s.start i) (stepFinish (coreStep^[n] (s.start i))) := by
  obtain ⟨⟨hkey, hmsg, hhi, hlo, hbytes⟩, -⟩ := startOf_keeps i (clearForAccept (encode i) s)
  obtain ⟨hcmd', ⟨hkey', hmsg', hhi', hlo', hbytes'⟩, hctr⟩ := iterate_coreStep_frame n (s.start i)
  simp only [clearForAccept_fields] at hkey hmsg hhi hlo hbytes
  refine ⟨?_, ?_, ⟨hkey'.trans hkey, hmsg'.trans hmsg, hhi'.trans hhi, hlo'.trans hlo,
    fun a => (hbytes' a).trans (hbytes a)⟩, hctr⟩
  · exact hcmd'.trans (by simp [State.start])
  · simp

/-- Settles O52: HASH starts with the counted steps left (`stepsLeft_start_hash`), and its FINISH finds the engine's registers
on SHA1 of the message (`endsAfter_start`). -/
theorem hashPublishesTheDigestOfTheMessage : Obligations.HashPublishesTheDigestOfTheMessage := by
  intro s hb hp hm
  have hcheck := checkOf_hash_eq_none hm
  obtain ⟨hstart, hcleared⟩ := start_status .hash s
  obtain ⟨n, hends, ⟨hstatus, -, htrunc, hcode, hstr⟩, hat⟩ := endsAfter_start hp hcheck
  rw [stepsLeft_start_hash] at hends
  obtain ⟨hcmd, hseq, hinputs, hctr⟩ := stepFinish_start_frame .hash s n
  have hcl : OtpCleared (coreStep^[n] (s.start .hash)) := by rwa [OtpCleared, htrunc, hcode, hstr]
  have hop : (coreStep^[n] (s.start .hash)).op = 1 := by
    simp only [iterate_coreStep_operands]
    rfl
  have hpub := digestPublished_stepFinish (hstatus.trans hstart) hcl hat hop
  simp only [iterate_coreStep_operands, start_operands] at hpub
  refine ⟨_, _, exec_of_check_none hb hcheck, ?_, hends, hpub, hcmd, hseq, hinputs, hctr⟩
  rw [hstart]
  decide

/-- Settles O8: the check passes, and the start is `startedState` (`begin_clearForAccept`). -/
theorem hashStartsThePlainPass : Obligations.HashStartsThePlainPass := by
  intro s hb hm
  rw [exec_of_check_none hb (checkOf_hash_eq_none hm), State.start]
  exact congrArg Host.Outcome.next (begin_clearForAccept _ _ s)

/-! ### The message schedule -/

/-- Later schedule words leave the earlier ones (R129). -/
theorem getD_expand_of_lt (m : List Word) {n k i : Nat} (hnk : n ≤ k) (hi : i < m.length + n) :
    (expand m k).getD i 0 = (expand m n).getD i 0 := by
  induction k, hnk using Nat.le_induction with
  | base => rfl
  | succ k hnk ih => rw [expand, List.getD_append _ _ _ _ (by rw [length_expand]; omega), ih]

/-- Schedule word 16 + n is the rotated XOR of the four the recurrence names (R129). -/
theorem getD_expand_succ (m : List Word) (hm : m.length = 16) (n : Nat) :
    (expand m (n + 1)).getD (n + 16) 0 =
      rotl ((expand m n).getD (n + 13) 0 ^^^ (expand m n).getD (n + 8) 0 ^^^ (expand m n).getD (n + 2) 0
        ^^^ (expand m n).getD n 0) 1 := by
  have hlen : (expand m n).length = n + 16 := by rw [length_expand, hm, Nat.add_comm]
  rw [expand, List.getD_append_right _ _ _ _ hlen.le, hlen, Nat.sub_self, List.getD_cons_zero,
    show 16 + n - 3 = n + 13 by omega, show 16 + n - 8 = n + 8 by omega, show 16 + n - 14 = n + 2 by omega,
    show 16 + n - 16 = n by omega]

theorem getElem_schedule (m : Vector Word 16) {t : Nat} (ht : t < 80) :
    (schedule m)[t] = (expand m.toList 64).getD t 0 := by
  rw [List.getD_eq_getElem _ _ (by simpa [length_expand] using ht)]
  simp only [schedule, Vector.getElem_mk, List.getElem_toArray]

/-- The first sixteen schedule words are the block's (R129). -/
theorem getElem_schedule_block (m : Vector Word 16) {i : Nat} (hi : i < 16) : (schedule m)[i] = m[i] := by
  rw [getElem_schedule, getD_expand_of_lt m.toList (Nat.zero_le 64) (by simpa using hi), expand]
  simp [hi]

/-- The other schedule words follow the recurrence (R129). -/
theorem getElem_schedule_recurrence (m : Vector Word 16) {k : Nat} (hk : k < 64) :
    (schedule m)[k + 16] =
      ((schedule m)[k + 13] ^^^ (schedule m)[k + 8] ^^^ (schedule m)[k + 2] ^^^ (schedule m)[k]).rotateLeft 1 := by
  have hlen : m.toList.length = 16 := by simp
  have hearlier {i : Nat} (hi : i < k + 16) : (expand m.toList 64).getD i 0 = (expand m.toList k).getD i 0 :=
    getD_expand_of_lt _ hk.le (by omega)
  simp only [getElem_schedule]
  rw [getD_expand_of_lt _ (Nat.succ_le_of_lt hk) (by omega), getD_expand_succ _ hlen, rotl_eq_rotateLeft _ _ (by decide),
    hearlier (by omega), hearlier (by omega), hearlier (by omega), hearlier (by omega)]

/-! ### The core steps of a pass -/

/-- Settles O28: the core's step at INIT is `stepInit`. -/
theorem initStepSetsTheInitialValue : Obligations.InitStepSetsTheInitialValue := by
  intro s hp hinit
  rw [step_nil s hp, coreStep_init s hinit, stepInit]

/-- Settles O29: the core's step at LOAD is `stepLoad`, and the schedule starts with the block's words and follows the
recurrence (`getElem_schedule_block`, `getElem_schedule_recurrence`). -/
theorem loadStepBuildsTheSchedule : Obligations.LoadStepBuildsTheSchedule := by
  intro s hp hload
  refine ⟨schedule (blockWords s.padded s.seq.blk), ?step, fun i => ?block, fun k => getElem_schedule_recurrence _ k.isLt⟩
  case step => rw [step_nil s hp, coreStep_load s hload, stepLoad, workOf]
  case block => rw [getElem_schedule_block _ i.isLt, blockWords, Vector.getElem_ofFn, be32At]

/-- Settles O30: the stage is `t / 20`. -/
theorem stagesSelectFunctionAndConstant : Obligations.StagesSelectFunctionAndConstant := by
  intro t b c d
  refine ⟨fun h => ?choose, fun h h' => ?parity, fun h h' => ?majority, fun h h' => ?parity'⟩
  case choose => simp only [roundFn, roundConst, show t / 20 = 0 by omega, and_self]
  case parity => simp only [roundFn, roundConst, show t / 20 = 1 by omega, and_self]
  case majority => simp only [roundFn, roundConst, show t / 20 = 2 by omega, and_self]
  case parity' => simp only [roundFn, roundConst, show t / 20 = 3 by omega, and_self]

/-- Settles O31: the core's step at ROUND is one round with the registers' old values, and T counts up to 79
(`afterRound_of_lt`, `afterRound_last`). -/
theorem roundStepUpdatesTheWorkingRegisters : Obligations.RoundStepUpdatesTheWorkingRegisters := by
  intro s hp hround
  obtain ⟨hpass, hblk⟩ := afterRound_pass_blk s.seq
  refine ⟨s.seq.afterRound, ?step, hpass, hblk, fun ht => ?next, fun ht => ?last⟩
  case step =>
    rw [step_nil s hp, coreStep_round s hround, stepRound, oneRound, rotl_eq_rotateLeft _ _ (by decide),
      rotl_eq_rotateLeft _ _ (by decide)]
    rfl
  case next =>
    rw [afterRound_of_lt s.seq s.seq.t.val (by omega) rfl]
    exact ⟨hround, rfl⟩
  case last =>
    rw [afterRound_last s.seq (Fin.ext ht)]
    exact ⟨rfl, rfl⟩

/-- The working registers after a block's rounds, added into H, make the next chaining state (R134, R139). -/
theorem addWork_eq_chain {s : State} (h : EngineAt s .add) : addWork s.h s.work = chain s.padded (s.seq.blk + 1) := by
  obtain ⟨-, -, hh, hwork⟩ := h
  rw [chain_succ, compress, hwork, hh]

/-- Settles O32: the core's step at ADD is `stepAdd`, which under the engine invariant completes the block
(`addWork_eq_chain`). -/
theorem addStepFoldsTheBlock : Obligations.AddStepFoldsTheBlock := by
  intro s hp hadd
  have hstep : step s = .next (stepAdd s) := by rw [step_nil s hp, coreStep_add s hadd]
  refine ⟨s.seq.afterAdd s.nb, hstep, fun hlt => afterAdd_of_lt s.seq s.nb _ rfl hlt,
    fun hle => afterAdd_last s.seq s.nb (not_lt.mpr hle), fun he t ht => ?chain⟩
  case chain =>
    have hat : EngineAt s .add := hadd ▸ he.engine
    obtain rfl := Host.Outcome.next.inj (hstep.symm.trans ht)
    exact addWork_eq_chain hat

/-- Settles O33: each PASSEND stores D20 of H (`toList_d20`) in its register, and under the engine invariant that of the
KEYHASH pass then holds the normalised key (`engineAt_stepPassendKeyhash`). -/
theorem passendStoresTheDigest : Obligations.PassendStoresTheDigest := by
  intro s hp hend
  have hstep : step s = .next (stepPassend s) := by rw [step_nil s hp, coreStep_passend s hend]
  refine ⟨d20 s.h, toList_d20 s.h, fun hq => ?plain,
    fun hq => ⟨fill64 (d20 s.h).toList, ?fill, ?keyhash, fun he => ?normKey⟩,
    fun hq => ?inner, fun hq hop => ?outerOtp, fun hq hop => ?outerHmac⟩
  case plain => rw [hstep, stepPassend, hq, stepPassendPlain]
  case fill => rw [toList_fill64 _ (by simp), Vector.length_toList]
  case keyhash => rw [hstep, stepPassend, hq, stepPassendKeyhash]
  case normKey =>
    have hready : PassReady (stepPassendKeyhash s) := engineAt_stepPassendKeyhash hq (hend ▸ he.engine)
    obtain ⟨-, hk0⟩ := (passReady_inner _ (by simp)).mp hready
    simpa using hk0
  case inner => rw [hstep, stepPassend, hq, stepPassendInner]
  case outerOtp => rw [hstep, stepPassend, hq, stepPassendOuter, if_pos ((isOtp_iff s).mpr hop)]
  case outerHmac =>
    have hotp : ¬ s.isOtp = true := by simp [isOtp_iff, hop]
    rw [hstep, stepPassend, hq, stepPassendOuter, if_neg hotp]

/-! ### The padded stream and the chain -/

/-- Below 2^61 bytes the length field is the bit length as eight bytes, most significant first (R127). -/
theorem toNat_getD_lengthField {len : Nat} (hlen : len < 2 ^ 61) {i : Nat} (hi : i < 8) :
    ((lengthField len).getD i 0).toNat = 8 * len / 2 ^ (8 * (7 - i)) % 256 := by
  rw [lengthField, if_pos hlen]
  simp [bytesBE, List.getD, hi]

/-- The padded stream, but for its length field (R127). -/
theorem pad_eq_append (s : List Byte) :
    ∃ z, pad s = s ++ 0x80 :: zeros z ++ lengthField s.length ∧ (s ++ 0x80 :: zeros z).length = (pad s).length - 8 :=
  ⟨_, rfl, by simp [pad, ← Nat.add_assoc]⟩

/-- Settles O37: `pad` is the stream, 0x80, zero bytes and the length field, of whole blocks in all (`length_pad`). -/
theorem paddedStreamHasItsLayout : Obligations.PaddedStreamHasItsLayout := by
  intro s hs
  obtain ⟨z, hpad, hlen⟩ := pad_eq_append s
  have hfront {j : Nat} (hj : j < (s ++ 0x80 :: zeros z).length) :
      (pad s).getD j 0 = (s ++ 0x80 :: zeros z).getD j 0 := by rw [hpad, List.getD_append _ _ _ _ hj]
  refine ⟨length_pad s, fun j hj => ?stream, ?mark, fun j hlo hhi => ?zero, fun i hi => ?length⟩
  case stream =>
    rw [hfront (by rw [List.length_append]; omega), List.getD_append _ _ _ _ hj]
  case mark =>
    rw [hfront (by simp), List.getD_append_right _ _ _ _ le_rfl, Nat.sub_self, List.getD_cons_zero]
  case zero =>
    obtain ⟨k, rfl⟩ : ∃ k, j = s.length + (k + 1) := ⟨j - s.length - 1, by omega⟩
    rw [hfront (by omega), List.getD_append_right _ _ _ _ (by omega), Nat.add_sub_cancel_left, List.getD_cons_succ,
      zeros, List.getD_eq_getElem?_getD]
    exact List.getElem?_getD_replicate_default_eq _ z k
  case length =>
    rw [← hlen, hpad, List.getD_append_right _ _ _ _ (by omega), Nat.add_sub_cancel_left]
    exact toNat_getD_lengthField hs hi

/-- A word of the chaining state after a compression (R133). -/
theorem getElem_addWork (h : Vector Word 5) (r : Work) (i : Fin 5) :
    (addWork h r)[i] = h[i] + #v[r.a, r.b, r.c, r.d, r.e][i] := by
  fin_cases i <;> rfl

/-- Settles O38: each block is one compression (`chain_succ`), and the digest's bytes are those of the last chaining state
(`digestWords_d20`). -/
theorem sha1ChainsTheBlocks : Obligations.Sha1ChainsTheBlocks := by
  refine ⟨fun p => ?start, fun p b i => ?block, fun s => ?digest⟩
  case start => rw [chain, iv]
  case block => rw [chain_succ, compress, getElem_addWork]
  case digest => rw [sha1, digestWords_d20, numBlocks]

end Sys2Proof.Machine
end

section
/-! PROOFS. Scope: the HMAC construction, the command HMAC, KEYSEL and the streams of the passes (42_hmac.md R156 to R167;
41_sha1.md R135; 43_otp.md R175). -/

namespace Sys2Proof.Machine

/-! ### The command HMAC -/

/-- HMAC passes its check when key and message fit their buffers (R165). -/
theorem checkOf_hmac_eq_none {s : State} (hk : s.keyLen.toNat ≤ 256) (hm : s.msgLen.toNat ≤ 1024) :
    checkOf .hmac (clearForAccept (encode .hmac) s) = none :=
  (checkOf_eq_none .hmac _).mpr (by simpa using ⟨hk, hm⟩)

/-- HMAC starts with the steps of KEYSEL, its two or three passes and FINISH left (R115). -/
theorem stepsLeft_start_hmac (s : State) : (s.start .hmac).stepsLeft = hmacSteps s := by
  have hmsel : (s.start .hmac).msel = s.msg := rfl
  have hotp : (s.start .hmac).isOtp = false := rfl
  rw [stepsLeft_start_keyed (by decide), State.stepsAfter, hmsel, hotp, length_msg, hmacSteps]
  simp only [Bool.false_eq_true, if_false, Nat.add_assoc]

/-- A command that passed its checks ends after the steps left at its start, by the FINISH of a state with BUSY alone in STATUS,
no OTP results, and the engine's registers on the functions of the operands (R110, R114, R115). -/
theorem finishes_of_check_none {i : Instr} {s : State} (hp : s.pending = [])
    (hc : checkOf i (clearForAccept (encode i) s) = none) :
    ∃ n, EndsAfter (s.start i).stepsLeft (s.start i) (stepFinish (coreStep^[n] (s.start i))) ∧
      (coreStep^[n] (s.start i)).status = Status.clear.started ∧ OtpCleared (coreStep^[n] (s.start i)) ∧
      EngineAt (coreStep^[n] (s.start i)) .finish := by
  obtain ⟨hstart, hcleared⟩ := start_status i s
  obtain ⟨n, hends, ⟨hstatus, -, htrunc, hcode, hstr⟩, hat⟩ := endsAfter_start hp hc
  exact ⟨n, hends, hstatus.trans hstart, by rwa [OtpCleared, htrunc, hcode, hstr], hat⟩

/-- Settles O53: HMAC starts with the counted steps left (`stepsLeft_start_hmac`), and its FINISH finds the engine's registers
on HMAC of key and message (`finishes_of_check_none`) and publishes it (`tagPublished_stepFinish`). -/
theorem hmacPublishesTheTag : Obligations.HmacPublishesTheTag := by
  intro s hb hp hk hm
  have hcheck := checkOf_hmac_eq_none hk hm
  obtain ⟨n, hends, hstatus, hcleared, hat⟩ := finishes_of_check_none hp hcheck
  rw [stepsLeft_start_hmac] at hends
  obtain ⟨hcmd, hseq, hinputs, hctr⟩ := stepFinish_start_frame .hmac s n
  have hop : (coreStep^[n] (s.start .hmac)).op = 2 := by
    simp only [iterate_coreStep_operands]
    rfl
  have hpub := tagPublished_stepFinish hstatus hcleared hat hop
  simp only [iterate_coreStep_operands, start_operands] at hpub
  refine ⟨_, _, exec_of_check_none hb hcheck, ?_, hends, hpub, hcmd, hseq, hinputs, hctr⟩
  rw [(start_status .hmac s).1]
  decide

/-- Settles O9: the check passes, and the start is `startedState` (`begin_clearForAccept`). -/
theorem hmacStartsAtKeysel : Obligations.HmacStartsAtKeysel := by
  intro s hb hk hm
  rw [exec_of_check_none hb (checkOf_hmac_eq_none hk hm), State.start]
  exact congrArg Host.Outcome.next (begin_clearForAccept _ _ s)

/-! ### The bytes of a read and of the serialised counter -/

/-- Position j of a read is the byte at the j-th offset, and past its end 0x00 (R66). -/
theorem getD_memRead (m : List Host.Cell) (a n j : Nat) :
    (memRead m a n).getD j 0 = if j < n then memGet m (a + j) else 0 := by
  by_cases h : j < n <;> simp [memRead, List.getD, h]

/-- The serialised counter's first four bytes are those of its upper word, its last four those of its lower word, each most
significant first (R25, R175). -/
theorem CounterBytes.words {c : List Byte} {hi lo : Word} (h : CounterBytes c (hi.toNat * 2 ^ 32 + lo.toNat)) {i : Nat}
    (hi4 : i < 4) :
    (c.getD i 0).toNat = hi.toNat / 2 ^ (8 * (3 - i)) % 256 ∧
      (c.getD (4 + i) 0).toNat = lo.toNat / 2 ^ (8 * (3 - i)) % 256 := by
  obtain ⟨-, hbyte⟩ := h
  have hlo := lo.isLt
  rw [hbyte i (by omega), hbyte (4 + i) (by omega)]
  interval_cases i <;> omega

/-- Settles O58: the stream is the one its pass selects (R135, R160), the counter's bytes are those of its two words
(`counterBytes_ctrBytes`, `CounterBytes.words`), and a read's are `getD_memRead`. -/
theorem passStreamsFollowTheirTable : Obligations.PassStreamsFollowTheirTable := by
  intro s
  refine ⟨fun hq => ?plain, fun hq => ?keyhash, fun hq hop => ?innerHmac, fun hq hop => ?innerOtp, fun hq => ?outer,
    fun a n => ⟨length_memRead _ a n, fun j hj => by rw [getD_memRead, if_pos hj]⟩⟩
  case plain => rw [State.stream, hq]; rfl
  case keyhash => rw [State.stream, hq]; rfl
  case innerHmac => rw [State.stream, hq, State.msel, if_pos hop]; rfl
  case innerOtp =>
    have hop2 : s.op ≠ 2 := by rcases hop with h | h <;> simp [h]
    have hbytes : CounterBytes (ctrBytes s.ctr) (s.ctrHi.toNat * 2 ^ 32 + s.ctrLo.toNat) :=
      toNat_ctr s ▸ counterBytes_ctrBytes s.ctr
    refine ⟨_, hbytes, ?_, fun i hi => hbytes.words hi⟩
    rw [State.stream, hq, State.msel, if_neg hop2]
    rfl
  case outer => rw [State.stream, hq]; rfl

/-! ### KEYSEL -/

/-- Byte j of a zero-filled sequence is its own byte j, or 0x00 past its end (R161). -/
theorem getElem_fill64 (x : List Byte) {j : Nat} (hj : j < 64) : (fill64 x)[j] = x.getD j 0 := by
  rw [fill64, Vector.getElem_ofFn]

/-- Settles O27: the core's step at KEYSEL is `stepKeyselLong` or `stepKeyselShort` by the key's length, and the short key's
bytes and zeros are those of `fill64`. -/
theorem keyselSelectsAndFillsTheKey : Obligations.KeyselSelectsAndFillsTheKey := by
  intro s hp hkeysel
  have hstep : step s = .next (stepKeysel s) := by rw [step_nil s hp, coreStep_keysel s hkeysel]
  refine ⟨fun hlong => ?long, fun hshort => ⟨fill64 s.key, ?short, fun j => ?byte⟩⟩
  case long => rw [hstep, stepKeysel, if_pos hlong, stepKeyselLong]
  case short => rw [hstep, stepKeysel, if_neg (by omega), stepKeyselShort]
  case byte => exact (getElem_fill64 s.key j.isLt).trans (getD_memRead s.mem keyBase _ _)

/-! ### The normalised key and the tag -/

/-- A key not longer than the block is used as it is, followed by zeros (R156). -/
theorem normKey_of_le {blockSize : Nat} {key : List Byte} (h : key.length ≤ blockSize) :
    normKey blockSize key = some (key ++ zeros (blockSize - key.length)) := by rw [normKey, if_pos h]

/-- A key longer than the block is hashed first (R156). -/
theorem normKey_of_lt {blockSize : Nat} {key : List Byte} (hb : 20 ≤ blockSize) (h : blockSize < key.length) :
    normKey blockSize key = some ((sha1 key).toList ++ zeros (blockSize - 20)) := by
  rw [normKey, if_neg (by omega), if_pos hb]

/-- A normalised key is exactly as long as the block (R156). -/
theorem length_of_normKey {blockSize : Nat} {key nk : List Byte} (h : normKey blockSize key = some nk) :
    nk.length = blockSize := by
  by_cases hle : key.length ≤ blockSize
  · obtain rfl := Option.some.inj ((normKey_of_le hle).symm.trans h)
    simp [hle]
  · by_cases hb : 20 ≤ blockSize
    · obtain rfl := Option.some.inj ((normKey_of_lt hb (by omega)).symm.trans h)
      simp [hb]
    · simp [normKey, hle, hb] at h

/-- At block size 64 every key has a normalised key, the one K0 is to hold (R156, R161, R162). -/
theorem normKey_eq_normKey64 (key : List Byte) : normKey 64 key = some (normKey64 key).toList := by
  by_cases h : key.length ≤ 64
  · rw [normKey_of_le h, normKey64, if_neg (by omega), toList_fill64 _ h]
  · rw [normKey_of_lt (by decide) (by omega), normKey64, if_pos (by omega), toList_fill64 _ (by simp),
      Vector.length_toList]

/-- Settles O39: each case of R156, its length and what K0 holds. -/
theorem normalisedKeyHasBlockSize : Obligations.NormalisedKeyHasBlockSize :=
  ⟨fun _ _ => normKey_of_lt, fun _ _ => normKey_of_le, fun _ _ _ => length_of_normKey, normKey_eq_normKey64⟩

/-- Settles O40: HMAC of a normalised key is the nested hash of R158, and at block size 64 what the machine computes
(`hmac_eq_hmac64`). -/
theorem hmacNestsTwoHashes : Obligations.HmacNestsTwoHashes := by
  refine ⟨fun blockSize key msg nk hnk => ?nested, hmac_eq_hmac64⟩
  rw [hmac, hnk, Option.map_some, hmacOfNormKey]
  rfl

/-- Zero bytes after a short key are the zeros its normalisation appends (R156, R167). -/
theorem normKey64_append_zeros {key : List Byte} {n : Nat} (h : key.length + n ≤ 64) :
    normKey64 (key ++ zeros n) = normKey64 key := by
  have hlen : (key ++ zeros n).length ≤ 64 := by simpa using h
  rw [normKey64, normKey64, if_neg (by omega), if_neg (by omega), ← Vector.toList_inj, toList_fill64 _ hlen,
    toList_fill64 _ (by omega), List.append_assoc, zeros, zeros, zeros, List.replicate_append_replicate,
    List.length_append, List.length_replicate, show n + (64 - (key.length + n)) = 64 - key.length by omega]

/-- Settles O41: the normalised keys agree (`normKey64_append_zeros`), and the tag is a function of the normalised key. -/
theorem zeroExtendedKeysAreEquivalent : Obligations.ZeroExtendedKeysAreEquivalent := by
  intro key msg n h
  constructor
  · rw [normKey_eq_normKey64, normKey_eq_normKey64, normKey64_append_zeros h]
  · rw [hmac64, hmac64, normKey64_append_zeros h]

end Sys2Proof.Machine
end

section
/-! PROOFS. Scope: the OTP derivation, its core steps, and the commands HOTP and TOTP (43_otp.md R175 to R188; 40_lifecycle.md
R110 to R115). -/

namespace Sys2Proof.Machine

/-! ### The accept steps of HOTP and TOTP -/

/-- HOTP passes its check with a legal digit count and a secret that fits its buffer (R185). -/
theorem checkOf_hotp_eq_none {s : State} {d : BitVec 4} (hd : 1 ≤ d.toNat ∧ d.toNat ≤ 9) (hk : s.keyLen.toNat ≤ 256) :
    checkOf (.hotp d) (clearForAccept (encode (.hotp d)) s) = none :=
  (checkOf_eq_none (.hotp d) _).mpr ⟨hd, by simpa using hk⟩

/-- TOTP passes its check with a step length and a good clock besides (R186). -/
theorem checkOf_totp_eq_none {s : State} {d : BitVec 4} (hd : 1 ≤ d.toNat ∧ d.toNat ≤ 9) (hk : s.keyLen.toNat ≤ 256)
    (hne : s.stepHi ≠ 0 ∨ s.stepLo ≠ 0) (hok : s.tOk = true) (hsec : s.tSec.msb = false) :
    checkOf (.totp d) (clearForAccept (encode (.totp d)) s) = none :=
  (checkOf_eq_none (.totp d) _).mpr (by simpa using ⟨hd, hk, hne, hok, hsec⟩)

/-- `STEP = STEP_HI * 2^32 + STEP_LO` (R26). -/
theorem toNat_step64 (s : State) : s.step64.toNat = s.stepHi.toNat * 2 ^ 32 + s.stepLo.toNat := by
  rw [State.step64, BitVec.toNat_append, ← Nat.shiftLeft_add_eq_or_of_lt s.stepLo.isLt, Nat.shiftLeft_eq]

/-- STEP is not zero when one of its words is not (R26, R208). -/
theorem stepWord_ne_zero {s : State} (h : s.step64 ≠ 0) : s.stepHi ≠ 0 ∨ s.stepLo ≠ 0 := by
  by_contra hzero
  obtain ⟨hhi, hlo⟩ : s.stepHi = 0 ∧ s.stepLo = 0 := by simpa using hzero
  exact h (by rw [State.step64, hhi, hlo]; rfl)

/-- Bits k to k + 31 of a number held in 64 bits are the low bits of its quotient by 2^k (R9, R25). -/
theorem extractLsb'_ofNat (c : Nat) {k : Nat} (hk : k ≤ 32) :
    (BitVec.ofNat 64 c).extractLsb' k 32 = BitVec.ofNat 32 (c / 2 ^ k) := by
  refine BitVec.eq_of_getLsbD_eq fun i hi => ?_
  have h64 : i + k < 64 := by omega
  simp only [BitVec.getLsbD_extractLsb', BitVec.getLsbD_ofNat, Nat.testBit_div_two_pow, hi, h64, decide_true,
    Bool.true_and, Nat.add_comm k i]

/-- The two words the latch writes are the quotient's upper and lower 32 bits (R25, R176). -/
theorem latchCounter_eq (s : State) :
    latchCounter s =
      { s with
        ctrHi := BitVec.ofNat 32 (s.tSec.toNat / (s.stepHi.toNat * 2 ^ 32 + s.stepLo.toNat) / 2 ^ 32)
        ctrLo := BitVec.ofNat 32 (s.tSec.toNat / (s.stepHi.toNat * 2 ^ 32 + s.stepLo.toNat)) } := by
  rw [latchCounter, extractLsb'_ofNat _ le_rfl, extractLsb'_ofNat _ (Nat.zero_le 32), totpCtr, toNat_step64, pow_zero,
    Nat.div_one]

/-- Settles O10: the check passes, and the start is `startedState` (`begin_clearForAccept`). -/
theorem hotpStartsAtKeysel : Obligations.HotpStartsAtKeysel := by
  intro s d hb h1 h9 hk
  rw [exec_of_check_none hb (checkOf_hotp_eq_none ⟨h1, h9⟩ hk), State.start]
  exact congrArg Host.Outcome.next (begin_clearForAccept _ _ s)

/-- Settles O11: the check passes, the latch writes the quotient's words (`latchCounter_eq`), and the rest of the start is
`startedState`. -/
theorem totpLatchesTheCounterAndStarts : Obligations.TotpLatchesTheCounterAndStarts := by
  intro s d hb h1 h9 hk hne hok hsec
  have hlatch := latchCounter_eq (clearForAccept (encode (.totp d)) s)
  rw [exec_of_check_none hb (checkOf_totp_eq_none ⟨h1, h9⟩ hk hne hok hsec), State.start]
  exact congrArg (fun u => Host.Outcome.next (begin .keysel u)) hlatch

/-- Settles O12: a bad clock is the last check's error (`checkOf_totp_clock`); with a good one CTR takes the quotient
(`toNat_ctr_start_totp`), at most the time, which is below 2^63. -/
theorem totpCounterIsTheFloorOfTime : Obligations.TotpCounterIsTheFloorOfTime := by
  intro s d hb h1 h9 hk hstep
  have hne := stepWord_ne_zero hstep
  constructor
  · intro hbad
    have hcheck : checkOf (.totp d) (clearForAccept (encode (.totp d)) s) = some .clock :=
      checkOf_totp_clock ⟨h1, h9⟩ (by simpa using hk) (by simpa using hne) (by simpa [BitVec.msb_eq_toInt] using hbad)
    refine ⟨_, exec_of_check_some hb hcheck, ?_, by simp [CtrKept]⟩
    simp only [raise_fields, clearForAccept_fields]
    decide
  · rintro ⟨hok, hsec⟩
    have hmsb : s.tSec.msb = false := by simpa [BitVec.msb_eq_toInt] using hsec
    have hpos : 0 < s.step64.toNat := Nat.pos_of_ne_zero (by simpa [BitVec.toNat_eq] using hstep)
    have htime : s.tSec.toNat < 2 ^ 63 := by
      have := BitVec.msb_eq_false_iff_two_mul_lt.mp hmsb
      omega
    refine ⟨_, exec_of_check_none hb (checkOf_totp_eq_none ⟨h1, h9⟩ hk hne hok hmsb), ?_⟩
    rw [toNat_ctr_start_totp]
    exact ⟨Nat.div_mul_le_self _ _, Nat.lt_mul_of_div_lt (Nat.lt_succ_self _) hpos,
      (Nat.div_le_self _ _).trans_lt htime⟩

/-! ### Whole commands -/

/-- HOTP and TOTP start with the steps of KEYSEL, their two or three passes, the derivation and FINISH left (R115). -/
theorem stepsLeft_start_otp {i : Instr} {d : BitVec 4} (hi : i = .hotp d ∨ i = .totp d) (s : State) :
    (s.start i).stepsLeft = otpSteps s := by
  have hotp : (s.start i).isOtp = true := by rcases hi with rfl | rfl <;> simp [State.isOtp]
  have hne : i ≠ .hash := by rcases hi with rfl | rfl <;> nofun
  have hblocks : numBlocks (64 + 8) = 2 := rfl
  rw [stepsLeft_start_keyed hne, State.stepsAfter, length_msel_of_isOtp hotp, if_pos hotp, hblocks, otpSteps]
  omega

/-- A HOTP or TOTP that passed its checks ends after the counted steps, with the code of the secret and the counter it started
with published (R114, R115, R181). -/
theorem otp_publishes {i : Instr} {d : BitVec 4} (hi : i = .hotp d ∨ i = .totp d) {s : State}
    (hb : s.status.busy = false) (hp : s.pending = []) (hc : checkOf i (clearForAccept (encode i) s) = none) :
    ∃ u, exec i s = .next (s.start i) ∧ (s.start i).status.word = 0x001 ∧ EndsAfter (otpSteps s) (s.start i) u ∧
      OtpPublished s.key (s.start i).ctr.toNat d.toNat u ∧ u.cmd = encode i ∧ u.seq = Seq.rest ∧ InputsKept s u ∧
      CtrKept (s.start i) u := by
  obtain ⟨n, hends, hstatus, -, hat⟩ := finishes_of_check_none hp hc
  rw [stepsLeft_start_otp hi] at hends
  obtain ⟨hop, hdig⟩ : (s.start i).isOtp = true ∧ (s.start i).dig = d.toNat := by
    rcases hi with rfl | rfl <;> simp [State.isOtp]
  have hpub := otpPublished_stepFinish hstatus hat (by simpa only [iterate_coreStep_operands] using hop)
  simp only [iterate_coreStep_operands, start_operands, hdig] at hpub
  refine ⟨_, exec_of_check_none hb hc, ?_, hends, hpub, stepFinish_start_frame i s n⟩
  rw [(start_status i s).1]
  decide

/-- Settles O54: `otp_publishes` at the counter HOTP finds in CTR, which its start leaves. -/
theorem hotpPublishesTheCode : Obligations.HotpPublishesTheCode := by
  intro s d hb hp h1 h9 hk
  obtain ⟨u, hexec, hword, hends, hpub, hframe⟩ := otp_publishes (.inl rfl) hb hp (checkOf_hotp_eq_none ⟨h1, h9⟩ hk)
  have hctr : (s.start (.hotp d)).ctr = s.ctr := rfl
  rw [hctr, toNat_ctr] at hpub
  exact ⟨_, u, hexec, hword, hends, hpub, hframe⟩

/-- Settles O55: `otp_publishes` at the quotient TOTP's start latches in CTR (`toNat_ctr_start_totp`). -/
theorem totpPublishesTheCode : Obligations.TotpPublishesTheCode := by
  intro s d c hb hp h1 h9 hk hne hok hsec hc
  obtain ⟨u, hexec, hword, hends, hpub, hcmd, hseq, hinputs, hhi, hlo⟩ :=
    otp_publishes (.inr rfl) hb hp (checkOf_totp_eq_none ⟨h1, h9⟩ hk hne hok hsec)
  have hctr : (s.start (.totp d)).ctr.toNat = c := by rw [toNat_ctr_start_totp, toNat_step64, hc]
  have hwords := (toNat_ctr _).symm.trans hctr
  rw [hctr] at hpub
  exact ⟨_, u, hexec, hword, hwords, hends, hpub, hcmd, hseq, hinputs, by rw [hhi, hlo, hwords]⟩

/-! ### Dynamic truncation -/

/-- The value of DT, its window at an offset given as a number (R178). -/
theorem dtValue_eq {tag : Vector Byte 20} {o : Nat} (ho : o < 16) (h : (dtOffset tag).toNat = o) :
    dtValue tag = BitVec.ofNat 32
      ((tag[o] &&& 0x7F).toNat * 2 ^ 24 + tag[o + 1].toNat * 2 ^ 16 + tag[o + 2].toNat * 2 ^ 8 + tag[o + 3].toNat) := by
  subst h
  rfl

/-- Masking a byte's top bit leaves its remainder by 2^7 (R178). -/
theorem toNat_and_7F (x : Byte) : (x &&& 0x7F).toNat = x.toNat % 2 ^ 7 := by
  rw [BitVec.toNat_and]
  exact Nat.and_two_pow_sub_one_eq_mod x.toNat 7

/-- The number of four bytes, the first one's top bit masked, fits a word (R178). -/
theorem toNat_ofNat_window (b0 b1 b2 b3 : Byte) :
    (BitVec.ofNat 32 ((b0 &&& 0x7F).toNat * 2 ^ 24 + b1.toNat * 2 ^ 16 + b2.toNat * 2 ^ 8 + b3.toNat)).toNat =
      (b0 &&& 0x7F).toNat * 2 ^ 24 + b1.toNat * 2 ^ 16 + b2.toNat * 2 ^ 8 + b3.toNat := by
  have h1 := b1.isLt; have h2 := b2.isLt; have h3 := b3.isLt
  rw [BitVec.toNat_ofNat, toNat_and_7F]
  omega

/-- Masking the first byte's top bit masks the top bit of the word they make (R178). -/
theorem ofNat_window_eq_be32 (b0 b1 b2 b3 : Byte) :
    BitVec.ofNat 32 ((b0 &&& 0x7F).toNat * 2 ^ 24 + b1.toNat * 2 ^ 16 + b2.toNat * 2 ^ 8 + b3.toNat) =
      be32 b0 b1 b2 b3 &&& 0x7FFFFFFF := by
  have hmask : (be32 b0 b1 b2 b3 &&& 0x7FFFFFFF).toNat = (be32 b0 b1 b2 b3).toNat % 2 ^ 31 := by
    rw [BitVec.toNat_and]
    exact Nat.and_two_pow_sub_one_eq_mod _ 31
  have h1 := b1.isLt; have h2 := b2.isLt; have h3 := b3.isLt
  apply BitVec.eq_of_toNat_eq
  rw [hmask, toNat_ofNat_window, toNat_be32, toNat_and_7F]
  omega

/-- Settles O42: the offset is the nibble (`toNat_dtOffset`), and the value is its window's (`dtValue_eq`), below 2^31
(`toNat_dtValue_lt`). -/
theorem truncationReadsAWindowOfTheTag : Obligations.TruncationReadsAWindowOfTheTag := by
  intro tag o ho h
  have hoff : (dtOffset tag).toNat = o := (toNat_dtOffset tag).trans h
  have hval := dtValue_eq ho hoff
  refine ⟨hoff, by omega, ?number, ?word, Nat.le_sub_one_of_lt (toNat_dtValue_lt tag)⟩
  case number => rw [hval, toNat_ofNat_window]
  case word => rw [hval, ofNat_window_eq_be32]

/-- Settles O34: the core's step at TRUNC is `stepTrunc`, with offset and value read at the nibble (`dtValue_eq`). -/
theorem truncStepTakesTheWindow : Obligations.TruncStepTakesTheWindow := by
  intro s o ho hp htrunc h
  have hoff : (dtOffset s.tag).toNat = o := (toNat_dtOffset s.tag).trans h
  have htoff : BitVec.ofNat 4 o = dtOffset s.tag := by rw [← hoff, BitVec.ofNat_toNat, BitVec.setWidth_eq]
  rw [step_nil s hp, coreStep_trunc s htrunc, stepTrunc, htoff, dtValue_eq ho hoff]

/-! ### Reduction and rendering -/

/-- The ASCII code of a decimal digit, as a byte (R180). -/
theorem toNat_digitByte (n : Nat) : (BitVec.ofNat 8 (0x30 + n % 10)).toNat = 0x30 + n % 10 := by
  rw [BitVec.toNat_ofNat]
  omega

theorem length_render (code digits : Nat) : (render code digits).length = digits := by simp [render]

/-- Each byte of the string field: a digit, or 0x00 past the string (R184). -/
theorem toNat_getElem_renderField (code digits : Nat) (i : Fin 12) :
    ((renderField code digits)[i]).toNat =
      if i.val < digits then 0x30 + code / 10 ^ (digits - 1 - i.val) % 10 else 0x00 := by
  by_cases h : i.val < digits
  · rw [if_pos h, ← toNat_digitByte]
    simp [renderField, render, List.getD, h]
  · simp [renderField, render, List.getD, h]

/-- Settles O35: the core's steps are `stepReduce` and `stepRender`, and the field's bytes are the digits
(`toNat_getElem_renderField`). -/
theorem reduceAndRenderGiveTheDigits : Obligations.ReduceAndRenderGiveTheDigits := by
  intro s hp _ _
  refine ⟨fun hreduce => ?reduce, fun hrender => ?render⟩
  case reduce =>
    exact ⟨_, toNat_reduceCode s.tval s.dig, by rw [step_nil s hp, coreStep_reduce s hreduce, stepReduce]⟩
  case render =>
    exact ⟨_, by rw [step_nil s hp, coreStep_render s hrender, stepRender], toNat_getElem_renderField _ _⟩

/-- The last character of the string is the code's last digit, and those before it are the string of the rest (R180). -/
theorem render_succ (code digits : Nat) :
    render code (digits + 1) = render (code / 10) digits ++ [BitVec.ofNat 8 (0x30 + code % 10)] := by
  have hdigit {i : Nat} (hi : i < digits) : code / 10 ^ (digits + 1 - 1 - i) = code / 10 / 10 ^ (digits - 1 - i) := by
    rw [Nat.div_div_eq_div_mul, ← pow_succ', show digits - 1 - i + 1 = digits + 1 - 1 - i by omega]
  rw [render, render, List.range_succ, List.map_append, List.map_singleton]
  congr 1
  · exact List.map_congr_left fun i hi => by rw [hdigit (List.mem_range.mp hi)]
  · simp

/-- Every character of the string is a decimal digit's (R180, D16). -/
theorem toNat_mem_render {code digits : Nat} {c : Byte} (h : c ∈ render code digits) : 0x30 ≤ c.toNat ∧ c.toNat ≤ 0x39 := by
  obtain ⟨i, -, rfl⟩ := List.mem_map.mp h
  rw [toNat_digitByte]
  omega

/-- Read as a decimal number, the string is the code's last digits (R180). -/
theorem foldl_render (code digits : Nat) :
    (render code digits).foldl (fun n c => 10 * n + (c.toNat - 0x30)) 0 = code % 10 ^ digits := by
  induction digits generalizing code with
  | zero => simp [render, Nat.mod_one]
  | succ digits ih =>
    rw [render_succ, List.foldl_append, ih, List.foldl_cons, List.foldl_nil, toNat_digitByte, pow_succ', Nat.mod_mul]
    omega

/-- Settles O43: the code is the remainder (`toNat_reduceCode`), below 10^digits, so its last digits, which the string denotes
(`foldl_render`), are all of it. -/
theorem renderedStringDenotesTheCode : Obligations.RenderedStringDenotesTheCode := by
  intro value digits _ _
  have hcode := toNat_reduceCode value digits
  have hlt : (reduceCode value digits).toNat < 10 ^ digits := hcode ▸ Nat.mod_lt _ (by positivity)
  exact ⟨hcode, hlt, length_render _ _, fun c => toNat_mem_render, (foldl_render _ _).trans (Nat.mod_eq_of_lt hlt)⟩

end Sys2Proof.Machine
end

section
/-! PROOFS. Scope: the errors of the accept step (60_exceptions.md R205 to R213; 30_encoding.md R93, R94), and that every state
has a next step (93_implementation_defined.md section 1). -/

namespace Sys2Proof.Machine

/-! ### Totality -/

/-- A write to CMD has a next state, whatever the word (R94, R110). -/
theorem exists_writeCmd (v : Word) (s : State) : ∃ t, writeCmd v s = .next t := by
  cases hd : decode v with
  | legal i => exact ⟨_, (writeCmd_of_legal hd s).trans (exec_eq_accept i s)⟩
  | illegal why => exact ⟨acceptIllegal v s, by simp only [writeCmd, hd]⟩

/-- A host write has a next state, by R64's cases. -/
theorem exists_hostWrite (a : WordIndex) (v : Word) (s : State) : ∃ t, hostWrite a v s = .next t := by
  cases hb : s.status.busy with
  | true => exact ⟨s, hostWrite_of_busy a v s hb⟩
  | false =>
    cases ht : target a with
    | reserved => exact ⟨s, hostWrite_of_reserved ht v s⟩
    | buffer offset => exact ⟨_, hostWrite_buffer_of_idle ht v hb⟩
    | reg r =>
      by_cases hr : r = .cmd
      · obtain rfl := target_eq_cmd a (hr ▸ ht)
        rw [hostWrite_cmd_of_idle v s hb]
        exact exists_writeCmd v s
      · exact ⟨_, hostWrite_reg_of_idle ht hr v hb⟩

/-- Every event has a next state (R12). -/
theorem exists_runEvent (e : Event) (s : State) : ∃ t, runEvent e s = .next t := by
  cases e with
  | write a v => exact exists_hostWrite a v s
  | read | quiet | clock | reset => exact ⟨_, rfl⟩
  | wait =>
    cases hb : s.status.busy with
    | true => exact ⟨_, if_pos hb⟩
    | false => exact ⟨hostRead statusIndex s, by simp [runEvent, hb]⟩

/-- Settles O49: the next event has a next state (`exists_runEvent`), and with nothing pending the core's step is one. -/
theorem everyStateHasANextStep : Obligations.EveryStateHasANextStep := by
  intro s
  cases hp : s.pending with
  | nil => exact ⟨_, step_nil s hp⟩
  | cons e rest =>
    obtain ⟨t, ht⟩ := exists_runEvent e { s with pending := rest }
    exact ⟨t, by rw [← ht, ← step_cons, ← hp]⟩

/-! ### What an error leaves -/

/-- An error raised on the cleared state leaves the word in CMD, the error in STATUS and no results (R110, R212). -/
theorem raise_clearForAccept (word : Word) (e : Err) (s : State) :
    raise e (clearForAccept word s) = errorState word e.code s := rfl

/-- No check reads what the accept step clears (R213). -/
theorem checkOf_clearForAccept (i : Instr) (word : Word) (s : State) :
    checkOf i (clearForAccept word s) = checkOf i s := by
  cases i <;> rfl

/-- A command whose check fails ends in the error state of its word (R212). -/
theorem exec_eq_errorState {i : Instr} {s : State} {e : Err} (hb : s.status.busy = false) (hc : checkOf i s = some e) :
    exec i s = .next (errorState (encode i) e.code s) := by
  rw [exec_of_check_some hb ((checkOf_clearForAccept i _ s).trans hc), raise_clearForAccept]

/-- A write to CMD of an idle block, as a step (R64 case 2). -/
theorem step_write_cmd {s : State} (hb : s.status.busy = false) (w : Word) (rest : List Event) :
    step { s with pending := .write 0 w :: rest } = writeCmd w { s with pending := rest } :=
  (step_cons s _ rest).trans (hostWrite_cmd_of_idle w _ hb)

/-- An illegal word written to CMD of an idle block ends in the error state of code 5 (R94, R210). -/
theorem writeCmd_of_illegal {w : Word} {why : IllegalWord} (hd : decode w = .illegal why) {s : State}
    (hb : s.status.busy = false) : writeCmd w s = .next (errorState w 5 s) := by
  simp only [writeCmd, hd]
  exact congrArg Host.Outcome.next (accept_error w _ _ s .illegalCmd hb rfl)

/-! ### The first failing check -/

/-- DIGITS is the first check of HOTP and TOTP (R213). -/
theorem checkOf_digits {i : Instr} {d : BitVec 4} (hi : i = .hotp d ∨ i = .totp d) (s : State)
    (hd : d.toNat < 1 ∨ 9 < d.toNat) : checkOf i s = some .digits := by
  have hdigits : digitsBad d = true := decide_eq_true hd
  rcases hi with rfl | rfl <;> simp [checkOf, hotpCheck, totpCheck, hdigits]

/-- LENGTH of the key follows DIGITS (R213). -/
theorem checkOf_otp_length {i : Instr} {d : BitVec 4} (hi : i = .hotp d ∨ i = .totp d) {s : State}
    (hd : 1 ≤ d.toNat ∧ d.toNat ≤ 9) (hk : 256 < s.keyLen.toNat) : checkOf i s = some .length := by
  have hdigits : digitsBad d = false := decide_eq_false (by omega)
  have hlen : s.keyTooLong = true := decide_eq_true hk
  rcases hi with rfl | rfl <;> simp [checkOf, hotpCheck, totpCheck, hdigits, hlen]

/-- LENGTH of the message is the check of HASH (R141). -/
theorem checkOf_hash_length {s : State} (hm : 1024 < s.msgLen.toNat) : checkOf .hash s = some .length := by
  have hlen : s.msgTooLong = true := decide_eq_true hm
  simp [checkOf, hashCheck, hlen]

/-- LENGTH of the key or of the message is the check of HMAC (R165). -/
theorem checkOf_hmac_length {s : State} (h : 256 < s.keyLen.toNat ∨ 1024 < s.msgLen.toNat) :
    checkOf .hmac s = some .length := by
  have hlen : s.keyTooLong = true ∨ s.msgTooLong = true := h.imp decide_eq_true decide_eq_true
  rcases hlen with hlen | hlen <;> simp [checkOf, hmacCheck, hlen]

/-- STEP_ZERO of TOTP follows DIGITS and LENGTH (R213). -/
theorem checkOf_totp_stepZero {s : State} {d : BitVec 4} (hd : 1 ≤ d.toNat ∧ d.toNat ≤ 9) (hk : s.keyLen.toNat ≤ 256)
    (hhi : s.stepHi = 0) (hlo : s.stepLo = 0) : checkOf (.totp d) s = some .stepZero := by
  have hdigits : digitsBad d = false := decide_eq_false (by omega)
  have hlen : s.keyTooLong = false := decide_eq_false (not_lt.mpr hk)
  have hstep : s.stepIsZero = true := by simp [State.stepIsZero, hhi, hlo]
  simp [checkOf, totpCheck, hdigits, hlen, hstep]

/-- Settles O13: each failing check is the command's answer when the earlier ones pass (the `checkOf_` lemmas), and its error
leaves the error state (`exec_eq_errorState`, `writeCmd_of_illegal`), which keeps SEQ. -/
theorem firstFailingCheckRaisesItsError : Obligations.FirstFailingCheckRaisesItsError := by
  intro s hb
  refine ⟨fun hs _ _ => hs.idle hb, fun w why rest hd => ?illegal, fun d hd => ?digits, fun hm => ?hash, fun h => ?hmac,
    fun d h1 h9 hk => ?length, fun d h1 h9 hk hhi hlo => ?stepZero, fun d h1 h9 hk hne hbad => ?clock⟩
  case illegal => exact (step_write_cmd hb w rest).trans (writeCmd_of_illegal hd hb)
  case digits =>
    exact ⟨exec_eq_errorState hb (checkOf_digits (.inl rfl) s hd), exec_eq_errorState hb (checkOf_digits (.inr rfl) s hd)⟩
  case hash => exact exec_eq_errorState hb (checkOf_hash_length hm)
  case hmac => exact exec_eq_errorState hb (checkOf_hmac_length h)
  case length =>
    exact ⟨exec_eq_errorState hb (checkOf_otp_length (.inl rfl) ⟨h1, h9⟩ hk),
      exec_eq_errorState hb (checkOf_otp_length (.inr rfl) ⟨h1, h9⟩ hk)⟩
  case stepZero => exact exec_eq_errorState hb (checkOf_totp_stepZero ⟨h1, h9⟩ hk hhi hlo)
  case clock => exact exec_eq_errorState hb (checkOf_totp_clock ⟨h1, h9⟩ hk hne hbad)

/-! ### ILLEGAL_CMD -/

/-- A word is illegal when ZERO is not zero, or OP is not 1 to 4, or OP is 1 or 2 and DIG is not zero (R93). -/
theorem exists_illegal_iff_fields (w : Word) : (∃ why, decode w = .illegal why) ↔
    zeroField w ≠ 0 ∨ (opField w ≠ 1 ∧ opField w ≠ 2 ∧ opField w ≠ 3 ∧ opField w ≠ 4) ∨
      ((opField w = 1 ∨ opField w = 2) ∧ digField w ≠ 0) := by
  unfold decode
  split_ifs with hz h1 hd h2 hd h3 h4
  · exact iff_of_true ⟨_, rfl⟩ (.inl hz)
  · exact iff_of_true ⟨_, rfl⟩ (.inr (.inr ⟨.inl h1, hd⟩))
  · exact iff_of_false nofun (by simp_all)
  · exact iff_of_true ⟨_, rfl⟩ (.inr (.inr ⟨.inr h2, hd⟩))
  · exact iff_of_false nofun (by simp_all)
  · exact iff_of_false nofun (by simp_all)
  · exact iff_of_false nofun (by simp_all)
  · exact iff_of_true ⟨_, rfl⟩ (.inr (.inl ⟨h1, h2, h3, h4⟩))

/-- The same in the word's value: bits 31:8, 3:0 and 7:4 (R90, R210). -/
theorem exists_illegal_iff (w : Word) : (∃ why, decode w = .illegal why) ↔
    (w.toNat / 2 ^ 8 ≠ 0 ∨ w.toNat % 16 = 0 ∨ 5 ≤ w.toNat % 16 ∨
      ((w.toNat % 16 = 1 ∨ w.toNat % 16 = 2) ∧ w.toNat / 2 ^ 4 % 16 ≠ 0)) := by
  have hw := w.isLt
  rw [exists_illegal_iff_fields]
  simp only [ne_eq, ← BitVec.toNat_inj, toNat_zeroField, toNat_opField, toNat_digField,
    BitVec.reduceToNat]
  omega

/-- What `firstError` answers is an error of the list (R213). -/
theorem mem_of_firstError {l : List (Bool × Err)} {e : Err} (h : firstError l = some e) : e ∈ l.map Prod.snd := by
  induction l with
  | nil => cases h
  | cons c rest ih =>
    obtain ⟨fails, e'⟩ := c
    rw [firstError_cons] at h
    split at h
    · simp [Option.some.inj h]
    · simp [ih h]

/-- The check of a command never answers ILLEGAL_CMD: that is the decoder's error (R210, R213). -/
theorem checkOf_ne_illegalCmd (i : Instr) (s : State) : checkOf i s ≠ some .illegalCmd := by
  intro h
  cases i <;> simpa using mem_of_firstError h

/-- Code 5 is ILLEGAL_CMD's alone (R205). -/
theorem eq_illegalCmd_of_code {e : Err} (h : e.code = 5) : e = .illegalCmd := by
  cases e with
  | illegalCmd => rfl
  | clock | digits | stepZero | length => exact absurd h (by decide)

/-- The accept step of a command never ends with code 5 (R205, R210). -/
theorem exec_errCode_ne_five {i : Instr} {s : State} (hb : s.status.busy = false) :
    ∃ t, exec i s = .next t ∧ t.status.errCode ≠ 5 := by
  cases hc : checkOf i s with
  | none =>
    refine ⟨_, exec_of_check_none hb ((checkOf_clearForAccept i _ s).trans hc), ?_⟩
    rw [(start_status i s).1]
    decide
  | some e =>
    exact ⟨_, exec_eq_errorState hb hc, fun h5 => checkOf_ne_illegalCmd i s (eq_illegalCmd_of_code h5 ▸ hc)⟩

/-- Settles O14: no row selects a word exactly when the decoder finds it illegal (`decodeFollowsTheOpcodeTable`), that is by its
bits (`exists_illegal_iff`); such a word ends with code 5 (`writeCmd_of_illegal`), and no command does
(`exec_errCode_ne_five`). -/
theorem illegalCmdExactlyForWordsOutsideTheTable : Obligations.IllegalCmdExactlyForWordsOutsideTheTable := by
  intro s w rest hb
  rw [decodeFollowsTheOpcodeTable.2 w, step_write_cmd hb]
  refine ⟨exists_illegal_iff w, ?_⟩
  cases hd : decode w with
  | illegal why => exact ⟨_, writeCmd_of_illegal hd hb, iff_of_true rfl ⟨why, rfl⟩⟩
  | legal i =>
    rw [writeCmd_of_legal hd]
    obtain ⟨t, ht, hne⟩ := exec_errCode_ne_five (i := i) (s := { s with pending := rest }) hb
    exact ⟨t, ht, iff_of_false hne (by simp)⟩

end Sys2Proof.Machine
end

section
/-! PROOFS. Scope: the state after reset and the reset event (70_reset_and_hazards.md R235 to R237). -/

namespace Sys2Proof.Machine

/-- STATUS with every field 0 reads as 0 (R22). -/
@[simp] theorem word_statusClear : Status.clear.word = 0 := by decide

/-- After reset the OTP result registers hold nothing (R28 to R30, R236). -/
theorem otpCleared_reset : OtpCleared State.reset := ⟨rfl, rfl, rfl⟩

/-- With no byte listed the buffer bytes are in canonical form (log 6). -/
theorem memWf_nil : memWf [] := ⟨.nil, nofun⟩

/-- The reset event takes the block, in whatever state it is, to its reset state (R235, R237). -/
theorem sameBlock_resetBlock (s : State) : SameBlock State.reset (resetBlock s) := rfl

/-- Settles O1: STATUS reads as the word of its cleared fields (`word_statusClear`), the list of buffer bytes is empty, so
each byte reads 0x00 (`memGet_nil`), and every other register's value is written out in `State.reset`. -/
theorem resetLeavesEverythingZero : Obligations.ResetLeavesEverythingZero := by
  refine ⟨?cmd, word_statusClear, ?keyLen, ?msgLen, ?ctrHi, ?ctrLo, ?stepHi, ?stepLo, ?digest, otpCleared_reset, memGet_nil,
    ?h, ?work, ?w, ?k0, ?idig, ?tag, ?toff, ?tval, ?tcode, ?tstr, ?seq⟩
  all_goals rfl

/-- Settles O2: the step is the reset event (`step_cons`), whose state is the reset state (`sameBlock_resetBlock`) with the
events to come kept. -/
theorem resetEventGivesTheResetState : Obligations.ResetEventGivesTheResetState := by
  intro s rest
  exact ⟨resetBlock { s with pending := rest }, step_cons s .reset rest, sameBlock_resetBlock _, rfl⟩

/-- Settles O3: the block is at rest with STATUS 0x000 and cleared results, and the list of buffer bytes is empty. -/
theorem resetMeetsTheInvariants : Obligations.ResetMeetsTheInvariants := by
  refine ⟨?status, sequencerInv_of_rest rfl, engineInv_of_idle _ rfl, resultInv_of_cleared rfl rfl otpCleared_reset,
    memWf_nil⟩
  case status => exact statusInv_of_eq (f := Status.clear) (q := Seq.rest) rfl rfl (by decide) (by decide) (by decide)

end Sys2Proof.Machine
end
